-- ==== Sys2Proof/Word.lean ====
section
/-! DEFINITION. The byte, the words, and the character codes of 00_scope.md section 4. -/

namespace Sys2Proof

/-- The unit of every buffer and stream (20_memory.md R51). -/
abbrev Byte := BitVec 8

/-- The host operation word (30_encoding.md R94). -/
abbrev HostWord := BitVec 16

/-- What a status query delivers (42_cl_sequencer.md R152, 44_ut_lcd.md R193). -/
abbrev StatusWord := BitVec 32

/-- `STX`. -/
abbrev stx : Byte := 0x02
/-- `ETX`. -/
abbrev etx : Byte := 0x03
/-- `CR`. -/
abbrev cr : Byte := 0x0D
/-- `LF`. -/
abbrev lf : Byte := 0x0A
/-- `'+'`. -/
abbrev chPlus : Byte := 0x2B
/-- `'0'`. -/
abbrev ch0 : Byte := 0x30
/-- `'1'`. -/
abbrev ch1 : Byte := 0x31
/-- `'2'`. -/
abbrev ch2 : Byte := 0x32
/-- `'3'`. -/
abbrev ch3 : Byte := 0x33
/-- `'4'`. -/
abbrev ch4 : Byte := 0x34
/-- `'5'`. -/
abbrev ch5 : Byte := 0x35
/-- `'6'`. -/
abbrev ch6 : Byte := 0x36

/-- `B[i]` of a byte list; every rule that reads a byte tests the length first. -/
abbrev byteAt (l : List Byte) (i : Nat) : Byte := l.getD i 0

/-- `B[a:b]`, the half-open slice (00_scope.md section 4). -/
abbrev slice (l : List Byte) (a b : Nat) : List Byte := (l.drop a).take (b - a)

end Sys2Proof
end

