-- ==== Sys2Proof/Syntax.lean ====
section
/-! DEFINITION. The instructions: one constructor per row of opcode_table.json, and their operands. -/

namespace Sys2Proof

/-- The two channels (00_scope.md R3). -/
inductive Channel where
  | cl
  | ut
  deriving DecidableEq, Repr

/-- The command identifiers, in the order of their codes (00_scope.md R9, 30_encoding.md R95). -/
inductive CmdId where
  | c01
  | c02
  | c08
  | c40
  | c40r
  | c54
  | c54r
  | c55
  deriving DecidableEq, Repr

/-- The settle classes, in the order of their codes (20_memory.md R56, 30_encoding.md R95). -/
inductive SettleClass where
  | none
  | poll
  | mode
  deriving DecidableEq, Repr

/-- The buffer selector of `CL.CKVAL` (30_encoding.md R95). -/
inductive BufSel where
  | txbuf
  | rxline
  deriving DecidableEq, Repr

/-- The instructions. The first 23 are the host operations of 30_encoding.md R94; the last 8 are the wire
commands of R80, which the engine emits and the line carries (00_scope.md R13). -/
inductive Instr where
  | clRender (c : CmdId)
  | clUnframe (c : CmdId)
  | clCkval (b : BufSel)
  | clFlush
  | clSend (k : SettleClass)
  | clRxline
  | clCheck
  | clPval
  | clPsec
  | clCct
  | clInit
  | clMeas (c : CmdId)
  | clStatus
  | utListen
  | utRead33
  | utDecraw
  | utSync
  | utSummary
  | utLux
  | utMon
  | utAvg
  | utStatus
  | utStart (d : BitVec 8)
  | command01
  | command02
  | command08
  | command40
  | command40r
  | command54
  | command54r
  | command55
  deriving DecidableEq, Repr

end Sys2Proof
end

