-- ==== Sys2Proof/Config.lean ====
section
/-! DEFINITION. The parameters of 00_scope.md R8 (the straps), the shapes of the two tables, and the free
values. Straps the spec marks OPEN and gives no default are opaque here: nothing can be proved of their value. -/

namespace Sys2Proof

/-- One field `(v, w)` of a command template (30_encoding.md R72). -/
structure Field where
  value : List Byte
  width : Nat
  deriving DecidableEq, Repr, Inhabited

/-- A command template (30_encoding.md R72). -/
abbrev Template := List Field

/-- `CMD_TABLE`: a template for each of the eight command names (30_encoding.md R81). -/
structure CmdTable where
  t01 : Template
  t02 : Template
  t08 : Template
  t40 : Template
  t40r : Template
  t54 : Template
  t54r : Template
  t55 : Template
  deriving DecidableEq, Repr, Inhabited

/-- A token of the segment table (30_encoding.md R93). A unit string and any other name are byte strings
(log 26). -/
inductive Token where
  | digit (d : Fin 10)
  | blank
  | letterL
  | unit (s : List Byte)
  | tenths
  | hundredths
  | thousandths
  | x10
  | lowbat
  | menu
  | other (s : List Byte)
  deriving DecidableEq, Repr

/-- A field name of the segment table: the five required ones, or any other (30_encoding.md R93). -/
inductive FieldName where
  | big1000
  | big100
  | big10
  | big1
  | unit
  | other (s : List Byte)
  deriving DecidableEq, Repr

/-- The kind of a field (30_encoding.md R90). -/
inductive FieldKind where
  | scalar
  | multi
  deriving DecidableEq, Repr

/-- One field spec `(name, mask, kind, lookup)` (30_encoding.md R90). -/
structure FieldSpec where
  name : FieldName
  mask : Byte
  kind : FieldKind
  lookup : List (Byte × Token)
  deriving DecidableEq, Repr

/-- `LCD_TABLE`: entry `i` is the field list of payload index `i` (30_encoding.md R90). -/
abbrev LcdTable := List (List FieldSpec)

/-- `CK`: the formula of 40_cl_framer.md R100, or the "device-documented equivalent" that
93_implementation_defined.md U1 lists beside it (log 2). -/
inductive CkKind where
  | mod100
  | documented
  deriving DecidableEq, Repr

/-- `FAULT_STYLE` (00_scope.md R8). -/
inductive FaultStyle where
  | refuse
  | empty
  deriving DecidableEq, Repr, Inhabited

/-- `EXT_EXHAUST` (00_scope.md R8). -/
inductive ExtExhaust where
  | fault
  | ready
  deriving DecidableEq, Repr, Inhabited

/-- `ROUND_TIE` (00_scope.md R8). -/
inductive RoundTie where
  | halfEven
  | halfAway
  | halfToward
  deriving DecidableEq, Repr, Inhabited

/-- `CCT_FMT`, the number format in which the CCT is delivered: the exact rational, or another format of the
host's (00_scope.md R8, 41_cl_parser.md R130; log 29). -/
inductive CctFmt where
  | exact
  | rendered
  deriving DecidableEq, Repr, Inhabited

/-- The durations of 00_scope.md R8, in milliseconds; "no rule depends on them" (70_reset_and_hazards.md R247;
log 29). -/
structure Durations where
  settleMode : Nat
  settlePoll : Nat
  settleNone : Nat
  scan : Nat
  lock : Nat
  clRead : Nat
  deriving DecidableEq, Repr

/-- `ACK54` as plain data: a line is an acknowledgement when its being in `lines` is what `listed` says.
Every predicate on the finitely many lines of at most `RXLINE_CAP` bytes has this form (log 3). -/
structure AckRule where
  listed : Bool
  lines : List (List Byte)
  deriving DecidableEq, Repr, Inhabited

/-- The parameters of 00_scope.md R8, fixed for a run (10_state.md R29 calls the policies straps). -/
structure Straps where
  ck : CkKind
  cmdTable : CmdTable
  lcdTable : LcdTable
  hsStrict : Bool
  faultStyle : FaultStyle
  ack54 : AckRule
  extExhaust : ExtExhaust
  pcAttempts : Nat
  extAttempts : Nat
  rxlineCap : Nat
  roundTie : RoundTie
  utRateHz : Nat
  waitLimit : Nat
  cctFmt : CctFmt
  times : Durations
  deriving DecidableEq, Repr

/-- `CMD_TABLE` at reset: OPEN (00_scope.md R8). -/
opaque Config.cmdTable : CmdTable
/-- `LCD_TABLE` at reset: OPEN (00_scope.md R8). -/
opaque Config.lcdTable : LcdTable
/-- `HS_STRICT` at reset: OPEN (00_scope.md R8). -/
opaque Config.hsStrict : Bool
/-- `ACK54` at reset: OPEN, with the default "the line is not empty" (00_scope.md R8, 92_eei_decisions.md D8; log 1,
3). -/
def Config.ack54 : AckRule := ⟨false, [[]]⟩
/-- `CCT_FMT` at reset: OPEN (00_scope.md R8). -/
opaque Config.cctFmt : CctFmt
/-- `T_CL_READ` at reset: not in the source (00_scope.md R8). -/
opaque Config.clReadTime : Nat

/-- The straps at reset: the values and the defaults 00_scope.md R8 gives, the OPEN ones without a default opaque
(log 1). -/
def Config.straps : Straps where
  ck := .mod100
  cmdTable := Config.cmdTable
  lcdTable := Config.lcdTable
  hsStrict := Config.hsStrict
  faultStyle := .refuse
  ack54 := Config.ack54
  extExhaust := .fault
  pcAttempts := 2
  extAttempts := 2
  rxlineCap := 64
  roundTie := .halfEven
  utRateHz := 8
  waitLimit := 10
  cctFmt := Config.cctFmt
  times := ⟨500, 125, 0, 20, 200, Config.clReadTime⟩

/-- The "device-documented equivalent" checksum, a number 0..99 (93_implementation_defined.md U1; log 2). -/
opaque Config.documentedCk : List Byte → Fin 100

/-- The format a CCT is delivered in where `CCT_FMT` is not the exact rational (41_cl_parser.md R130; log 29). -/
opaque Config.cctRendering : Rat → Rat

/-- Free bits: draw number, slot (10_state.md R27; log 13). -/
opaque Config.freeBit : Nat → Nat → Bool
/-- Free naturals: draw number, slot (10_state.md R27; log 13). -/
opaque Config.freeNat : Nat → Nat → Nat
/-- Free integers: draw number, slot (10_state.md R27; log 13). -/
opaque Config.freeInt : Nat → Nat → Int
/-- Free rationals: draw number, slot (10_state.md R27; log 13). -/
opaque Config.freeRat : Nat → Nat → Rat
/-- Free byte strings: draw number, slot (10_state.md R27; log 13). -/
opaque Config.freeBytes : Nat → Nat → List Byte
/-- Free payload bytes of a short block: the block's stored bytes, its count, the payload index
(43_ut_frame.md R164; log 16). -/
opaque Config.freePayload : List Byte → Nat → Nat → Byte

/-- The template of a command. -/
def CmdTable.get (t : CmdTable) : CmdId → Template
  | .c01 => t.t01
  | .c02 => t.t02
  | .c08 => t.t08
  | .c40 => t.t40
  | .c40r => t.t40r
  | .c54 => t.t54
  | .c54r => t.t54r
  | .c55 => t.t55

end Sys2Proof
end

