-- ==== Sys2Proof/Machine/Operands.lean ====
section
/-! DEFINITION. The pure functions of the rules: digits, templates, checksum, frames, rounding, CCT, raw blocks,
segment meanings, readings. Nothing here reads the machine's state. -/

namespace Sys2Proof

/-! ### Command ids -/

/-- The CmdId codes (30_encoding.md R95). -/
def CmdId.code : CmdId → Nat
  | .c01 => 0
  | .c02 => 1
  | .c08 => 2
  | .c40 => 3
  | .c40r => 4
  | .c54 => 5
  | .c54r => 6
  | .c55 => 7

/-- The eight command ids in code order (00_scope.md R9). -/
def CmdId.all : List CmdId := [.c01, .c02, .c08, .c40, .c40r, .c54, .c54r, .c55]

/-- `ReadCmd` (00_scope.md R10). -/
def CmdId.isRead : CmdId → Bool
  | .c01 => true
  | .c02 => true
  | .c08 => true
  | _ => false

/-- The settle class of each command (30_encoding.md R80). -/
def CmdId.settleClass : CmdId → SettleClass
  | .c01 => .none
  | .c02 => .none
  | .c08 => .none
  | _ => .mode

/-- The settle class codes (30_encoding.md R95). -/
def SettleClass.code : SettleClass → Nat
  | .none => 0
  | .poll => 1
  | .mode => 2

/-! ### Digits (00_scope.md section 4) -/

/-- `dig(b)`. -/
def dig (b : Byte) : Option Nat :=
  if 0x30 ≤ b.toNat ∧ b.toNat ≤ 0x39 then some (b.toNat - 0x30) else none

/-- The number four digits write, most significant first. -/
def digits4 (a b c d : Option Nat) : Option Nat :=
  match a, b, c, d with
  | some a, some b, some c, some d => some (1000 * a + 100 * b + 10 * c + d)
  | _, _, _, _ => none

/-- `dec4(F)`. -/
def dec4 (f : List Byte) : Option Nat :=
  digits4 (dig (byteAt f 0)) (dig (byteAt f 1)) (dig (byteAt f 2)) (dig (byteAt f 3))

/-! ### Templates and packing (30_encoding.md R72, R73) -/

/-- One field is well formed: a positive width, a value that fits, printable bytes. -/
def Field.wf (f : Field) : Bool :=
  decide (1 ≤ f.width) && decide (f.value.length ≤ f.width) &&
    f.value.all fun b => decide (0x20 ≤ b.toNat) && decide (b.toNat ≤ 0x7E)

/-- A template is well formed (R72). -/
def Template.wf (t : Template) : Bool :=
  decide (1 ≤ t.length) && decide (t.length ≤ 8) && decide ((t.map Field.width).sum = 8) && t.all Field.wf

/-- `CMD_TABLE` is well formed: every template is (R81; the eight names are the type's). -/
def CmdTable.wf (t : CmdTable) : Bool := CmdId.all.all fun c => Template.wf (t.get c)

/-- The decimal digits of a natural, without leading zeros; `fuel` bounds their number. -/
def decDigits : Nat → Nat → List Byte
  | 0, _ => []
  | fuel + 1, n =>
    (if n < 10 then [] else decDigits fuel (n / 10)) ++ [BitVec.ofNat 8 (0x30 + n % 10)]

/-- A field whose value is a natural number (R73). -/
def Field.ofNat (n w : Nat) : Field := ⟨decDigits (n + 1) n, w⟩

/-- Field packing: right-justified, `'0'` on the left (R73). -/
def Field.pack (f : Field) : List Byte := List.replicate (f.width - f.value.length) ch0 ++ f.value

/-- `body` of a template: the packed fields in order (40_cl_framer.md R104). -/
def Template.body (t : Template) : List Byte := (t.map Field.pack).flatten

/-- The consecutive parts of given widths (40_cl_framer.md R105). -/
def splitWidths : List Nat → List Byte → List (List Byte)
  | [], _ => []
  | w :: ws, bs => bs.take w :: splitWidths ws (bs.drop w)

/-! ### Checksum and frame (40_cl_framer.md R100 to R108) -/

/-- `CK_MOD100` (R100). -/
def ckMod100 (s : List Byte) : Nat := (s.map BitVec.toNat).sum % 100

/-- `CK` as strapped (R100, 00_scope.md R8). -/
def CkKind.apply : CkKind → List Byte → Nat
  | .mod100, s => ckMod100 s
  | .documented, s => (Config.documentedCk s).val

/-- The two checksum characters, tens first (R101). -/
def ckDigits (k : CkKind) (b : List Byte) : List Byte :=
  [BitVec.ofNat 8 (0x30 + k.apply b / 10), BitVec.ofNat 8 (0x30 + k.apply b % 10)]

/-- `frame(b)` (R103). -/
def frameOf (k : CkKind) (b : List Byte) : List Byte := [stx] ++ b ++ [etx] ++ ckDigits k b ++ [cr, lf]

/-- The frame of a command under the straps: `frame(body(c))`. -/
def cmdFrame (p : Straps) (c : CmdId) : List Byte := frameOf p.ck (p.cmdTable.get c).body

/-- The checksum test of R108: both characters are digits and write `CK` of the body. -/
def ckMatches (k : CkKind) (body : List Byte) (tens units : Option Nat) : Bool :=
  match tens, units with
  | some a, some b => decide (10 * a + b = k.apply body)
  | _, _ => false

/-- `wellframed(F)` (R108). -/
def wellframed (k : CkKind) (f : List Byte) : Bool :=
  let n := f.length
  decide (6 ≤ n) && decide (byteAt f 0 = stx) && decide (byteAt f (n - 5) = etx) &&
    decide (byteAt f (n - 2) = cr) && decide (byteAt f (n - 1) = lf) &&
    ckMatches k (slice f 1 (n - 5)) (dig (byteAt f (n - 4))) (dig (byteAt f (n - 3)))

/-- `ACK54` of a line (42_cl_sequencer.md R141; log 3). -/
def AckRule.accepts (a : AckRule) (line : List Byte) : Bool := decide (line ∈ a.lines) == a.listed

/-! ### Values of a response (41_cl_parser.md) -/

/-- The magnitude `round3` gives to a magnitude (R125). -/
def round3Mag (t : RoundTie) (m : Nat) : Nat :=
  if m % 10 < 5 then m / 10
  else if 5 < m % 10 then m / 10 + 1
  else match t with
    | .halfAway => m / 10 + 1
    | .halfToward => m / 10
    | .halfEven => if m / 10 % 2 = 0 then m / 10 else m / 10 + 1

/-- `round3(v)` (R125). -/
def round3 (t : RoundTie) (v : Int) : Int :=
  if v < 0 then -(round3Mag t v.natAbs : Int) else (round3Mag t v.natAbs : Int)

/-- `v4 = ±mant × 10^expd` (R124); `neg` is the sign bit. -/
def primaryValue (neg : Bool) (m d : Nat) : Int :=
  if neg then -((m * 10 ^ d : Nat) : Int) else ((m * 10 ^ d : Nat) : Int)

/-- `cct(x, y, z)`; none is `⊥` (R131). -/
def cctOf (x y z : Rat) : Option Rat :=
  if x = 0 ∨ y = 0 ∨ z = 0 then some 0
  else
    let s := x + y + z
    if s = 0 then none
    else if y / s = 1858 / 10000 then none
    else
      let n := (x / s - 3320 / 10000) / (1858 / 10000 - y / s)
      some (437 * n ^ 3 + 3601 * n ^ 2 + 6861 * n + 5517)

/-- The number the host is given for a CCT: the exact rational, or a rendering of it "to floating-point tolerance
1e-6" (R130; log 29). -/
def CctFmt.deliver (f : CctFmt) (v : Rat) : Rat :=
  match f with
  | .exact => v
  | .rendered => max (v - 1 / 1000000) (min (v + 1 / 1000000) (Config.cctRendering v))

/-! ### Raw blocks (43_ut_frame.md R164, R165) -/

/-- The high nibble. -/
def hiNibble (b : Byte) : Nat := b.toNat / 16

/-- `weird(raw, c)` (R165). -/
def weird (raw : List Byte) (c : Nat) : Bool :=
  decide (c ≠ 33) ||
    (List.range 30).any (fun i => decide (i < c) && decide (hiNibble (byteAt raw i) ≠ 0x3)) ||
    (decide (30 < c) && decide (byteAt raw 30 ≠ cr)) || (decide (31 < c) && decide (byteAt raw 31 ≠ lf))

/-- One payload byte from its two wire bytes: low nibble first (30_encoding.md R79). -/
def pairNibbles (lo hi : Byte) : Byte := (lo &&& 0x0F) ||| ((hi &&& 0x0F) <<< 4)

/-- The payload of a block of `c` bytes; a byte whose wire bytes are missing is free (R164; log 16). -/
def payloadOf (raw : List Byte) (c : Nat) : Vector Byte 15 :=
  Vector.ofFn fun k =>
    if 2 * k.val + 1 < min c 33 then pairNibbles (byteAt raw (2 * k.val)) (byteAt raw (2 * k.val + 1))
    else Config.freePayload raw c k.val

/-! ### Segment table and readings (30_encoding.md R90 to R93, 44_ut_lcd.md R180 to R184) -/

/-- The meaning of a field (R92). -/
inductive Meaning where
  | scalar (t : Token)
  | unmapped
  | list (ts : List Token)
  deriving DecidableEq, Repr

/-- A summary: the finite map from field name to meaning, in table order (10_state.md R41). -/
abbrev Summary := List (FieldName × Meaning)

/-- What `dg` answers: a token, or `Unmapped` (R181). -/
inductive Dg where
  | tok (t : Token)
  | unmapped
  deriving DecidableEq, Repr

/-- The last reading (10_state.md R42): `lux` is none for `None`, else `(N, dexp)`. -/
structure Reading where
  lux : Option (Nat × Int)
  unit : Dg
  deriving DecidableEq, Repr

/-- The tokens a digit field may have (R93). -/
def Token.isDigitToken : Token → Bool
  | .digit _ => true
  | .blank => true
  | .letterL => true
  | _ => false

/-- A unit string (R93). -/
def Token.isUnit : Token → Bool
  | .unit _ => true
  | _ => false

/-- A scalar field of this name exists and its tokens are of the allowed kind (R93). -/
def LcdTable.hasScalar (t : LcdTable) (n : FieldName) (ok : Token → Bool) : Bool :=
  t.flatten.any fun f => decide (f.name = n) && decide (f.kind = .scalar) && f.lookup.all fun e => ok e.2

/-- `LCD_TABLE` is well formed (R93). -/
def LcdTable.wf (t : LcdTable) : Bool :=
  decide (t.length = 15) && decide ((t.flatten.map FieldSpec.name).Nodup) &&
    LcdTable.hasScalar t .big1000 Token.isDigitToken && LcdTable.hasScalar t .big100 Token.isDigitToken &&
    LcdTable.hasScalar t .big10 Token.isDigitToken && LcdTable.hasScalar t .big1 Token.isDigitToken &&
    LcdTable.hasScalar t .unit Token.isUnit

/-- The token a lookup gives to a value: its first pair (R91; log 22). -/
def lookupToken (l : List (Byte × Token)) (v : Byte) : Option Token := l.lookup v

/-- The tokens of the set bits of a value, in ascending order (R92). -/
def bitTokens (l : List (Byte × Token)) (v : Byte) : List Token :=
  (List.range 8).filterMap fun j => if v.getLsbD j then lookupToken l ((1 : Byte) <<< j) else none

/-- `meaning` of a field for a payload byte (R91, R92). -/
def FieldSpec.meaning (f : FieldSpec) (p : Byte) : Meaning :=
  match f.kind with
  | .scalar => match lookupToken f.lookup (p &&& f.mask) with
    | some t => .scalar t
    | none => .unmapped
  | .multi => .list (bitTokens f.lookup (p &&& f.mask))

/-- The summary of a payload (R180). -/
def summarize (t : LcdTable) (payload : List Byte) : Summary :=
  (List.range 15).flatMap fun i => (t.getD i []).map fun f => (f.name, f.meaning (byteAt payload i))

/-- One meaning holds a token (R181). -/
def Meaning.holds (m : Meaning) (tok : Token) : Bool :=
  match m with
  | .scalar t => decide (t = tok)
  | .unmapped => false
  | .list ts => decide (tok ∈ ts)

/-- `has(S, tok)` (R181). -/
def Summary.has (s : Summary) (tok : Token) : Bool := s.any fun e => e.2.holds tok

/-- `dg(S, name)` (R181). A name that is absent or not scalar cannot occur under a well-formed table; it reads
as `Unmapped` (log 23). -/
def Summary.dg (s : Summary) (n : FieldName) : Dg :=
  match s.lookup n with
  | some (.scalar t) => .tok t
  | _ => .unmapped

/-- `val` of a digit field; none where R182 raises `LcdNotNumeric`. -/
def Dg.val : Dg → Option Nat
  | .tok (.digit d) => some d.val
  | .tok .blank => some 0
  | _ => none

/-- The blank pattern `(None, 0, 'L', None)` (R182). -/
def isBlankPattern (g3 g2 g1 g0 : Dg) : Bool :=
  decide (g3 = .tok .blank) && decide (g2 = .tok (.digit 0)) && decide (g1 = .tok .letterL) &&
    decide (g0 = .tok .blank)

/-- `dexp = x − (t + 2h + 3k)` (R182). -/
def Summary.dexp (s : Summary) : Int :=
  (s.has .x10).toNat - ((s.has .tenths).toNat + 2 * (s.has .hundredths).toNat + 3 * (s.has .thousandths).toNat)

/-- The reading of a summary; none where R182 raises `LcdNotNumeric`. -/
def Summary.reading (s : Summary) : Option Reading :=
  if isBlankPattern (s.dg .big1000) (s.dg .big100) (s.dg .big10) (s.dg .big1) then some ⟨none, s.dg .unit⟩
  else match digits4 (s.dg .big1000).val (s.dg .big100).val (s.dg .big10).val (s.dg .big1).val with
    | some n => some ⟨some (n, s.dexp), s.dg .unit⟩
    | none => none

end Sys2Proof
end

