-- ==== Sys2Proof/WellFormed.lean ====
section
/-! DEFINITION. Which instructions are well formed: the operand of `CL.MEAS` names a read command, and a wire
command has a well-formed template. Every other operand is legal by its type. -/

namespace Sys2Proof

/-- The command whose frame a wire instruction is; none for a host operation. -/
def Instr.wireCmd : Instr → Option CmdId
  | .clRender _ => none
  | .clUnframe _ => none
  | .clCkval _ => none
  | .clFlush => none
  | .clSend _ => none
  | .clRxline => none
  | .clCheck => none
  | .clPval => none
  | .clPsec => none
  | .clCct => none
  | .clInit => none
  | .clMeas _ => none
  | .clStatus => none
  | .utListen => none
  | .utRead33 => none
  | .utDecraw => none
  | .utSync => none
  | .utSummary => none
  | .utLux => none
  | .utMon => none
  | .utAvg => none
  | .utStatus => none
  | .utStart _ => none
  | .command01 => some .c01
  | .command02 => some .c02
  | .command08 => some .c08
  | .command40 => some .c40
  | .command40r => some .c40r
  | .command54 => some .c54
  | .command54r => some .c54r
  | .command55 => some .c55

/-- The operand of `CL.MEAS` is a read command (42_cl_sequencer.md R147). -/
def Instr.operandsWf : Instr → Bool
  | .clRender _ => true
  | .clUnframe _ => true
  | .clCkval _ => true
  | .clFlush => true
  | .clSend _ => true
  | .clRxline => true
  | .clCheck => true
  | .clPval => true
  | .clPsec => true
  | .clCct => true
  | .clInit => true
  | .clMeas c => c.isRead
  | .clStatus => true
  | .utListen => true
  | .utRead33 => true
  | .utDecraw => true
  | .utSync => true
  | .utSummary => true
  | .utLux => true
  | .utMon => true
  | .utAvg => true
  | .utStatus => true
  | .utStart _ => true
  | .command01 => true
  | .command02 => true
  | .command08 => true
  | .command40 => true
  | .command40r => true
  | .command54 => true
  | .command54r => true
  | .command55 => true

/-- A wire command has a well-formed template in the command table (30_encoding.md R72). -/
def Instr.templateWf (t : CmdTable) (i : Instr) : Bool :=
  match i.wireCmd with
  | some c => Template.wf (t.get c)
  | none => true

/-- An instruction is well formed under a command table. -/
def Instr.wf (t : CmdTable) (i : Instr) : Bool := i.operandsWf && i.templateWf t

end Sys2Proof
end

