-- ==== Sys2Proof/Decode.lean ====
section
/-! DEFINITION. Decoding a host word (30_encoding.md R94 to R96) and a command frame on the wire (R71, R80), and
the encoder. A decoder tells the two apart "by where the bytes are, not by their content" (R70): `Fetched` says
where. -/

namespace Sys2Proof

/-- What is decoded: a word the host issues, or fourteen bytes at the head of the `CL` transmit queue (R70). -/
inductive Fetched where
  | host (w : HostWord)
  | wire (bs : List Byte)
  deriving DecidableEq, Repr

/-- Why nothing is decoded. -/
inductive DecodeError where
  /-- The opcode is not in the table of R94. -/
  | illegalOpcode
  /-- The argument is not one R95 lists, is not zero where none is taken, or names no read command (R96). -/
  | illegalArgument
  /-- The bytes are not `wellframed` (40_cl_framer.md R108). -/
  | notAFrame
  /-- The frame is that of no command of the table (R80). -/
  | unknownCommand
  deriving DecidableEq, Repr

/-- The opcode, bits 15:8 (R94). -/
def opcodeOf (w : HostWord) : Nat := (w.extractLsb' 8 8).toNat

/-- The argument, bits 7:0 (R94). -/
def argOf (w : HostWord) : Byte := w.extractLsb' 0 8

/-- The CmdId of a code (R95). -/
def cmdOfCode : Nat → Option CmdId
  | 0 => some .c01
  | 1 => some .c02
  | 2 => some .c08
  | 3 => some .c40
  | 4 => some .c40r
  | 5 => some .c54
  | 6 => some .c54r
  | 7 => some .c55
  | _ => none

/-- The settle class of a code (R95). -/
def settleOfCode : Nat → Option SettleClass
  | 0 => some .none
  | 1 => some .poll
  | 2 => some .mode
  | _ => none

/-- The buffer of a selector (R95). -/
def bufOfCode : Nat → Option BufSel
  | 0 => some .txbuf
  | 1 => some .rxline
  | _ => none

/-- The read command of a code (R147: "`BadOp` if `c ∉ ReadCmd`"). -/
def readOfCode (n : Nat) : Option CmdId := (cmdOfCode n).filter CmdId.isRead

/-- An instruction that takes no argument: the argument must be zero (R94). -/
def noArg (i : Instr) (a : Byte) : Except DecodeError Instr :=
  if a = 0 then .ok i else .error .illegalArgument

/-- An instruction with an argument that may be illegal (R95). -/
def withArg (i : Option Instr) : Except DecodeError Instr :=
  match i with
  | some i => .ok i
  | none => .error .illegalArgument

/-- The host word decoder (R94, R95, R96). -/
def decodeHost (w : HostWord) : Except DecodeError Instr :=
  let a := argOf w
  match opcodeOf w with
  | 0x10 => withArg ((cmdOfCode a.toNat).map .clRender)
  | 0x11 => withArg ((cmdOfCode a.toNat).map .clUnframe)
  | 0x12 => withArg ((bufOfCode a.toNat).map .clCkval)
  | 0x13 => noArg .clFlush a
  | 0x14 => withArg ((settleOfCode a.toNat).map .clSend)
  | 0x15 => noArg .clRxline a
  | 0x18 => noArg .clCheck a
  | 0x19 => noArg .clPval a
  | 0x1A => noArg .clPsec a
  | 0x1B => noArg .clCct a
  | 0x1C => noArg .clInit a
  | 0x1D => withArg ((readOfCode a.toNat).map .clMeas)
  | 0x1E => noArg .clStatus a
  | 0x20 => noArg .utListen a
  | 0x21 => noArg .utRead33 a
  | 0x22 => noArg .utDecraw a
  | 0x23 => noArg .utSync a
  | 0x24 => noArg .utSummary a
  | 0x25 => noArg .utLux a
  | 0x26 => noArg .utMon a
  | 0x27 => noArg .utAvg a
  | 0x28 => noArg .utStatus a
  | 0x29 => .ok (.utStart a)
  | _ => .error .illegalOpcode

/-- The channel a host word belongs to, by the opcode's high nibble, bits 15:12 (R96). -/
def channelOf (w : HostWord) : Option Channel :=
  match opcodeOf w / 16 with
  | 1 => some .cl
  | 2 => some .ut
  | _ => none

/-- The wire instruction of a command. -/
def CmdId.instr : CmdId → Instr
  | .c01 => .command01
  | .c02 => .command02
  | .c08 => .command08
  | .c40 => .command40
  | .c40r => .command40r
  | .c54 => .command54
  | .c54r => .command54r
  | .c55 => .command55

/-- The command whose frame these bytes are: the first in code order with a well-formed template (R71, R80;
log 12). -/
def cmdOfFrame (k : CkKind) (t : CmdTable) (bs : List Byte) : Option CmdId :=
  CmdId.all.find? fun c => Template.wf (t.get c) && decide (frameOf k (t.get c).body = bs)

/-- The wire decoder (R71, R80). -/
def decodeWire (k : CkKind) (t : CmdTable) (bs : List Byte) : Except DecodeError Instr :=
  if bs.length = 14 ∧ wellframed k bs = true then
    match cmdOfFrame k t bs with
    | some c => .ok c.instr
    | none => .error .unknownCommand
  else .error .notAFrame

/-- The decoder, total on every word and every byte string. -/
def decode (k : CkKind) (t : CmdTable) : Fetched → Except DecodeError Instr
  | .host w => decodeHost w
  | .wire bs => decodeWire k t bs

/-! ### The encoder, from the same tables -/

/-- The buffer selector codes (R95). -/
def BufSel.code : BufSel → Nat
  | .txbuf => 0
  | .rxline => 1

/-- The opcode of a host operation (R94); none for a wire command. -/
def Instr.opcode : Instr → Option Nat
  | .clRender _ => some 0x10
  | .clUnframe _ => some 0x11
  | .clCkval _ => some 0x12
  | .clFlush => some 0x13
  | .clSend _ => some 0x14
  | .clRxline => some 0x15
  | .clCheck => some 0x18
  | .clPval => some 0x19
  | .clPsec => some 0x1A
  | .clCct => some 0x1B
  | .clInit => some 0x1C
  | .clMeas _ => some 0x1D
  | .clStatus => some 0x1E
  | .utListen => some 0x20
  | .utRead33 => some 0x21
  | .utDecraw => some 0x22
  | .utSync => some 0x23
  | .utSummary => some 0x24
  | .utLux => some 0x25
  | .utMon => some 0x26
  | .utAvg => some 0x27
  | .utStatus => some 0x28
  | .utStart _ => some 0x29
  | .command01 => none
  | .command02 => none
  | .command08 => none
  | .command40 => none
  | .command40r => none
  | .command54 => none
  | .command54r => none
  | .command55 => none

/-- The argument byte of a host operation (R94, R95). -/
def Instr.argument : Instr → Byte
  | .clRender c => BitVec.ofNat 8 c.code
  | .clUnframe c => BitVec.ofNat 8 c.code
  | .clCkval b => BitVec.ofNat 8 b.code
  | .clFlush => 0
  | .clSend k => BitVec.ofNat 8 k.code
  | .clRxline => 0
  | .clCheck => 0
  | .clPval => 0
  | .clPsec => 0
  | .clCct => 0
  | .clInit => 0
  | .clMeas c => BitVec.ofNat 8 c.code
  | .clStatus => 0
  | .utListen => 0
  | .utRead33 => 0
  | .utDecraw => 0
  | .utSync => 0
  | .utSummary => 0
  | .utLux => 0
  | .utMon => 0
  | .utAvg => 0
  | .utStatus => 0
  | .utStart d => d
  | .command01 => 0
  | .command02 => 0
  | .command08 => 0
  | .command40 => 0
  | .command40r => 0
  | .command54 => 0
  | .command54r => 0
  | .command55 => 0

/-- The channel whose operation an instruction is (R94); none for a wire command. -/
def Instr.channel (i : Instr) : Option Channel :=
  match i.opcode with
  | some o => if o / 16 = 1 then some .cl else some .ut
  | none => none

/-- The host word of an opcode and an argument (R94). -/
def hostWordOf (opcode : Nat) (a : Byte) : HostWord := BitVec.ofNat 8 opcode ++ a

/-- The encoder: a host operation's word, or a wire command's frame. -/
def encode (k : CkKind) (t : CmdTable) (i : Instr) : Fetched :=
  match i.opcode, i.wireCmd with
  | some o, _ => .host (hostWordOf o i.argument)
  | none, some c => .wire (frameOf k (t.get c).body)
  | none, none => .wire []

/-! ### The opcode table's numbering -/

/-- The reference template with three fields of widths 2, 2, 4 that fill their widths (92_eei_decisions.md,
CMD_TABLE_REF). -/
def refTemplate (a b c d e f g h : Byte) : Template := [⟨[a, b], 2⟩, ⟨[c, d], 2⟩, ⟨[e, f, g, h], 4⟩]

/-- `CMD_TABLE_REF` of 92_eei_decisions.md D5. PRESUMED: the spec takes it from general knowledge (log 12). -/
def cmdTableRef : CmdTable where
  t01 := refTemplate 0x30 0x30 0x30 0x31 0x31 0x32 0x30 0x30
  t02 := refTemplate 0x30 0x30 0x30 0x32 0x31 0x32 0x30 0x30
  t08 := refTemplate 0x30 0x30 0x30 0x38 0x31 0x32 0x30 0x30
  t40 := refTemplate 0x30 0x30 0x34 0x30 0x31 0x30 0x20 0x20
  t40r := refTemplate 0x39 0x39 0x34 0x30 0x32 0x31 0x20 0x20
  t54 := refTemplate 0x30 0x30 0x35 0x34 0x31 0x20 0x20 0x20
  t54r := refTemplate 0x30 0x30 0x35 0x34 0x31 0x20 0x20 0x20
  t55 := refTemplate 0x39 0x39 0x35 0x35 0x31 0x20 0x20 0x30

/-- The `n` bytes of a number whose most significant byte is byte index 0, as opcode_table.json numbers the bits
of a CLCMD row ("bit 111 is the most significant bit of byte index 0"). -/
def frameBytes (n w : Nat) : List Byte := (List.range n).map fun i => BitVec.ofNat 8 (w >>> (8 * (n - 1 - i)))

/-- Where an instruction of the opcode table stands: 16-bit rows are host words, 112-bit rows wire frames. -/
def tableWord (nbits w : Nat) : Option Fetched :=
  match nbits with
  | 16 => some (.host (BitVec.ofNat 16 w))
  | 112 => some (.wire (frameBytes 14 w))
  | _ => none

/-- The instruction the decoder reads from the opcode table's bits `w`. A frame is read under `CMD_TABLE_REF`,
the instance the table's own rows carry (log 12). -/
def decodeTableWord (nbits w : Nat) : Option Instr :=
  (tableWord nbits w).bind fun f => (decode .mod100 cmdTableRef f).toOption

end Sys2Proof
end

