-- ==== Sys2Proof/Machine/State.lean ====
section
/-! DEFINITION. The state of the engine (10_state.md, 20_memory.md R52), as plain data, and its value at reset. -/

namespace Sys2Proof.Machine

/-- The status, fault and refusal codes; "No other value is ever written to a status or fault register"
(60_exceptions.md R200). -/
inductive Code where
  | ok
  | noData
  | waiting
  | hint
  | dropped
  | skip
  | accum
  | chunk
  | short
  | transportError
  | deviceErrorPowerCycle
  | deviceErrorBattery
  | malformedFrame
  | handshakeFail
  | extNotEntered
  | cctDivide
  | lcdNotNumeric
  | badOp
  | dead
  | deadEmpty
  | notReady
  | badState
  | noFrame
  | badTemplate
  | noWindow
  | noSummary
  | noLine
  | noXyz
  | noPayload
  | badTable
  deriving DecidableEq, Repr

/-- The handshake states (10_state.md R21). -/
inductive Hs where
  | disconnected
  | pcConnected
  | held
  | extMode
  | ready
  | faulted
  deriving DecidableEq, Repr

/-- How the last `CL.RXLINE` ended (10_state.md R26). -/
inductive RxStat where
  | none
  | line
  | empty
  | partialLine
  deriving DecidableEq, Repr

/-- The synchronizer phase (10_state.md R36). -/
inductive UtMode where
  | resync
  | steady
  deriving DecidableEq, Repr

/-- `CL.warn`, bits 0 to 3 in this order (10_state.md R24). -/
structure ClWarn where
  range : Bool
  lowLum : Bool
  hsLenient : Bool
  overrun : Bool
  deriving DecidableEq, Repr

/-- `UT.warn`, bits 0 and 1 in this order (10_state.md R44). -/
structure UtWarn where
  lowBat : Bool
  malformed : Bool
  deriving DecidableEq, Repr

/-- The timeout classes of `RxNext` (20_memory.md R54). -/
inductive TimeoutClass where
  | clRead
  | scan
  | lock
  deriving DecidableEq, Repr

/-- A wait of an operation, with its class (70_reset_and_hazards.md R247): for a byte, or for a settle timer. -/
inductive Wait where
  | read (t : TimeoutClass)
  | settle (k : SettleClass)
  deriving DecidableEq, Repr

/-- The events of a channel's history (20_memory.md R53 to R56, R67). `linkErr` carries the class of the wait it
answers, and `waits` is a read that is not answered: "the model records the *class* of each wait in the event history"
(70_reset_and_hazards.md R247; log 8). -/
inductive Event where
  | tx (b : Byte)
  | settle (k : SettleClass)
  | flush
  | rx (t : TimeoutClass) (b : Byte)
  | timeout (t : TimeoutClass)
  | linkErr (w : Option Wait)
  | waits (t : TimeoutClass)
  deriving DecidableEq, Repr

/-- The moves of the line (20_memory.md R57). -/
inductive LineMove where
  | deliver (b : Byte)
  | wire
  | breakLink
  deriving DecidableEq, Repr

/-- How the line answers a primitive: it lets it proceed, it answers `LinkErr` (20_memory.md R53 to R55), or it
never answers (70_reset_and_hazards.md R246). -/
inductive TurnAnswer where
  | proceed
  | linkErr
  | never
  deriving DecidableEq, Repr

/-- What the line does at one transport primitive: its moves up to then, then its answer (20_memory.md R57;
log 4). -/
structure Turn where
  moves : List LineMove
  answer : TurnAnswer
  deriving DecidableEq, Repr

/-- One channel's transport: the two hidden queues (20_memory.md R52), whether the link is broken (R57), the
event history (R53 to R56); and the model's own fields: the line's coming turns, the bytes it then delivers over and
over, one to each read that waits (log 4), and the bytes on the wire (log 8). -/
structure Port where
  rxq : List Byte
  txq : List Byte
  broken : Bool
  hist : List Event
  turns : List Turn
  stream : List Byte
  wire : List Byte
  deriving DecidableEq, Repr

/-- The result registers of `CL` but its status (10_state.md R27); `sign` is true for −1. -/
structure ClResults where
  sign : Bool
  mant : Nat
  expd : Nat
  v4 : Int
  v3 : Int
  s1 : Nat
  s2 : Nat
  nres : Nat
  ckok : Bool
  fld : Vector (List Byte) 8
  nfld : Nat
  xyz : Rat × Rat × Rat
  xyzv : Bool
  cct : Rat
  deriving DecidableEq, Repr

/-- Channel `CL` (10_state.md R21 to R28), its transport, the status words it has delivered (log 10), how many free
values it has drawn (log 27), and whether it is inside an operation that does not end (log 5). -/
structure Cl where
  hs : Hs
  fault : Code
  warn : ClWarn
  txbuf : Vector Byte 14
  txlen : Nat
  rxline : List Byte
  rxlen : Nat
  rxstat : RxStat
  status : Code
  res : ClResults
  pcTry : Nat
  extTry : Nat
  port : Port
  out : List StatusWord
  free : Nat
  busy : Bool
  deriving DecidableEq, Repr

/-- Channel `UT` (10_state.md R36 to R45), its transport, the status words it has delivered (log 10), and whether it
is inside an operation that does not end (log 5). -/
structure Ut where
  mode : UtMode
  dead : Bool
  fault : Code
  raw : Vector Byte 33
  rawcnt : Nat
  closed : Bool
  payload : Vector Byte 15
  malformed : Bool
  pvalid : Bool
  idle : Nat
  hint : Bool
  summary : Summary
  svalid : Bool
  reading : Reading
  dur : BitVec 8
  wcnt : Nat
  wsum : Nat
  avg : Nat × Nat
  warn : UtWarn
  status : Code
  port : Port
  out : List StatusWord
  busy : Bool
  deriving DecidableEq, Repr

/-- What happens next: the host issues a word or asserts reset (00_scope.md R18), the line moves between two
operations (20_memory.md R57), or the line takes a whole command frame (log 11). -/
inductive Action where
  | host (w : HostWord)
  | reset
  | line (ch : Channel) (m : LineMove)
  | wireFrame
  deriving DecidableEq, Repr

/-- The machine: the parameters (log 1), the two channels, and what the host and the line do next (log 9). -/
structure State where
  straps : Straps
  cl : Cl
  ut : Ut
  agenda : List Action
  deriving DecidableEq, Repr

/-- The machine stops with a fault. -/
inductive Fault where
  /-- The host issues an operation to a channel whose previous one has not ended: "issuing to a busy channel is
  outside the model" (70_reset_and_hazards.md R243, 93_implementation_defined.md U20). Raised by `step` on a host
  word, never by an instruction's meaning. Safe: no claim about a next state covers it (log 30). -/
  | busy (ch : Channel)
  deriving DecidableEq, Repr

/-- The machine gives an instruction no meaning. -/
inductive Refusal where
  /-- Raised only by an arm of `exec` that has no meaning yet. Safe. -/
  | notModelled (mnemonic : String)
  /-- The line is asked to take a command frame that is not at the head of `CL.txq`: R57 of 20_memory.md lets
  only the head leave. Raised by the wire commands and by `step` on `Action.wireFrame`. Safe (log 11). -/
  | frameNotQueued
  deriving DecidableEq, Repr

/-- A transport at reset: empty queues, an unbroken link, a silent line (log 18). -/
def Port.reset : Port where
  rxq := []
  txq := []
  broken := false
  hist := []
  turns := []
  stream := []
  wire := []

/-- The result registers at reset: `nres` and `xyzv` as 10_state.md R46 states, the unspecified ones at the
values log 17 names. -/
def ClResults.reset : ClResults where
  sign := false
  mant := 0
  expd := 0
  v4 := 0
  v3 := 0
  s1 := 0
  s2 := 0
  nres := 0
  ckok := false
  fld := Vector.replicate 8 []
  nfld := 0
  xyz := (0, 0, 0)
  xyzv := false
  cct := 0

/-- Channel `CL` at reset (10_state.md R46; log 17). -/
def Cl.reset (p : Straps) : Cl where
  hs := .disconnected
  fault := .ok
  warn := ⟨false, false, false, false⟩
  txbuf := Vector.replicate 14 0
  txlen := 0
  rxline := List.replicate p.rxlineCap 0
  rxlen := 0
  rxstat := .none
  status := .ok
  res := .reset
  pcTry := 0
  extTry := 0
  port := .reset
  out := []
  free := 0
  busy := false

/-- Channel `UT` at reset (10_state.md R46; log 17). -/
def Ut.reset : Ut where
  mode := .resync
  dead := false
  fault := .ok
  raw := Vector.replicate 33 0
  rawcnt := 0
  closed := false
  payload := Vector.replicate 15 0
  malformed := false
  pvalid := false
  idle := 0
  hint := false
  summary := []
  svalid := false
  reading := ⟨none, .unmapped⟩
  dur := 0
  wcnt := 0
  wsum := 0
  avg := (0, 0)
  warn := ⟨false, false⟩
  status := .ok
  port := .reset
  out := []
  busy := false

/-- The machine after reset under given straps, with nothing for the host or the line to do. -/
def State.resetWith (p : Straps) : State where
  straps := p
  cl := .reset p
  ut := .reset
  agenda := []

/-- The machine right after reset (10_state.md R46, 70_reset_and_hazards.md R230). -/
def State.reset : State := State.resetWith Config.straps

/-- The same machine with another `CL` channel. -/
def State.setCl (s : State) (c : Cl) : State := { s with cl := c }
/-- The same machine with another `UT` channel. -/
def State.setUt (s : State) (u : Ut) : State := { s with ut := u }
/-- The same machine with another agenda. -/
def State.setAgenda (s : State) (a : List Action) : State := { s with agenda := a }
/-- The same channel with another transport. -/
def Cl.setPort (c : Cl) (p : Port) : Cl := { c with port := p }
/-- The same channel with another status. -/
def Cl.setStatus (c : Cl) (x : Code) : Cl := { c with status := x }
/-- The same channel with other result registers. -/
def Cl.setRes (c : Cl) (r : ClResults) : Cl := { c with res := r }
/-- The same channel in another handshake state. -/
def Cl.setHs (c : Cl) (h : Hs) : Cl := { c with hs := h }
/-- The same channel, inside an operation that does not end (60_exceptions.md R201 (4); log 5). -/
def Cl.hang (c : Cl) : Cl := { c with busy := true }
/-- The same channel with another transport. -/
def Ut.setPort (u : Ut) (p : Port) : Ut := { u with port := p }
/-- The same channel with another status. -/
def Ut.setStatus (u : Ut) (x : Code) : Ut := { u with status := x }
/-- The same channel, inside an operation that does not end (60_exceptions.md R201 (4); log 5). -/
def Ut.hang (u : Ut) : Ut := { u with busy := true }

end Sys2Proof.Machine
end

