-- ==== Sys2Proof/Machine/Ops.lean ====
section
/-! DEFINITION. The shared operations: the transport primitives (20_memory.md R53 to R57), the results of an
operation's body, entry checks and refusals, and fault entry (60_exceptions.md R208). -/

namespace Sys2Proof.Machine

open Host

/-! ### The line and the four primitives -/

/-- One move of the line (20_memory.md R57). -/
def Port.move (p : Port) (m : LineMove) : Port :=
  match m with
  | .deliver b => { p with rxq := p.rxq ++ [b] }
  | .wire => match p.txq with
    | [] => p
    | b :: q => { p with txq := q, wire := p.wire ++ [b] }
  | .breakLink => { p with broken := true }

/-- Several moves of the line, in order. -/
def Port.moves (p : Port) (ms : List LineMove) : Port := ms.foldl Port.move p

/-- The line's turn at one primitive: its moves, then its answer. With no turn left the line makes no move and
lets the primitive proceed (log 4). -/
def Port.turn (p : Port) : TurnAnswer × Port :=
  match p.turns with
  | [] => (.proceed, p)
  | t :: ts => (t.answer, Port.moves { p with turns := ts } t.moves)

/-- An event joins the history (20_memory.md R53 to R56). -/
def Port.record (p : Port) (e : Event) : Port := { p with hist := p.hist ++ [e] }

/-- The answers of `TxByte`, `Flush` and `Settle`. -/
inductive Ack where
  | ok
  | linkErr
  | never
  deriving DecidableEq, Repr

/-- The answers of `RxNext`. -/
inductive Rx where
  | byte (b : Byte)
  | timeout
  | linkErr
  | never
  deriving DecidableEq, Repr

/-- A broken link, or a turn that answers `LinkErr` (20_memory.md R54, R57). -/
def linkFails (a : TurnAnswer) (p : Port) : Bool := decide (a = .linkErr) || p.broken

/-- A primitive that waits and is not answered: `Settle` "records the event `Settle(cls)` and completes when" its
timer reports (20_memory.md R56), and a read's class "is recorded in the event history" (R54; log 8). -/
def Port.await (p : Port) (w : Option Wait) : Port :=
  match w with
  | none => p
  | some (.settle k) => p.record (.settle k)
  | some (.read t) => p.record (.waits t)

/-- The common shape of `TxByte`, `Flush` and `Settle`, with the class of its wait: the line's turn, then the act,
unless the link fails (the act is then not done: 95_test_vectors.md V18; log 7) or no answer comes. "`Settle(CL, NONE)`
completes at once" (20_memory.md R56; log 6). -/
def Port.primitive (p : Port) (w : Option Wait) (act : Port → Port) : Ack × Port :=
  match p.turn with
  | (a, q) =>
    if linkFails a q then (.linkErr, q.record (.linkErr w))
    else if a = .never ∧ w ≠ some (.settle .none) then (.never, q.await w)
    else (.ok, act q)

/-- `TxByte(ch, b)` (20_memory.md R53). -/
def Port.txByte (p : Port) (b : Byte) : Ack × Port :=
  p.primitive none fun q => Port.record { q with txq := q.txq ++ [b] } (.tx b)

/-- `Flush(ch)` (20_memory.md R55). -/
def Port.flush (p : Port) : Ack × Port :=
  p.primitive none fun q => Port.record { q with rxq := [], txq := [] } .flush

/-- `Settle(CL, cls)` (20_memory.md R56). -/
def Port.settle (p : Port) (k : SettleClass) : Ack × Port :=
  p.primitive (some (.settle k)) fun q => q.record (.settle k)

/-- A read of an empty queue waits: with no turn left the line delivers the next byte of its endless stream, if it
has one (20_memory.md R54, R57; log 4). -/
def Port.feed (p : Port) : Port :=
  match p.turns, p.rxq, p.stream with
  | [], [], b :: bs => { p with rxq := [b], stream := bs ++ [b] }
  | _, _, _ => p

/-- `RxNext(ch, t)` (20_memory.md R54). -/
def Port.rxNext (p : Port) (t : TimeoutClass) : Rx × Port :=
  match p.feed.turn with
  | (a, q) =>
    if linkFails a q then (.linkErr, q.record (.linkErr (some (.read t))))
    else match q.rxq with
      | b :: r => (.byte b, Port.record { q with rxq := r } (.rx t b))
      | [] => if a = .never then (.never, q.await (some (.read t))) else (.timeout, q.record (.timeout t))

/-- Is this move a delivery? -/
def LineMove.isDeliver : LineMove → Bool
  | .deliver _ => true
  | .wire => false
  | .breakLink => false

/-- How many bytes this transport will answer to `RxNext`, if nothing is flushed, before its endless stream begins:
those queued and those the coming turns deliver. It bounds the receive loops. -/
def Port.supply (p : Port) : Nat :=
  p.rxq.length + (p.turns.map fun t => t.moves.countP LineMove.isDeliver).sum

/-! ### The result of an operation's body -/

/-- How the body of an operation ends: done, with a fault raised (60_exceptions.md R208), or never (R201 (4)); then
the channel is as the unanswered primitive, or the endless stream, found it. -/
inductive Res (α : Type) where
  | done (c : α)
  | raised (x : Code) (c : α)
  | stuck (c : α)
  deriving DecidableEq, Repr

/-- Sequencing: a raise or an unanswered primitive ends the operation where it happens (60_exceptions.md R208). -/
def Res.bind {α : Type} (r : Res α) (f : α → Res α) : Res α :=
  match r with
  | .done c => f c
  | .raised x c => .raised x c
  | .stuck c => .stuck c

/-- What a `CL` primitive's answer means to the operation: "`LinkErr` → raise TransportError"
(40_cl_framer.md R115). -/
def Cl.afterAck (c : Cl) (r : Ack × Port) : Res Cl :=
  match r with
  | (.ok, p) => .done (c.setPort p)
  | (.linkErr, p) => .raised .transportError (c.setPort p)
  | (.never, p) => .stuck (c.setPort p)

/-- `Flush(CL)` as a step of an operation. -/
def Cl.flush (c : Cl) : Res Cl := c.afterAck c.port.flush

/-- `Settle(CL, cls)` as a step of an operation. -/
def Cl.settle (k : SettleClass) (c : Cl) : Res Cl := c.afterAck (c.port.settle k)

/-- `TxByte` of each byte in order (20_memory.md R53). -/
def Cl.txBytes : List Byte → Cl → Res Cl
  | [], c => .done c
  | b :: bs, c => (c.afterAck (c.port.txByte b)).bind (Cl.txBytes bs)

/-- The fourteen `TxByte` calls and the `Settle` of 40_cl_framer.md R110. -/
def Cl.transmit (k : SettleClass) (c : Cl) : Res Cl := (Cl.txBytes c.txbuf.toList c).bind (Cl.settle k)

/-- `CL.txbuf <- frame(body(c)); CL.txlen <- 14` (40_cl_framer.md R102). -/
def Cl.loadFrame (p : Straps) (i : CmdId) (c : Cl) : Cl :=
  { c with txbuf := Vector.ofFn fun k => byteAt (cmdFrame p i) k.val, txlen := 14 }

/-- `send(c, cls)` of 42_cl_sequencer.md, with the class 30_encoding.md R80 gives the command. -/
def Cl.send (p : Straps) (i : CmdId) (c : Cl) : Res Cl := (c.loadFrame p i).transmit i.settleClass

/-- A received byte is stored, or dropped with `W_OVERRUN` when the buffer is full (40_cl_framer.md R112). -/
def Cl.storeRx (cap : Nat) (b : Byte) (c : Cl) : Cl :=
  if c.rxlen < cap then { c with rxline := c.rxline.set c.rxlen b, rxlen := c.rxlen + 1 }
  else { c with warn := { c.warn with overrun := true } }

/-- The receive loop of 40_cl_framer.md R112. `fuel` exceeds the bytes that can come up to the first `LF`, so that it
runs out only where bytes without `LF` come for ever, and the loop does not end (R113 (e), 70_reset_and_hazards.md
R246). -/
def Cl.rxLoop (cap : Nat) : Nat → Cl → Res Cl
  | 0, c => .stuck c
  | fuel + 1, c =>
    match c.port.rxNext .clRead with
    | (.linkErr, q) => .raised .transportError (c.setPort q)
    | (.never, q) => .stuck (c.setPort q)
    | (.timeout, q) => .done { c.setPort q with rxstat := if c.rxlen = 0 then .empty else .partialLine }
    | (.byte b, q) =>
      if b = lf then .done { (c.setPort q).storeRx cap b with rxstat := .line }
      else Cl.rxLoop cap fuel ((c.setPort q).storeRx cap b)

/-- The first assignments of 40_cl_framer.md R112. -/
def Cl.rxStart (c : Cl) : Cl := { c with warn := { c.warn with overrun := false }, rxlen := 0, rxstat := .none }

/-- `rxline()` of 42_cl_sequencer.md: the loop of 40_cl_framer.md R112 without the status. It is the whole loop, with
its first assignments, so that `CL.INIT` and `CL.MEAS` clear and set `W_OVERRUN` too, which 42_cl_sequencer.md R147 does
not list (DEDUCED, log 35). -/
def Cl.rxlineOp (p : Straps) (c : Cl) : Res Cl :=
  Cl.rxLoop p.rxlineCap (c.port.supply + c.port.stream.length + 1) c.rxStart

/-- `L`, the last line received (41_cl_parser.md R120). -/
def Cl.line (c : Cl) : List Byte := c.rxline.take c.rxlen

/-! ### Fault entry (60_exceptions.md R208) -/

/-- "X is fatal here" on `CL`; `inInit` says the operation is `CL.INIT` (R208, 42_cl_sequencer.md R146). -/
def Code.fatal (inInit : Bool) : Code → Bool
  | .transportError => true
  | .deviceErrorPowerCycle => true
  | .deviceErrorBattery => true
  | .handshakeFail => true
  | .extNotEntered => true
  | .malformedFrame => inInit
  | _ => false

/-- An integer kept within a magnitude. -/
def clampInt (m : Nat) (v : Int) : Int := max (-(m : Int)) (min (m : Int) v)

/-- One of the values `CL.nres` can have, 0, 1 or 3 (10_state.md R27). -/
def nresOf (n : Nat) : Nat :=
  match n % 3 with
  | 0 => 0
  | 1 => 1
  | _ => 3

/-- Result registers that are unspecified (10_state.md R27): free values within each register's range, but
`CL.xyzv`, which is "never cleared except by reset" (log 13). -/
def ClResults.unspecified (n : Nat) (old : ClResults) : ClResults where
  sign := Config.freeBit n 0
  mant := Config.freeNat n 0 % 10000
  expd := Config.freeNat n 1 % 10
  v4 := clampInt (9999 * 10 ^ 9) (Config.freeInt n 0)
  v3 := clampInt (9999 * 10 ^ 8) (Config.freeInt n 1)
  s1 := Config.freeNat n 2 % 10000
  s2 := Config.freeNat n 3 % 10000
  nres := nresOf (Config.freeNat n 4)
  ckok := Config.freeBit n 1
  fld := Vector.ofFn fun i => Config.freeBytes n i.val
  nfld := Config.freeNat n 5 % 9
  xyz := (Config.freeRat n 0, Config.freeRat n 1, Config.freeRat n 2)
  xyzv := old.xyzv
  cct := Config.freeRat n 3

/-- The result registers become unspecified (10_state.md R27). -/
def Cl.loseResults (c : Cl) : Cl := { c with res := c.res.unspecified c.free, free := c.free + 1 }

/-- The channel becomes `Faulted` with a sticky code, once (60_exceptions.md R208). -/
def Cl.becomeFaulted (x : Code) (c : Cl) : Cl :=
  if c.hs = .faulted then c else { c with fault := x, hs := .faulted }

/-- `raise X on channel CL` (60_exceptions.md R208, 10_state.md R27). -/
def Cl.raise (inInit : Bool) (x : Code) (c : Cl) : Cl :=
  if x.fatal inInit then ((c.setStatus x).loseResults).becomeFaulted x else (c.setStatus x).loseResults

/-- `raise X on channel UT` (60_exceptions.md R208). -/
def Ut.raise (x : Code) (u : Ut) : Ut :=
  if x = .transportError then { u.setStatus x with fault := .transportError, dead := true } else u.setStatus x

/-! ### Entry checks and whole operations -/

/-- The refusal of a dead `CL` channel, by `FAULT_STYLE` (40_cl_framer.md R114, 60_exceptions.md R222). -/
def Cl.refuseDead (f : FaultStyle) (c : Cl) : Cl :=
  match f with
  | .refuse => c.setStatus .dead
  | .empty => (c.setStatus .deadEmpty).setRes { c.res with nres := 0 }

/-- The first precondition that fails gives the refusal (60_exceptions.md R211). -/
def firstFailing : List (Bool × Code) → Option Code
  | [] => none
  | (holds, x) :: rest => if holds then firstFailing rest else some x

/-- The end of a `CL` operation whose body calls primitives: one that does not end leaves its channel busy, and the
other channel free to go on (log 5). -/
def State.endCl (s : State) (onRaise : Code → Cl → Cl) (r : Res Cl) : Outcome State Fault Refusal :=
  match r with
  | .done c => .next (s.setCl c)
  | .raised x c => .next (s.setCl (onRaise x c))
  | .stuck c => .next (s.setCl c.hang)

/-- A `CL` operation: the entry check (40_cl_framer.md R114), its own preconditions in order (60_exceptions.md
R211), then its body, with what a raise does. -/
def State.clOp (s : State) (pre : List (Bool × Code)) (onRaise : Code → Cl → Cl) (body : Cl → Res Cl) :
    Outcome State Fault Refusal :=
  if s.cl.hs = .faulted then .next (s.setCl (s.cl.refuseDead s.straps.faultStyle))
  else match firstFailing pre with
    | some x => .next (s.setCl (s.cl.setStatus x))
    | none => s.endCl onRaise (body s.cl)

/-- A `CL` operation that calls no primitive and raises no fault. -/
def State.clPure (s : State) (pre : List (Bool × Code)) (body : Cl → Cl) : Outcome State Fault Refusal :=
  .next (s.setCl
    (if s.cl.hs = .faulted then s.cl.refuseDead s.straps.faultStyle
     else match firstFailing pre with
       | some x => s.cl.setStatus x
       | none => body s.cl))

/-- The end of a `UT` operation whose body calls primitives; one that does not end leaves its channel busy (log 5). -/
def State.endUt (s : State) (r : Res Ut) : Outcome State Fault Refusal :=
  match r with
  | .done u => .next (s.setUt u)
  | .raised x u => .next (s.setUt (u.raise x))
  | .stuck u => .next (s.setUt u.hang)

/-- A `UT` operation: the entry check (43_ut_frame.md R160), its own preconditions in order, then its body. -/
def State.utOp (s : State) (pre : List (Bool × Code)) (body : Ut → Res Ut) : Outcome State Fault Refusal :=
  if s.ut.dead then .next (s.setUt (s.ut.setStatus .dead))
  else match firstFailing pre with
    | some x => .next (s.setUt (s.ut.setStatus x))
    | none => s.endUt (body s.ut)

/-- A `UT` operation that calls no primitive and raises no fault. -/
def State.utPure (s : State) (pre : List (Bool × Code)) (body : Ut → Ut) : Outcome State Fault Refusal :=
  .next (s.setUt
    (if s.ut.dead then s.ut.setStatus .dead
     else match firstFailing pre with
       | some x => s.ut.setStatus x
       | none => body s.ut))

/-! ### The host's two other acts -/

/-- An illegal host word is refused: "the channel named by the opcode's high nibble … changes no state except its
status register, which becomes `BadOp`" (30_encoding.md R96). -/
def State.refuseIllegal (s : State) (ch : Option Channel) : State :=
  match ch with
  | some .cl => s.setCl (s.cl.setStatus .badOp)
  | some .ut => s.setUt (s.ut.setStatus .badOp)
  | none => s

/-- Reset asserted by the host: both channels at their reset values; the transports, the words already delivered
and the parameters stay (70_reset_and_hazards.md R230, R231; log 19). -/
def State.assertReset (s : State) : State where
  straps := s.straps
  cl := { Cl.reset s.straps with port := s.cl.port, out := s.cl.out, free := s.cl.free }
  ut := { Ut.reset with port := s.ut.port, out := s.ut.out }
  agenda := s.agenda

/-- A move of a channel's line between two operations (20_memory.md R57). On a busy channel too it changes the transport
only: it does not answer the primitive that the channel waits at. DESIGN CHOICE (log 31). -/
def State.lineMove (s : State) (ch : Channel) (m : LineMove) : State :=
  match ch with
  | .cl => s.setCl (s.cl.setPort (s.cl.port.move m))
  | .ut => s.setUt (s.ut.setPort (s.ut.port.move m))

/-- The line takes a whole frame from the head of the `CL` transmit queue: as many `Wire(b)` moves as the frame
has bytes (20_memory.md R57; log 11). -/
def Port.takeFrame (p : Port) (frame : List Byte) : Port :=
  { p with txq := p.txq.drop frame.length, wire := p.wire ++ frame }

end Sys2Proof.Machine
end

