-- ==== Sys2Proof/Machine/Flags.lean ====
section
/-! DEFINITION. Codes as numbers, warning flags and the two status words. -/

namespace Sys2Proof.Machine

/-- The number of a code (60_exceptions.md R200). -/
def Code.byte : Code → BitVec 8
  | .ok => 0x00
  | .noData => 0x01
  | .waiting => 0x02
  | .hint => 0x03
  | .dropped => 0x04
  | .skip => 0x05
  | .accum => 0x06
  | .chunk => 0x07
  | .short => 0x08
  | .transportError => 0x10
  | .deviceErrorPowerCycle => 0x11
  | .deviceErrorBattery => 0x12
  | .malformedFrame => 0x13
  | .handshakeFail => 0x14
  | .extNotEntered => 0x15
  | .cctDivide => 0x16
  | .lcdNotNumeric => 0x17
  | .badOp => 0x20
  | .dead => 0x21
  | .deadEmpty => 0x22
  | .notReady => 0x23
  | .badState => 0x24
  | .noFrame => 0x25
  | .badTemplate => 0x26
  | .noWindow => 0x27
  | .noSummary => 0x28
  | .noLine => 0x29
  | .noXyz => 0x2A
  | .noPayload => 0x2B
  | .badTable => 0x2C

/-- The code of a handshake state (10_state.md R21). -/
def Hs.code : Hs → BitVec 3
  | .disconnected => 0
  | .pcConnected => 1
  | .held => 2
  | .extMode => 3
  | .ready => 4
  | .faulted => 7

/-- The code of a synchronizer phase (10_state.md R36). -/
def UtMode.code : UtMode → BitVec 1
  | .resync => 0
  | .steady => 1

/-- One bit. -/
def bit (b : Bool) : BitVec 1 := BitVec.ofBool b

/-- `CL.alive` (10_state.md R23). -/
def Cl.alive (c : Cl) : Bool := decide (c.hs ≠ .faulted)

/-- `CL.warn` as four bits (10_state.md R24). -/
def ClWarn.bits (w : ClWarn) : BitVec 4 := bit w.overrun ++ bit w.hsLenient ++ bit w.lowLum ++ bit w.range

/-- `UT.warn` as two bits (10_state.md R44). -/
def UtWarn.bits (w : UtWarn) : BitVec 2 := bit w.malformed ++ bit w.lowBat

/-- The status word of `CL`, from bit 31 down (42_cl_sequencer.md R152; log 25). -/
def Cl.statusWord (c : Cl) : StatusWord :=
  c.status.byte ++ (0 : BitVec 4) ++ BitVec.ofNat 2 c.extTry ++ BitVec.ofNat 2 c.pcTry ++ c.fault.byte ++
    c.warn.bits ++ bit c.alive ++ c.hs.code

/-- The status word of `UT`, from bit 31 down (44_ut_lcd.md R193; log 25). -/
def Ut.statusWord (u : Ut) : StatusWord :=
  u.status.byte ++ (0 : BitVec 4) ++ BitVec.ofNat 4 u.idle ++ u.fault.byte ++ bit u.svalid ++ bit u.pvalid ++
    u.warn.bits ++ bit u.malformed ++ bit u.hint ++ bit u.dead ++ u.mode.code

/-- Checks (2) and (3): offset 6 sets `W_RANGE` or `W_LOWLUM` (41_cl_parser.md R121). -/
def ClWarn.ofErr (w : ClWarn) (e : Byte) : ClWarn :=
  { w with range := w.range || decide (e = ch5), lowLum := w.lowLum || decide (e = ch6) }

/-- `W_RANGE <- 0; W_LOWLUM <- 0` (10_state.md R24). -/
def Cl.clearRangeWarnings (c : Cl) : Cl := { c with warn := { c.warn with range := false, lowLum := false } }

end Sys2Proof.Machine
end

