-- ==== Sys2Proof/Machine/ClFramer.lean ====
section
/-! DEFINITION. The CL-200A framer (40_cl_framer.md). -/

namespace Sys2Proof.Machine

open Host

/-- The template of a command is well formed under the straps. -/
def templateOk (p : Straps) (i : CmdId) : Bool := Template.wf (p.cmdTable.get i)

/-- `CL.RENDER c` (R102). -/
def execClRender (i : CmdId) (s : State) : Outcome State Fault Refusal :=
  s.clPure [(templateOk s.straps i, .badTemplate)] fun c => (c.loadFrame s.straps i).setStatus .ok

/-- The fields of the frame in `CL.txbuf` by the widths of a template: the parts from offset 1 on (R105). -/
def Cl.fieldsBy (t : Template) (c : Cl) : List (List Byte) :=
  splitWidths (t.map Field.width) (c.txbuf.toList.drop 1)

/-- The assignments of R105: the first `k` of the eight field registers, and their number. -/
def Cl.unframe (t : Template) (c : Cl) : Cl :=
  c.setRes { c.res with
    fld := Vector.ofFn fun k =>
      if k.val < t.length then (c.fieldsBy t).getD k.val [] else c.res.fld.toList.getD k.val []
    nfld := t.length }

/-- `CL.UNFRAME c` (R105). -/
def execClUnframe (i : CmdId) (s : State) : Outcome State Fault Refusal :=
  s.clPure [(decide (s.cl.txlen ≠ 0), .noFrame), (templateOk s.straps i, .badTemplate)] fun c =>
    (c.unframe (s.straps.cmdTable.get i)).setStatus .ok

/-- The buffer `CL.CKVAL` validates (R107). -/
def Cl.selected (b : BufSel) (c : Cl) : List Byte :=
  match b with
  | .txbuf => c.txbuf.toList
  | .rxline => c.line

/-- The refusal of `CL.CKVAL` for each selector (R107). -/
def Cl.selectedPre (b : BufSel) (c : Cl) : Bool × Code :=
  match b with
  | .txbuf => (decide (c.txlen ≠ 0), .noFrame)
  | .rxline => (decide (c.rxstat ≠ .none), .noLine)

/-- `CL.CKVAL s` (R107). -/
def execClCkval (b : BufSel) (s : State) : Outcome State Fault Refusal :=
  s.clPure [s.cl.selectedPre b] fun c =>
    (c.setRes { c.res with ckok := wellframed s.straps.ck (c.selected b) }).setStatus .ok

/-- `CL.FLUSH` (R109). -/
def execClFlush (s : State) : Outcome State Fault Refusal :=
  s.clOp [] (Cl.raise false) fun c => c.flush.bind fun c => .done (c.setStatus .ok)

/-- `CL.SEND cls` (R110). -/
def execClSend (k : SettleClass) (s : State) : Outcome State Fault Refusal :=
  s.clOp [(decide (s.cl.txlen ≠ 0), .noFrame)] (Cl.raise false) fun c =>
    (c.transmit k).bind fun c => .done (c.setStatus .ok)

/-- The last assignment of R112. -/
def Cl.rxStatus (c : Cl) : Cl := c.setStatus (if c.rxstat = .empty then .noData else .ok)

/-- `CL.RXLINE` (R112). -/
def execClRxline (s : State) : Outcome State Fault Refusal :=
  s.clOp [] (Cl.raise false) fun c => (c.rxlineOp s.straps).bind fun c => .done c.rxStatus

end Sys2Proof.Machine
end

