-- ==== Sys2Proof/Machine/ClParser.lean ====
section
/-! DEFINITION. The CL-200A fixed-offset parser (41_cl_parser.md). -/

namespace Sys2Proof.Machine

open Host

/-- "refused with `NoLine` if `CL.rxstat = None`" (R120). -/
def Cl.linePre (c : Cl) : Bool × Code := (decide (c.rxstat ≠ .none), .noLine)

/-- `'1'`, `'2'` or `'3'` (30_encoding.md R77). -/
def isFatalErr (e : Byte) : Bool := decide (e = ch1) || decide (e = ch2) || decide (e = ch3)

/-- Check (4) of R121, on the channel that has set its warnings. -/
def Cl.checkBattery (c : Cl) : Res Cl :=
  if c.rxlen < 9 then .raised .malformedFrame c
  else if byteAt c.line 8 = ch1 then .raised .deviceErrorBattery c
  else .done c

/-- `check()`: R121 from its line "if n < 7". -/
def Cl.check (c : Cl) : Res Cl :=
  if c.rxlen < 7 then .raised .malformedFrame c
  else if isFatalErr (byteAt c.line 6) then .raised .deviceErrorPowerCycle c
  else Cl.checkBattery { c with warn := c.warn.ofErr (byteAt c.line 6) }

/-- `CL.CHECK` (R121). -/
def execClCheck (s : State) : Outcome State Fault Refusal :=
  s.clOp [s.cl.linePre] (Cl.raise false) fun c =>
    let c := c.clearRangeWarnings
    if c.rxlen = 0 then .done (c.setStatus .noData)
    else c.check.bind fun c => .done (c.setStatus .ok)

/-- The value registers of R124 from the sign, the mantissa and the exponent digit. -/
def ClResults.withPrimary (tie : RoundTie) (neg : Bool) (m d : Nat) (r : ClResults) : ClResults :=
  { r with sign := neg, mant := m, expd := d, v4 := primaryValue neg m d
           v3 := round3 tie (primaryValue neg m d) }

/-- `pval()`: R124. -/
def Cl.pval (tie : RoundTie) (c : Cl) : Res Cl :=
  if c.rxlen < 15 then .raised .malformedFrame c
  else match dec4 (slice c.line 10 14), dig (byteAt c.line 14) with
    | some m, some d => .done (c.setRes (c.res.withPrimary tie (decide (byteAt c.line 9 ≠ chPlus)) m d))
    | _, _ => .raised .malformedFrame c

/-- `CL.PVAL` (R124). -/
def execClPval (s : State) : Outcome State Fault Refusal :=
  s.clOp [s.cl.linePre] (Cl.raise false) fun c =>
    (c.pval s.straps.roundTie).bind fun c => .done (c.setStatus .ok)

/-- `psec()`: R127. -/
def Cl.psec (c : Cl) : Res Cl :=
  if c.rxlen < 26 then .raised .malformedFrame c
  else match dec4 (slice c.line 16 20), dec4 (slice c.line 22 26) with
    | some a, some b => .done (c.setRes { c.res with s1 := a, s2 := b })
    | _, _ => .raised .malformedFrame c

/-- `CL.PSEC` (R127). -/
def execClPsec (s : State) : Outcome State Fault Refusal :=
  s.clOp [s.cl.linePre] (Cl.raise false) fun c => c.psec.bind fun c => .done (c.setStatus .ok)

/-- The body of R130. -/
def Cl.computeCct (c : Cl) : Res Cl :=
  match cctOf c.res.xyz.1 c.res.xyz.2.1 c.res.xyz.2.2 with
  | some v => .done (c.setRes { c.res with cct := v })
  | none => .raised .cctDivide c

/-- `CL.CCT` (R130). -/
def execClCct (s : State) : Outcome State Fault Refusal :=
  s.clOp [(s.cl.res.xyzv, .noXyz)] (Cl.raise false) fun c => c.computeCct.bind fun c => .done (c.setStatus .ok)

end Sys2Proof.Machine
end

