-- ==== Sys2Proof/Machine/ClSequencer.lean ====
section
/-! DEFINITION. The CL-200A sequencer: handshake, measurement cycle, status (42_cl_sequencer.md). -/

namespace Sys2Proof.Machine

open Host

/-! ### The handshake (R140 to R146) -/

/-- One attempt of `command_54`, up to the line it reads (R141). -/
def Cl.attempt54 (p : Straps) (c : Cl) : Res Cl :=
  (Cl.flush { c with pcTry := c.pcTry + 1 }).bind fun c => (c.send p .c54).bind fun c => c.rxlineOp p

/-- `exhausted54()`, then `PCConnected` where it continues (R142). -/
def Cl.exhausted54 (p : Straps) (c : Cl) : Res Cl :=
  if p.hsStrict then .raised .handshakeFail c
  else .done (Cl.setHs { c with warn := { c.warn with hsLenient := true } } .pcConnected)

/-- Step 1 with a number of attempts left (R141). -/
def Cl.step1 (p : Straps) : Nat → Cl → Res Cl
  | 0, c => c.exhausted54 p
  | left + 1, c => (c.attempt54 p).bind fun c =>
    if p.ack54.accepts c.line then .done (c.setHs .pcConnected) else Cl.step1 p left c

/-- `hold()` (R143). -/
def Cl.hold (p : Straps) (c : Cl) : Res Cl :=
  c.flush.bind fun c => (c.send p .c55).bind fun c => .done (c.setHs .held)

/-- One attempt of `command_40`, up to the line it reads (R144). -/
def Cl.attempt40 (p : Straps) (c : Cl) : Res Cl :=
  (Cl.flush { c with extTry := c.extTry + 1 }).bind fun c => (c.send p .c40).bind fun c =>
    (c.setHs .extMode).rxlineOp p

/-- The classification of the response to `command_40` (R144); `on4` is what `'4'` leads to. -/
def Cl.classify40 (on4 : Cl → Res Cl) (c : Cl) : Res Cl :=
  if c.rxlen < 7 then .raised .malformedFrame c
  else if byteAt c.line 6 = ch4 then on4 c
  else if isFatalErr (byteAt c.line 6) then .raised .deviceErrorPowerCycle c
  else .done (c.setHs .ready)

/-- `CL.hs <- Held; exhausted40()` (R144, R145). -/
def Cl.exhausted40 (p : Straps) (c : Cl) : Res Cl :=
  match p.extExhaust with
  | .fault => .raised .extNotEntered (c.setHs .held)
  | .ready => .done (c.setHs .ready)

/-- Step 3 with a number of attempts left after this one (R144, R145). -/
def Cl.step3 (p : Straps) : Nat → Cl → Res Cl
  | 0, c => (c.attempt40 p).bind (Cl.classify40 (Cl.exhausted40 p))
  | left + 1, c => (c.attempt40 p).bind (Cl.classify40 fun c => (c.hold p).bind (Cl.step3 p left))

/-- The first assignments of R140. -/
def Cl.initStart (c : Cl) : Cl := { c with pcTry := 0, extTry := 0, warn := { c.warn with hsLenient := false } }

/-- The body of R140. -/
def Cl.handshake (p : Straps) (c : Cl) : Res Cl :=
  (Cl.step1 p p.pcAttempts c.initStart).bind fun c => (c.hold p).bind fun c =>
    (Cl.step3 p (p.extAttempts - 1) c).bind fun c => .done (c.setStatus .ok)

/-- `CL.INIT` (R140). Every fault raised inside it is fatal (R146). -/
def execClInit (s : State) : Outcome State Fault Refusal :=
  s.clOp
    [(decide (s.cl.hs = .disconnected), .badState),
     (templateOk s.straps .c54 && templateOk s.straps .c55 && templateOk s.straps .c40, .badTemplate)]
    (Cl.raise true) fun c => c.handshake s.straps

/-! ### The measurement cycle (R147 to R150) -/

/-- `CL.nres <- 0`. -/
def Cl.clearNres (c : Cl) : Cl := c.setRes { c.res with nres := 0 }

/-- `NoData` of `CL.MEAS`: the result registers are unspecified but `CL.nres = 0` (R149 (d); log 15). -/
def Cl.measNoData (c : Cl) : Cl := (c.loseResults.clearNres).setStatus .noData

/-- The last assignments of R147. -/
def Cl.deliver (i : CmdId) (c : Cl) : Cl :=
  let r := { c.res with nres := if i = .c02 then 1 else 3 }
  (c.setRes
    (if i = .c01 then
      { r with xyz := ((r.v3 : Rat) / 1000, (r.s1 : Rat) / 10, (r.s2 : Rat) / 10), xyzv := true }
     else r)).setStatus .ok

/-- What R147 does with the line it has read. -/
def Cl.measParse (p : Straps) (i : CmdId) (c : Cl) : Res Cl :=
  if c.rxlen = 0 then .done c.measNoData
  else c.check.bind fun c => (c.pval p.roundTie).bind fun c =>
    (if i = .c02 then .done c else c.psec).bind fun c => .done (c.deliver i)

/-- The body of R147. -/
def Cl.measure (p : Straps) (i : CmdId) (c : Cl) : Res Cl :=
  (c.clearRangeWarnings.clearNres).flush.bind fun c => (c.send p .c40r).bind fun c => (c.send p i).bind fun c =>
    (c.rxlineOp p).bind fun c => c.measParse p i

/-- A fault of `CL.MEAS`: a malformed response leaves `CL.nres = 0` (R149 (e)), and so does a device error
(95_test_vectors.md P5); after a link error it is unspecified like the rest (10_state.md R27; log 13). -/
def Cl.measRaise (x : Code) (c : Cl) : Cl :=
  if x = .transportError then c.raise false x else (c.raise false x).clearNres

/-- `CL.MEAS c` (R147). -/
def execClMeas (i : CmdId) (s : State) : Outcome State Fault Refusal :=
  if i.isRead then
    s.clOp
      [(decide (s.cl.hs = .ready), .notReady), (templateOk s.straps .c40r && templateOk s.straps i, .badTemplate)]
      Cl.measRaise fun c => c.measure s.straps i
  else .next (s.setCl (s.cl.setStatus .badOp))

/-! ### The status query (R152) -/

/-- `CL.STATUS` (R152): it writes no state of the engine; the word is delivered to the host (log 10). -/
def execClStatus (s : State) : Outcome State Fault Refusal :=
  .next (s.setCl { s.cl with out := s.cl.out ++ [s.cl.statusWord] })

end Sys2Proof.Machine
end

