-- ==== Sys2Proof/Machine/UtFrame.lean ====
section
/-! DEFINITION. UT382 frame acquisition, raw decoding and resynchronizer (43_ut_frame.md). -/

namespace Sys2Proof.Machine

open Host

/-- A received byte joins the chunk: stored below 33, counted up to 34 (10_state.md R38). -/
def Ut.storeRaw (b : Byte) (u : Ut) : Ut :=
  { u with raw := if u.rawcnt < 33 then u.raw.setIfInBounds u.rawcnt b else u.raw
           rawcnt := min (u.rawcnt + 1) 34 }

/-- "the previous chunk was handed over" (R161). -/
def Ut.listenStart (u : Ut) : Ut := if u.closed then { u with rawcnt := 0, closed := false } else u

/-- The `Timeout` case of R161. -/
def Ut.listenTimeout (waitLimit : Nat) (u : Ut) : Ut :=
  if 0 < u.rawcnt then { u.setStatus .chunk with closed := true }
  else if u.idle < waitLimit then { u.setStatus .waiting with idle := u.idle + 1 }
  else { u.setStatus .hint with hint := true }

/-- The `Byte(b)` case of R161. -/
def Ut.listenByte (b : Byte) (u : Ut) : Ut := { (u.storeRaw b).setStatus .accum with idle := 0, hint := false }

/-- `listen()`: R161. -/
def Ut.listen (p : Straps) (u : Ut) : Res Ut :=
  match u.listenStart.port.rxNext .scan with
  | (.linkErr, q) => .raised .transportError (u.listenStart.setPort q)
  | (.never, q) => .stuck (u.listenStart.setPort q)
  | (.byte b, q) => .done ((u.listenStart.setPort q).listenByte b)
  | (.timeout, q) => .done ((u.listenStart.setPort q).listenTimeout p.waitLimit)

/-- `UT.LISTEN` (R161). -/
def execUtListen (s : State) : Outcome State Fault Refusal := s.utOp [] fun u => u.listen s.straps

/-- The read loop of R163, with a number of bytes left to read. -/
def Ut.readLoop : Nat → Ut → Res Ut
  | 0, u => .done u
  | left + 1, u =>
    match u.port.rxNext .lock with
    | (.linkErr, q) => .raised .transportError (u.setPort q)
    | (.never, q) => .stuck (u.setPort q)
    | (.timeout, q) => .done (u.setPort q)
    | (.byte b, q) => Ut.readLoop left ((u.setPort q).storeRaw b)

/-- The last assignments of R163. -/
def Ut.readEnd (u : Ut) : Ut := { u.setStatus (if u.rawcnt = 33 then .ok else .short) with closed := true }

/-- `read33()`: R163; it "does not touch `UT.idle` or `UT.hint`" (log 34). -/
def Ut.read33 (u : Ut) : Res Ut :=
  (Ut.readLoop 33 { u with rawcnt := 0, closed := false }).bind fun u => .done u.readEnd

/-- `UT.READ33` (R163). -/
def execUtRead33 (s : State) : Outcome State Fault Refusal := s.utOp [] Ut.read33

/-- `decraw()`: R164. -/
def Ut.decraw (u : Ut) : Ut :=
  { u.setStatus .ok with
    malformed := weird u.raw.toList u.rawcnt
    payload := payloadOf u.raw.toList u.rawcnt
    pvalid := decide (30 ≤ u.rawcnt)
    svalid := false }

/-- `UT.DECRAW` (R164). -/
def execUtDecraw (s : State) : Outcome State Fault Refusal := s.utPure [] Ut.decraw

/-- The byte scan of R168: `listen()` while it answers `Accum`. `fuel` exceeds the bytes that can come before an
endless stream, so that it runs out only where bytes never stop, and the scan does not end (R177 (d)). -/
def Ut.scan (p : Straps) : Nat → Ut → Res Ut
  | 0, u => .stuck u
  | fuel + 1, u => (u.listen p).bind fun u => if u.status = .accum then Ut.scan p fuel u else .done u

/-- What both phases of R168 do after `decraw()`: a good frame locks, a malformed one is dropped. -/
def Ut.acceptFrame (u : Ut) : Ut :=
  if u.malformed then { u.setStatus .dropped with mode := .resync, warn := { u.warn with malformed := true } }
  else { u.setStatus .ok with mode := .steady, warn := { u.warn with malformed := false } }

/-- `sync()`: R168. An end with `Waiting` or `Hint` comes before the flag is written (log 34). -/
def Ut.sync (p : Straps) (u : Ut) : Res Ut :=
  match u.mode with
  | .resync => (Ut.scan p (u.port.supply + 1) u).bind fun u =>
    if u.status = .chunk then .done u.decraw.acceptFrame else .done u
  | .steady => u.read33.bind fun u => .done u.decraw.acceptFrame

/-- `UT.SYNC` (R168). -/
def execUtSync (s : State) : Outcome State Fault Refusal := s.utOp [] fun u => u.sync s.straps

end Sys2Proof.Machine
end

