-- ==== Sys2Proof/Machine/UtLcd.lean ====
section
/-! DEFINITION. UT382 segment decoder, monitor filter and window average (44_ut_lcd.md). -/

namespace Sys2Proof.Machine

open Host

/-- The assignments of R180. -/
def Ut.summarized (p : Straps) (u : Ut) : Ut :=
  { u.setStatus .ok with summary := summarize p.lcdTable u.payload.toList, svalid := true }

/-- `UT.SUMMARY` (R180). -/
def execUtSummary (s : State) : Outcome State Fault Refusal :=
  s.utPure [(s.ut.pvalid, .noPayload), (LcdTable.wf s.straps.lcdTable, .badTable)] fun u => u.summarized s.straps

/-- `lux()`: R182. -/
def Ut.lux (u : Ut) : Res Ut :=
  match Summary.reading u.summary with
  | some r => .done { u.setStatus .ok with reading := r }
  | none => .raised .lcdNotNumeric u

/-- `UT.LUX` (R182). -/
def execUtLux (s : State) : Outcome State Fault Refusal := s.utOp [(s.ut.svalid, .noSummary)] Ut.lux

/-- What R186 does with a good frame. -/
def Ut.monFrame (u : Ut) : Res Ut :=
  let u := { u with warn := { u.warn with lowBat := Summary.has u.summary .lowbat } }
  if Summary.has u.summary .menu then .done (u.setStatus .skip) else u.lux

/-- `mon()`: R186, under a well-formed table. -/
def Ut.mon (p : Straps) (u : Ut) : Res Ut :=
  (u.sync p).bind fun u => if u.status ≠ .ok then .done u else (u.summarized p).monFrame

/-- `UT.MON` (R186). The refusal of its `summary()` comes "before everything" (R180, 60_exceptions.md R211; log
21). -/
def execUtMon (s : State) : Outcome State Fault Refusal :=
  s.utOp [(LcdTable.wf s.straps.lcdTable, .badTable)] fun u => u.mon s.straps

/-- `W = UT.dur × UT_RATE_HZ` (R189). -/
def Ut.window (p : Straps) (u : Ut) : Nat := u.dur.toNat * p.utRateHz

/-- One reading joins the window (R189). -/
def Ut.addReading (p : Straps) (n : Nat) (e : Int) (u : Ut) : Ut :=
  let sum := u.wsum + n * 10 ^ (e + 6).toNat
  if u.wcnt + 1 = u.window p then { u.setStatus .ok with avg := (sum, u.window p), wsum := 0, wcnt := 0 }
  else { u.setStatus .accum with wsum := sum, wcnt := u.wcnt + 1 }

/-- What R189 does with a reading. -/
def Ut.accumulate (p : Straps) (u : Ut) : Ut :=
  match u.reading.lux with
  | none => u.setStatus .accum
  | some (n, e) => u.addReading p n e

/-- The body of R189. -/
def Ut.average (p : Straps) (u : Ut) : Res Ut :=
  (u.mon p).bind fun u => if u.status ≠ .ok then .done u else .done (u.accumulate p)

/-- `UT.AVG` (R189), with the refusals of R211's order: its own, then that of its `summary()` (log 21). -/
def execUtAvg (s : State) : Outcome State Fault Refusal :=
  s.utOp [(decide (s.ut.dur ≠ 0), .noWindow), (LcdTable.wf s.straps.lcdTable, .badTable)] fun u => u.average s.straps

/-- The assignments of R192. -/
def Ut.started (d : BitVec 8) (u : Ut) : Ut :=
  { u.setStatus .ok with
    mode := .resync
    rawcnt := 0
    closed := false
    idle := 0
    hint := false
    pvalid := false
    svalid := false
    malformed := false
    warn := ⟨false, false⟩
    dur := d
    wsum := 0
    wcnt := 0 }

/-- `UT.START d` (R192). -/
def execUtStart (d : BitVec 8) (s : State) : Outcome State Fault Refusal := s.utPure [] fun u => u.started d

/-- `UT.STATUS` (R193): it writes no state of the engine; the word is delivered to the host (log 10). -/
def execUtStatus (s : State) : Outcome State Fault Refusal :=
  .next (s.setUt { s.ut with out := s.ut.out ++ [s.ut.statusWord] })

end Sys2Proof.Machine
end

