-- ==== Sys2Proof/Machine/Wire.lean ====
section
/-! DEFINITION. The wire commands (30_encoding.md R80): "data the engine emits, not instructions it executes"
(00_scope.md R13). Carrying one out is the line's move of 20_memory.md R57: the frame's bytes leave the head of
`CL.txq` for the wire. What the instrument then does is under no law (R57, 93_implementation_defined.md U22). -/

namespace Sys2Proof.Machine

open Host

/-- The frame of a command is at the head of the transmit queue. -/
def State.frameQueued (s : State) (i : CmdId) : Bool :=
  templateOk s.straps i && (cmdFrame s.straps i).isPrefixOf s.cl.port.txq

/-- The line carries the frame of a command (log 11). -/
def State.carry (s : State) (i : CmdId) : Outcome State Fault Refusal :=
  if s.frameQueued i then .next (s.setCl (s.cl.setPort (s.cl.port.takeFrame (cmdFrame s.straps i))))
  else .refused .frameNotQueued

/-- `command_01`, read XYZ. -/
def execCommand01 (s : State) : Outcome State Fault Refusal := s.carry .c01
/-- `command_02`, read lux. -/
def execCommand02 (s : State) : Outcome State Fault Refusal := s.carry .c02
/-- `command_08`, read EV/TCP/Δuv. -/
def execCommand08 (s : State) : Outcome State Fault Refusal := s.carry .c08
/-- `command_40`, EXT mode. -/
def execCommand40 (s : State) : Outcome State Fault Refusal := s.carry .c40
/-- `command_40r`, EXT trigger. -/
def execCommand40r (s : State) : Outcome State Fault Refusal := s.carry .c40r
/-- `command_54`, PC-connect. -/
def execCommand54 (s : State) : Outcome State Fault Refusal := s.carry .c54
/-- `command_54r`, PC-connect, second form. -/
def execCommand54r (s : State) : Outcome State Fault Refusal := s.carry .c54r
/-- `command_55`, hold. -/
def execCommand55 (s : State) : Outcome State Fault Refusal := s.carry .c55

end Sys2Proof.Machine
end

