-- ==== Sys2Proof/Machine/Dispatch.lean ====
section
/-! DEFINITION. One arm per instruction, each a direct call of its meaning. -/

namespace Sys2Proof.Machine

open Host

def exec (i : Instr) (s : State) : Host.Outcome State Fault Refusal :=
  match i with
  | .clRender c => Sys2Proof.Machine.execClRender c s
  | .clUnframe c => Sys2Proof.Machine.execClUnframe c s
  | .clCkval b => Sys2Proof.Machine.execClCkval b s
  | .clFlush => Sys2Proof.Machine.execClFlush s
  | .clSend k => Sys2Proof.Machine.execClSend k s
  | .clRxline => Sys2Proof.Machine.execClRxline s
  | .clCheck => Sys2Proof.Machine.execClCheck s
  | .clPval => Sys2Proof.Machine.execClPval s
  | .clPsec => Sys2Proof.Machine.execClPsec s
  | .clCct => Sys2Proof.Machine.execClCct s
  | .clInit => Sys2Proof.Machine.execClInit s
  | .clMeas c => Sys2Proof.Machine.execClMeas c s
  | .clStatus => Sys2Proof.Machine.execClStatus s
  | .utListen => Sys2Proof.Machine.execUtListen s
  | .utRead33 => Sys2Proof.Machine.execUtRead33 s
  | .utDecraw => Sys2Proof.Machine.execUtDecraw s
  | .utSync => Sys2Proof.Machine.execUtSync s
  | .utSummary => Sys2Proof.Machine.execUtSummary s
  | .utLux => Sys2Proof.Machine.execUtLux s
  | .utMon => Sys2Proof.Machine.execUtMon s
  | .utAvg => Sys2Proof.Machine.execUtAvg s
  | .utStatus => Sys2Proof.Machine.execUtStatus s
  | .utStart d => Sys2Proof.Machine.execUtStart d s
  | .command01 => Sys2Proof.Machine.execCommand01 s
  | .command02 => Sys2Proof.Machine.execCommand02 s
  | .command08 => Sys2Proof.Machine.execCommand08 s
  | .command40 => Sys2Proof.Machine.execCommand40 s
  | .command40r => Sys2Proof.Machine.execCommand40r s
  | .command54 => Sys2Proof.Machine.execCommand54 s
  | .command54r => Sys2Proof.Machine.execCommand54r s
  | .command55 => Sys2Proof.Machine.execCommand55 s

end Sys2Proof.Machine
end

