-- ==== Sys2Proof/Machine/Fetch.lean ====
section
/-! DEFINITION. Fetching: the engine executes no stored program (00_scope.md R1); what runs next stands at the head
of the agenda (log 9). A host word is decoded as it is issued; a command frame is decoded where it lies, at the
head of the `CL` transmit queue (30_encoding.md R70). -/

namespace Sys2Proof.Machine

open Host

/-- A channel is inside an operation that does not end (log 5). -/
def State.busyOn (s : State) (ch : Channel) : Bool :=
  match ch with
  | .cl => s.cl.busy
  | .ut => s.ut.busy

/-- An operation begins, on a channel whose previous one has ended (70_reset_and_hazards.md R243; log 30). -/
def State.start (s : State) (i : Instr) : Outcome State Fault Refusal :=
  match i.channel with
  | some ch => if s.busyOn ch then .fault (.busy ch) else exec i s
  | none => exec i s

/-- A host word is issued: a legal one is executed, an illegal one refused with `BadOp` (30_encoding.md R96). An illegal
word is refused on a busy channel too: it is no operation, so it is not what R243 of 70_reset_and_hazards.md leaves outside
the model. DESIGN CHOICE (log 30). -/
def State.issue (s : State) (w : HostWord) : Outcome State Fault Refusal :=
  match decodeHost w with
  | .ok i => s.start i
  | .error _ => .next (s.refuseIllegal (channelOf w))

/-- The fourteen bytes at the head of the transmit queue. -/
def State.headFrame (s : State) : List Byte := s.cl.port.txq.take 14

/-- The line takes the command frame at the head of the transmit queue (log 11). -/
def State.takeHeadFrame (s : State) : Outcome State Fault Refusal :=
  match decodeWire s.straps.ck s.straps.cmdTable s.headFrame with
  | .ok i => exec i s
  | .error _ => .refused .frameNotQueued

/-- One action of the host or the line. -/
def State.act (s : State) (a : Action) : Outcome State Fault Refusal :=
  match a with
  | .host w => s.issue w
  | .reset => .next s.assertReset
  | .line ch m => .next (s.lineMove ch m)
  | .wireFrame => s.takeHeadFrame

/-- A host word placed at the head of the agenda. -/
def State.placeHost (s : State) (w : HostWord) : State := s.setAgenda (.host w :: s.agenda)

/-- A frame placed at the head of the transmit queue, with the table the opcode table's rows are read under, and
the line about to take it (log 12). -/
def State.placeFrame (s : State) (bs : List Byte) : State where
  straps := { s.straps with ck := .mod100, cmdTable := cmdTableRef }
  cl := s.cl.setPort { s.cl.port with txq := bs ++ s.cl.port.txq }
  ut := s.ut
  agenda := .wireFrame :: s.agenda

end Sys2Proof.Machine
end

