-- ==== Sys2Proof/Machine/Step.lean ====
section
/-! DEFINITION. One step: the next action of the agenda; with none, the engine waits (70_reset_and_hazards.md
R230). -/

namespace Sys2Proof.Machine

open Host

/-- One step of the machine. -/
def step (s : State) : Host.Outcome State Fault Refusal :=
  match s.agenda with
  | [] => .next s
  | a :: rest => (s.setAgenda rest).act a

/-- The machine about to run the instruction of the opcode table whose bits are `w` (log 9, 12). -/
def State.withFetchWord (s : State) (nbits w : Nat) : State :=
  match tableWord nbits w with
  | some (.host h) => s.placeHost h
  | some (.wire bs) => s.placeFrame bs
  | none => s

end Sys2Proof.Machine
end

