-- ==== Sys2Proof/Safety.lean ====
section
/-! DEFINITION. What the statements speak of: well-formed states (the ranges 10_state.md gives every register), a
line that answers, line scripts, and the parts of a state an instruction leaves alone. -/

namespace Sys2Proof

/-- The bounds 00_scope.md R8 puts on the parameters, and the two positive counts its rules need (log 28). -/
abbrev Straps.Wf (p : Straps) : Prop := 27 ≤ p.rxlineCap ∧ 1 ≤ p.extAttempts ∧ 1 ≤ p.utRateHz

/-- The last reading of `UT` (R42). -/
abbrev Reading.Wf (r : Reading) : Prop := ∀ v ∈ r.lux, v.1 ≤ 9999 ∧ -6 ≤ v.2 ∧ v.2 ≤ 1

/-- The operations that read a response line, and end "provided the line does not deliver bytes without `LF` for ever"
(70_reset_and_hazards.md R246). -/
abbrev Instr.ReadsLine (i : Instr) : Prop := i = .clRxline ∨ i = .clInit ∨ ∃ c, i = .clMeas c

/-- The operations that scan in the resync phase, and end there "provided the byte stream eventually pauses"
(70_reset_and_hazards.md R246). -/
abbrev Instr.Scans (i : Instr) : Prop := i = .utSync ∨ i = .utMon ∨ i = .utAvg

/-- The exact fields of a well-formed raw frame (30_encoding.md R78): the inverse of the payload assembly, with
any trailing byte. -/
def rawFrameOf (payload : List Byte) (last : Byte) : List Byte :=
  (payload.flatMap fun b => [(0x30 : Byte) ||| (b &&& 0x0F), (0x30 : Byte) ||| (b >>> 4)]) ++ [cr, lf, last]

/-- A 33-byte block that keeps every rule of 30_encoding.md R78. -/
abbrev WellFormedRaw (l : List Byte) : Prop :=
  l.length = 33 ∧ (∀ i < 30, hiNibble (byteAt l i) = 3) ∧ byteAt l 30 = cr ∧ byteAt l 31 = lf

end Sys2Proof

namespace Sys2Proof.Machine

open Host

/-! ### Ranges (10_state.md R21 to R45) -/

/-- The buffers of `CL` (R25, R26). -/
abbrev Cl.BuffersWf (p : Straps) (c : Cl) : Prop :=
  c.rxline.length = p.rxlineCap ∧ c.rxlen ≤ p.rxlineCap ∧ (c.txlen = 0 ∨ c.txlen = 14) ∧
    (c.rxstat = .empty → c.rxlen = 0) ∧ (c.rxstat = .line ∨ c.rxstat = .partialLine → 0 < c.rxlen)

/-- The result registers of `CL` (R27). -/
abbrev ClResults.Wf (r : ClResults) : Prop :=
  r.mant ≤ 9999 ∧ r.expd ≤ 9 ∧ r.v4.natAbs ≤ 9999 * 10 ^ 9 ∧ r.v3.natAbs ≤ 9999 * 10 ^ 8 ∧ r.s1 ≤ 9999 ∧
    r.s2 ≤ 9999 ∧ (r.nres = 0 ∨ r.nres = 1 ∨ r.nres = 3) ∧ r.nfld ≤ 8

/-- Between operations `CL` is disconnected, ready or faulted (42_cl_sequencer.md R153); it holds a fault code
exactly when it is faulted, a fatal one (R22). -/
abbrev Cl.HandshakeWf (c : Cl) : Prop :=
  (c.busy = false → c.hs = .disconnected ∨ c.hs = .ready ∨ c.hs = .faulted) ∧ (c.fault = .ok ↔ c.hs ≠ .faulted) ∧
    (c.fault ≠ .ok → c.fault.fatal true = true)

/-- The counters and warnings of `CL` (R24, R28, 60_exceptions.md R213). -/
abbrev Cl.CountersWf (p : Straps) (c : Cl) : Prop :=
  c.pcTry ≤ p.pcAttempts ∧ c.extTry ≤ p.extAttempts ∧ ¬ (c.warn.range = true ∧ c.warn.lowLum = true)

/-- Channel `CL` is in range. -/
abbrev Cl.Wf (p : Straps) (c : Cl) : Prop :=
  c.BuffersWf p ∧ c.res.Wf ∧ c.HandshakeWf ∧ c.CountersWf p

/-- The chunk and scan registers of `UT` (R38, R40). -/
abbrev Ut.ScanWf (p : Straps) (u : Ut) : Prop :=
  u.rawcnt ≤ 34 ∧ u.idle ≤ p.waitLimit ∧ (u.hint = true → u.idle = p.waitLimit)

/-- The averaging window of `UT` (R43): below its size, and the sum bounded by the count. -/
abbrev Ut.WindowWf (p : Straps) (u : Ut) : Prop :=
  (u.wcnt = 0 ∨ u.wcnt < u.window p) ∧ u.wsum ≤ u.wcnt * (9999 * 10 ^ 7)

/-- The dead state and the transmit queue of `UT` (R37, 20_memory.md R52: it "never transmits, so `UT.txq` stays
empty"). -/
abbrev Ut.LinkWf (u : Ut) : Prop :=
  (u.dead = true ↔ u.fault = .transportError) ∧ (u.fault = .ok ∨ u.fault = .transportError) ∧
    u.port.txq = [] ∧ u.port.wire = []

/-- `svalid` says the summary was computed from the current payload (R41). -/
abbrev Ut.SummaryWf (p : Straps) (u : Ut) : Prop :=
  u.svalid = true → u.pvalid = true ∧ u.summary = summarize p.lcdTable u.payload.toList

/-- Channel `UT` is in range. -/
abbrev Ut.Wf (p : Straps) (u : Ut) : Prop :=
  u.ScanWf p ∧ u.WindowWf p ∧ u.reading.Wf ∧ u.LinkWf ∧ u.SummaryWf p

/-- The machine is in range. -/
abbrev State.Wf (s : State) : Prop := s.straps.Wf ∧ s.cl.Wf s.straps ∧ s.ut.Wf s.straps

/-! ### Lines -/

/-- A turn that lets its primitive proceed and does not break the link. -/
abbrev Turn.Answers (t : Turn) : Prop := t.answer = .proceed ∧ LineMove.breakLink ∉ t.moves

/-- A line that answers every primitive and never fails: 70_reset_and_hazards.md R246's assumption without
`LinkErr`. -/
abbrev Port.Answers (p : Port) : Prop := p.broken = false ∧ ∀ t ∈ p.turns, t.Answers

/-- A line that answers every primitive and makes no further move. -/
abbrev Port.Silent (p : Port) : Prop := p.broken = false ∧ p.turns = [] ∧ p.stream = []

/-- A line that from now on delivers a byte to every read that waits, for ever (70_reset_and_hazards.md R246). -/
abbrev Port.Endless (p : Port) : Prop := p.turns = [] ∧ p.stream ≠ []

/-- The same, and none of its bytes is `LF`: `CL.RXLINE` does not end (40_cl_framer.md R113 (e)). -/
abbrev Port.EndlessNoLf (p : Port) : Prop := p.Endless ∧ lf ∉ p.stream

/-- The last turn that was taken between two moments of a transport was never answered (70_reset_and_hazards.md
R246). -/
def Port.Unanswered (p q : Port) : Prop :=
  ∃ (used : List Turn) (last : Turn), p.turns = used ++ last :: q.turns ∧ last.answer = .never

/-- A turn in which the line makes no move. -/
def Turn.idle : Turn := ⟨[], .proceed⟩

/-- A turn in which the line delivers bytes. -/
def Turn.deliver (bs : List Byte) : Turn := ⟨bs.map LineMove.deliver, .proceed⟩

/-- A turn answered by `LinkErr`. -/
def Turn.linkErr : Turn := ⟨[], .linkErr⟩

/-- The primitives of one exchange before its read: `Flush`, fourteen `TxByte`, `Settle` (42_cl_sequencer.md
R141, R143, R144). -/
def Turn.send : List Turn := List.replicate 16 Turn.idle

/-- What a response read ends with: a terminated line, the bytes of one that is cut off by a timeout, or none at all
(40_cl_framer.md R112, R113). -/
abbrev IsResponse (l : List Byte) : Prop := lf ∉ l.dropLast

/-- The script of one exchange that is answered by a response: it arrives as the read begins, and the reads of its
later bytes, and of the timeout where no `LF` ends it, are quiet. -/
def Turn.exchange (l : List Byte) : List Turn :=
  Turn.send ++ Turn.deliver l ::
    List.replicate (if l.getLast? = some lf then l.length - 1 else l.length) Turn.idle

/-- The script of a handshake whose responses are given: those of the attempts of step 1, the hold, those of the attempts
of step 3 that are followed by another hold, and the last (42_cl_sequencer.md R141 to R144). -/
def Turn.handshake (l54s fours : List (List Byte)) (l40 : List Byte) : List Turn :=
  l54s.flatMap Turn.exchange ++ Turn.send ++ (fours.flatMap fun l => Turn.exchange l ++ Turn.send) ++
    Turn.exchange l40

/-- The script of a measurement whose response is given: `Flush` and the first frame with its settle; then, as in an
exchange, the second frame with its settle and the read (42_cl_sequencer.md R150). -/
def Turn.measurement (l : List Byte) : List Turn := List.replicate 15 Turn.idle ++ Turn.exchange l

/-- A terminated response line: some bytes that are not `LF`, then `LF` (40_cl_framer.md R112). -/
abbrev IsLine (l : List Byte) : Prop := l ≠ [] ∧ l.getLast? = some lf ∧ lf ∉ l.dropLast

/-! ### Outcomes the statements name -/

/-- What a fault leaves of a channel `CL`: status, and if it is fatal the sticky code and `Faulted`
(60_exceptions.md R208); the result registers are another channel's, so free, but `CL.xyzv`, which only a
measurement sets and only reset clears (10_state.md R27; log 13). -/
def Cl.afterFault (c : Cl) (x : Code) (fatal : Bool) (free : Cl) : Cl :=
  { c with
    status := x
    hs := if fatal then .faulted else c.hs
    fault := if fatal then x else c.fault
    res := { free.res with xyzv := c.res.xyzv }
    free := free.free }

/-- The events of one frame sent by a sequencer (42_cl_sequencer.md, `send`). -/
def Event.sent (p : Straps) (c : CmdId) : List Event := (cmdFrame p c).map Event.tx ++ [.settle c.settleClass]

/-- The events of a response line received (40_cl_framer.md R112). -/
def Event.received (line : List Byte) : List Event := line.map (Event.rx .clRead)

/-- The events of a response received, with the timeout that ends one without `LF` (40_cl_framer.md R112). -/
def Event.response (l : List Byte) : List Event :=
  Event.received l ++ (if l.getLast? = some lf then [] else [.timeout .clRead])

/-- The events of one exchange of the handshake (42_cl_sequencer.md R141, R144). -/
def Event.exchange (p : Straps) (c : CmdId) (l : List Byte) : List Event :=
  .flush :: Event.sent p c ++ Event.response l

/-- The events of `hold()` (42_cl_sequencer.md R143). -/
def Event.hold (p : Straps) : List Event := .flush :: Event.sent p .c55

/-- How a read of a response ends (40_cl_framer.md R112). -/
def RxStat.ofResponse (l : List Byte) : RxStat :=
  if l.getLast? = some lf then .line else if l = [] then .empty else .partialLine

/-- The transport of a channel. -/
def State.portOf (s : State) (ch : Channel) : Port :=
  match ch with
  | .cl => s.cl.port
  | .ut => s.ut.port

/-- The same machine with another transport of a channel. -/
def State.setPortOf (s : State) (ch : Channel) (p : Port) : State :=
  match ch with
  | .cl => s.setCl (s.cl.setPort p)
  | .ut => s.setUt (s.ut.setPort p)

/-- The refusal of a `CL` or `UT` operation's own preconditions, in the order of 60_exceptions.md R211, for a
channel that is not dead. -/
def State.ownRefusal (s : State) : Instr → Option Code
  | .clRender c => if Template.wf (s.straps.cmdTable.get c) then none else some .badTemplate
  | .clUnframe c =>
    if s.cl.txlen = 0 then some .noFrame
    else if Template.wf (s.straps.cmdTable.get c) then none else some .badTemplate
  | .clCkval .txbuf => if s.cl.txlen = 0 then some .noFrame else none
  | .clCkval .rxline => if s.cl.rxstat = .none then some .noLine else none
  | .clFlush => none
  | .clSend _ => if s.cl.txlen = 0 then some .noFrame else none
  | .clRxline => none
  | .clCheck => if s.cl.rxstat = .none then some .noLine else none
  | .clPval => if s.cl.rxstat = .none then some .noLine else none
  | .clPsec => if s.cl.rxstat = .none then some .noLine else none
  | .clCct => if s.cl.res.xyzv then none else some .noXyz
  | .clInit =>
    if s.cl.hs ≠ .disconnected then some .badState
    else if Template.wf (s.straps.cmdTable.get .c54) ∧ Template.wf (s.straps.cmdTable.get .c55) ∧
      Template.wf (s.straps.cmdTable.get .c40) then none else some .badTemplate
  | .clMeas c =>
    if s.cl.hs ≠ .ready then some .notReady
    else if Template.wf (s.straps.cmdTable.get .c40r) ∧ Template.wf (s.straps.cmdTable.get c) then none
    else some .badTemplate
  | .clStatus => none
  | .utListen => none
  | .utRead33 => none
  | .utDecraw => none
  | .utSync => none
  | .utSummary =>
    if s.ut.pvalid = false then some .noPayload
    else if LcdTable.wf s.straps.lcdTable then none else some .badTable
  | .utLux => if s.ut.svalid then none else some .noSummary
  | .utMon => if LcdTable.wf s.straps.lcdTable then none else some .badTable
  | .utAvg =>
    if s.ut.dur = 0 then some .noWindow
    else if LcdTable.wf s.straps.lcdTable then none else some .badTable
  | .utStatus => none
  | .utStart _ => none
  | .command01 => none
  | .command02 => none
  | .command08 => none
  | .command40 => none
  | .command40r => none
  | .command54 => none
  | .command54r => none
  | .command55 => none

/-- The values 10_state.md R46 states for reset; the registers it calls unspecified are not among them. -/
abbrev State.AtResetValues (s : State) : Prop :=
  (s.cl.hs = .disconnected ∧ s.cl.fault = .ok ∧ s.cl.warn = ⟨false, false, false, false⟩ ∧ s.cl.txlen = 0 ∧
    s.cl.rxlen = 0 ∧ s.cl.rxstat = .none ∧ s.cl.status = .ok ∧ s.cl.res.nres = 0 ∧ s.cl.res.xyzv = false ∧
    s.cl.pcTry = 0 ∧ s.cl.extTry = 0) ∧
  (s.ut.mode = .resync ∧ s.ut.dead = false ∧ s.ut.fault = .ok ∧ s.ut.rawcnt = 0 ∧ s.ut.closed = false ∧
    s.ut.malformed = false ∧ s.ut.pvalid = false ∧ s.ut.svalid = false ∧ s.ut.idle = 0 ∧ s.ut.hint = false ∧
    s.ut.summary = [] ∧ s.ut.dur = 0 ∧ s.ut.wcnt = 0 ∧ s.ut.wsum = 0 ∧ s.ut.warn = ⟨false, false⟩ ∧
    s.ut.status = .ok)

/-- `UT` locked, with the raw frame of a payload at the head of its queue and nothing more to come. -/
abbrev Ut.FrameWaiting (u : Ut) (payload : Vector Byte 15) (frame : Vector Byte 33) (last : Byte)
    (rest : List Byte) : Prop :=
  u.dead = false ∧ u.mode = .steady ∧ u.port.Silent ∧ frame.toList = rawFrameOf payload.toList last ∧
    u.port.rxq = frame.toList ++ rest

/-- What `UT` is after a locked `UT.SYNC` took the frame of a payload (43_ut_frame.md R163, R164, R168). -/
def Ut.synced (u : Ut) (payload : Vector Byte 15) (frame : Vector Byte 33) (rest : List Byte) : Ut :=
  { u with
    raw := frame
    rawcnt := 33
    closed := true
    payload := payload
    malformed := false
    pvalid := true
    svalid := false
    warn := { u.warn with malformed := false }
    status := .ok
    port := { u.port with rxq := rest, hist := u.port.hist ++ frame.toList.map (Event.rx .lock) } }

end Sys2Proof.Machine
end

