-- ==== Sys2Proof/Certificates/Slice0/Obligations.lean ====
section
/-! DEFINITION. The statements for the provers. Each is about every state that meets its premises, whether or not
a run reaches it. -/

open Sys2Proof Sys2Proof.Machine Host

/-! ### Encoding -/

/-- Every well-formed instruction decodes from its own encoding: a host word, or a command frame when no other
well-formed template of the table has the same body (30_encoding.md R71, R80, R94, R95). That a command frame is read
by the body of its template is the model's choice: log 12. -/
def Obligations.DecodeInvertsEncode : Prop :=
  ∀ (k : CkKind) (t : CmdTable) (i : Instr), i.wf t = true →
    (∀ c c' : CmdId, i = c.instr → Template.wf (t.get c') = true → (t.get c').body = (t.get c).body → c' = c) →
    decode k t (encode k t i) = .ok i

/-- What decodes is well formed and is the encoding of what it decodes to: no two words or frames share a meaning
(30_encoding.md R80, R94, R95). That a command frame is read by the body of its template is the model's choice:
log 12. -/
def Obligations.DecodedIsItsEncoding : Prop :=
  ∀ (k : CkKind) (t : CmdTable) (f : Fetched) (i : Instr), decode k t f = .ok i →
    i.wf t = true ∧ encode k t i = f

/-- Words written out from 30_encoding.md R94, R95, R98 and the operation rules decode to the operations they
stand for, and the frame of `command_54` to it. That the frame `command_54` and `command_54r` share under
`CMD_TABLE_REF` is read as `command_54`, and the bytes of that table, are the model's choices: log 12. -/
def Obligations.SampleWordsDecode : Prop :=
  decodeHost 0x1005 = .ok (.clRender .c54) ∧ decodeHost 0x1201 = .ok (.clCkval .rxline) ∧
  decodeHost 0x1402 = .ok (.clSend .mode) ∧ decodeHost 0x1C00 = .ok .clInit ∧
  decodeHost 0x1D01 = .ok (.clMeas .c02) ∧ decodeHost 0x2300 = .ok .utSync ∧
  decodeHost 0x2902 = .ok (.utStart 2) ∧ decodeTableWord 112 0x0230303534312020200334360D0A = some .command54

/-- An illegal host word, one that encodes no legal operation, changes no state but the status register of the
channel its high nibble names, which becomes `BadOp` (30_encoding.md R96). That a refusal leaves the result registers as
they were, and that an illegal word is refused on a busy channel too, are the model's choices: log 14, 30. -/
def Obligations.IllegalHostWordRefused : Prop :=
  ∀ (s : State) (w : HostWord) (rest : List Action), s.agenda = .host w :: rest →
    (∀ (i : Instr) (o : Nat), i.operandsWf = true → i.opcode = some o → hostWordOf o i.argument ≠ w) →
    step s = .next
      (if w.toNat / 4096 = 1 then (s.setAgenda rest).setCl (s.cl.setStatus .badOp)
       else if w.toNat / 4096 = 2 then (s.setAgenda rest).setUt (s.ut.setStatus .badOp)
       else s.setAgenda rest)

/-! ### The step -/

/-- A step runs what comes next. A host word that decodes to an instruction, on a channel whose previous operation has
ended: that instruction, on the state with the word taken. The line taking the frame at the head of `CL.txq`: the
wire command it decodes to. Nothing: the engine waits (30_encoding.md R70, R94; 70_reset_and_hazards.md R230). An
operation issued to a busy channel is outside the spec's model (70_reset_and_hazards.md R243), here a named fault. That
words, frames and line moves come from an agenda, and the named fault, are the model's choices: log 5, 9, 11, 30. -/
def Obligations.StepRunsTheDecodedInstruction : Prop :=
  (∀ (s : State) (w : HostWord) (rest : List Action) (i : Instr), s.agenda = .host w :: rest →
    decode s.straps.ck s.straps.cmdTable (.host w) = .ok i →
    ((∀ ch, i.channel = some ch → s.busyOn ch = false) → step s = exec i (s.setAgenda rest)) ∧
    ∀ ch, i.channel = some ch → s.busyOn ch = true → step s = .fault (.busy ch)) ∧
  (∀ (s : State) (rest : List Action) (i : Instr), s.agenda = .wireFrame :: rest →
    decode s.straps.ck s.straps.cmdTable (.wire (s.cl.port.txq.take 14)) = .ok i →
    step s = exec i (s.setAgenda rest)) ∧
  ∀ s : State, s.agenda = [] → step s = .next s

/-- The machine after reset has the values 10_state.md R46 states, whatever the parameters; and reset asserted by
the host gives both channels those values, leaves the transport queues and the parameters alone, and ends an operation
that did not end (70_reset_and_hazards.md R230, R231). That an asserted reset is an entry of the agenda, and that it
ends an operation, are the model's choices: log 5, 9, 19. -/
def Obligations.ResetRestoresBothChannels : Prop :=
  State.reset.AtResetValues ∧ (∀ p : Straps, (State.resetWith p).AtResetValues) ∧
  ∀ (s : State) (rest : List Action), s.agenda = .reset :: rest →
    ∃ t, step s = .next t ∧ t.AtResetValues ∧ t.cl.port = s.cl.port ∧ t.ut.port = s.ut.port ∧
      t.straps = s.straps ∧ t.agenda = rest ∧ t.cl.busy = false ∧ t.ut.busy = false

/-- A move of the line of either channel between two operations: a delivery joins the receive queue, a `Wire` moves the
head of the transmit queue to the wire, a break breaks the link; nothing else of the machine changes (20_memory.md
R57). That moves between operations are entries of the agenda, and the record of the wire, are the model's choices:
log 8, 9, 31. -/
def Obligations.LineMovesBetweenOperations : Prop :=
  ∀ (s : State) (rest : List Action) (ch : Channel) (m : LineMove), s.agenda = .line ch m :: rest →
    ∃ p, step s = .next ((s.setAgenda rest).setPortOf ch p) ∧
      (∀ b, m = .deliver b → p = { s.portOf ch with rxq := (s.portOf ch).rxq ++ [b] }) ∧
      (m = .wire → ∀ b q, (s.portOf ch).txq = b :: q →
        p = { s.portOf ch with txq := q, wire := (s.portOf ch).wire ++ [b] }) ∧
      (m = .wire → (s.portOf ch).txq = [] → p = s.portOf ch) ∧
      (m = .breakLink → p = { s.portOf ch with broken := true })

/-! ### The framer -/

/-- The checksum is the exact sum of the bytes modulo 100, so it follows a concatenation and does not see the
order; its two characters are ASCII digits that write it, tens first (40_cl_framer.md R100, R101). -/
def Obligations.ChecksumIsSumModHundred : Prop :=
  (∀ s : List Byte, CkKind.mod100.apply s = (s.map BitVec.toNat).sum % 100 ∧ CkKind.mod100.apply s < 100) ∧
  (∀ s t : List Byte,
    CkKind.mod100.apply (s ++ t) = (CkKind.mod100.apply s + CkKind.mod100.apply t) % 100) ∧
  (∀ s t : List Byte, s.Perm t → CkKind.mod100.apply s = CkKind.mod100.apply t) ∧
  ∀ (k : CkKind) (b : List Byte), ∃ tens units : Byte, ckDigits k b = [tens, units] ∧
    tens.toNat = 0x30 + k.apply b / 10 ∧ units.toNat = 0x30 + k.apply b % 10 ∧
    dig tens = some (k.apply b / 10) ∧ dig units = some (k.apply b % 10)

/-- `frame` gives 14 bytes for an 8-byte body, laid out as 40_cl_framer.md R103 says, and is injective. -/
def Obligations.FrameIsInjective : Prop :=
  ∀ (k : CkKind) (b : List Byte), b.length = 8 →
    (frameOf k b).length = 14 ∧
    frameOf k b = [0x02] ++ b ++ [0x03] ++
      [BitVec.ofNat 8 (0x30 + k.apply b / 10), BitVec.ofNat 8 (0x30 + k.apply b % 10)] ++ [0x0D, 0x0A] ∧
    ∀ b' : List Byte, b'.length = 8 → frameOf k b = frameOf k b' → b = b'

/-- `wellframed` is exactly being the frame of a body, of any length (its bytes from offset 1 up to `ETX`); on 14 bytes,
of the bytes 1 to 8 (40_cl_framer.md R108). -/
def Obligations.WellframedIsBeingAFrame : Prop :=
  ∀ (k : CkKind) (f : List Byte),
    (wellframed k f = true ↔ ∃ body : List Byte, f = frameOf k body) ∧
    (wellframed k f = true ↔ f = frameOf k (slice f 1 (f.length - 5))) ∧
    (f.length = 14 → (wellframed k f = true ↔ f = frameOf k (slice f 1 9)))

/-- `CL.RENDER` puts the packed fields, their checksum and the delimiters into the transmit buffer and touches
nothing else (40_cl_framer.md R102, R104; 30_encoding.md R73). -/
def Obligations.RenderWritesTheFrame : Prop :=
  ∀ (s : State) (c : CmdId), s.cl.hs ≠ .faulted → Template.wf (s.straps.cmdTable.get c) = true →
    ∃ (body : List Byte) (v : Vector Byte 14),
      body = ((s.straps.cmdTable.get c).map fun f =>
        List.replicate (f.width - f.value.length) (0x30 : Byte) ++ f.value).flatten ∧
      body.length = 8 ∧ v.toList = frameOf s.straps.ck body ∧
      exec (.clRender c) s = .next (s.setCl { s.cl with txbuf := v, txlen := 14, status := .ok })

/-- `CL.UNFRAME` cuts the bytes after `STX` by the widths of the template, and touches nothing else
(40_cl_framer.md R105). -/
def Obligations.UnframeCutsByWidths : Prop :=
  ∀ (s : State) (c : CmdId), s.cl.hs ≠ .faulted → s.cl.txlen ≠ 0 →
    Template.wf (s.straps.cmdTable.get c) = true →
    ∃ v : Vector (List Byte) 8,
      exec (.clUnframe c) s = .next (s.setCl { s.cl with
        res := { s.cl.res with fld := v, nfld := (s.straps.cmdTable.get c).length }, status := .ok }) ∧
      (∀ (i : Nat) (f : Field), (s.straps.cmdTable.get c)[i]? = some f →
        v.toList.getD i [] = (s.cl.txbuf.toList.drop
          (1 + (((s.straps.cmdTable.get c).take i).map Field.width).sum)).take f.width) ∧
      ∀ i, (s.straps.cmdTable.get c).length ≤ i → v.toList.getD i [] = s.cl.res.fld.toList.getD i []

/-- After `CL.RENDER c` then `CL.UNFRAME c`, every field register holds the packed field (40_cl_framer.md
R106). -/
def Obligations.RenderUnframeRoundTrip : Prop :=
  ∀ (s : State) (c : CmdId), s.cl.hs ≠ .faulted → Template.wf (s.straps.cmdTable.get c) = true →
    ∃ t u, exec (.clRender c) s = .next t ∧ exec (.clUnframe c) t = .next u ∧
      ∀ (i : Nat) (f : Field), (s.straps.cmdTable.get c)[i]? = some f →
        u.cl.res.fld.toList.getD i [] =
          List.replicate (f.width - f.value.length) (0x30 : Byte) ++ f.value

/-- `CL.CKVAL` writes into `CL.ckok` whether the selected buffer is a well-formed frame, and touches nothing else
(40_cl_framer.md R107): the transmit buffer if it is the frame of its bytes 1 to 8, the response line if it is the
frame of its bytes from 1 up to the fifth from its end. -/
def Obligations.CkvalJudgesTheBuffer : Prop :=
  ∀ (s : State) (line : List Byte), s.cl.hs ≠ .faulted → line = s.cl.rxline.take s.cl.rxlen →
    (s.cl.txlen ≠ 0 → exec (.clCkval .txbuf) s = .next (s.setCl { s.cl with status := .ok, res := { s.cl.res with
      ckok := decide (s.cl.txbuf.toList = frameOf s.straps.ck (slice s.cl.txbuf.toList 1 9)) } })) ∧
    (s.cl.rxstat ≠ .none → exec (.clCkval .rxline) s = .next (s.setCl { s.cl with status := .ok, res := { s.cl.res with
      ckok := decide (line = frameOf s.straps.ck (slice line 1 (line.length - 5))) } }))

/-- On a line that answers, `CL.FLUSH` empties both queues, records `Flush`, and touches no buffer and no result
register (40_cl_framer.md R109, 20_memory.md R55). What the line puts on the wire at that moment comes off the
head of the transmit queue (R57). That the line script is data of the state, and the record of the wire, are the model's choices: log 4, 8. -/
def Obligations.FlushEmptiesTheQueues : Prop :=
  ∀ s : State, s.cl.hs ≠ .faulted → s.cl.port.Answers →
    ∃ p, exec .clFlush s = .next (s.setCl { s.cl with status := .ok, port := p }) ∧
      p.rxq = [] ∧ p.txq = [] ∧ p.broken = false ∧ p.hist = s.cl.port.hist ++ [.flush] ∧
      p.turns = s.cl.port.turns.tail ∧ p.stream = s.cl.port.stream ∧ s.cl.port.wire <+: p.wire ∧
      p.wire <+: s.cl.port.wire ++ s.cl.port.txq

/-- On a line that answers, `CL.SEND` hands over the fourteen bytes in order and then settles; the bytes go behind
whatever was queued, no byte already received is lost, and only the transport and the status change (40_cl_framer.md
R110). That the line script is data of the state, and the record of the wire, are the model's choices: log 4, 8. -/
def Obligations.SendTransmitsTheFrame : Prop :=
  ∀ (s : State) (k : SettleClass), s.cl.hs ≠ .faulted → s.cl.txlen ≠ 0 → s.cl.port.Answers →
    ∃ p, exec (.clSend k) s = .next (s.setCl { s.cl with status := .ok, port := p }) ∧ p.broken = false ∧
      p.hist = s.cl.port.hist ++ s.cl.txbuf.toList.map Event.tx ++ [.settle k] ∧
      p.wire ++ p.txq = s.cl.port.wire ++ s.cl.port.txq ++ s.cl.txbuf.toList ∧
      s.cl.port.rxq <+: p.rxq ∧ p.turns = s.cl.port.turns.drop 15 ∧ p.stream = s.cl.port.stream

/-- A `LinkErr` at byte `i` of a send leaves the first `i` bytes handed over, no settle, and the channel `Faulted`
with `TransportError` (40_cl_framer.md R110, R115). The failing call itself hands nothing over (log 7). That a
primitive answered LinkErr has no other effect, and that the result registers are free after a fault, are the
model's choices: log 7, 13. -/
def Obligations.SendStopsAtLinkError : Prop :=
  ∀ (s : State) (k : SettleClass) (i : Nat) (rest : List Turn), s.cl.hs ≠ .faulted → s.cl.txlen ≠ 0 → i < 14 →
    s.cl.port.broken = false → s.cl.port.turns = List.replicate i Turn.idle ++ Turn.linkErr :: rest →
    ∃ free, exec (.clSend k) s = .next (s.setCl (Cl.afterFault
      { s.cl with port := { s.cl.port with
          txq := s.cl.port.txq ++ s.cl.txbuf.toList.take i
          hist := s.cl.port.hist ++ (s.cl.txbuf.toList.take i).map Event.tx ++ [.linkErr none]
          turns := rest } } .transportError true free))

/-- `CL.RXLINE` on a queue that holds a terminated line: the line up to its `LF` is stored as far as the buffer
reaches, bytes after it stay queued, and a longer line sets `W_OVERRUN` (40_cl_framer.md R112, R113). That the
stored bytes past the line stay is the model's choice: log 33. -/
def Obligations.RxlineReadsOneLine : Prop :=
  ∀ (s : State) (line rest : List Byte), s.cl.hs ≠ .faulted → s.cl.port.Silent → IsLine line →
    s.cl.port.rxq = line ++ rest → s.cl.rxline.length = s.straps.rxlineCap → 27 ≤ s.straps.rxlineCap →
    exec .clRxline s = .next (s.setCl { s.cl with
      status := .ok
      rxstat := .line
      rxlen := min line.length s.straps.rxlineCap
      rxline := line.take s.straps.rxlineCap ++ s.cl.rxline.drop line.length
      warn := { s.cl.warn with overrun := decide (s.straps.rxlineCap < line.length) }
      port := { s.cl.port with rxq := rest, hist := s.cl.port.hist ++ Event.received line } })

/-- `CL.RXLINE` on a queue without `LF` whose line then falls silent: `NoData` when nothing was queued, else the
bytes as a `Partial` line (40_cl_framer.md R112, R113). That a line with no move left answers a timeout, and that the
stored bytes past the line stay, are the model's choices: log 4, 33. -/
def Obligations.RxlineEndsAtTimeout : Prop :=
  ∀ (s : State) (line : List Byte), s.cl.hs ≠ .faulted → s.cl.port.Silent → lf ∉ line →
    s.cl.port.rxq = line → s.cl.rxline.length = s.straps.rxlineCap → 27 ≤ s.straps.rxlineCap →
    exec .clRxline s = .next (s.setCl { s.cl with
      status := if line = [] then .noData else .ok
      rxstat := if line = [] then .empty else .partialLine
      rxlen := min line.length s.straps.rxlineCap
      rxline := line.take s.straps.rxlineCap ++ s.cl.rxline.drop line.length
      warn := { s.cl.warn with overrun := decide (s.straps.rxlineCap < line.length) }
      port := { s.cl.port with rxq := [], hist := s.cl.port.hist ++ Event.received line ++ [.timeout .clRead] } })

/-! ### The parser -/

/-- Every outcome of `CL.CHECK`, in the order of 41_cl_parser.md R121 and R122: no line; too short for offset 6; the
three fatal digits, on any line that has offset 6; too short for offset 8, after the warnings; the battery flag,
after the warnings; `OK`. The device errors make the channel `Faulted`, the malformed line does not; nothing
else changes but the result registers of a fault. That the result registers are free after a fault, and that a
device error is fatal in every live state, are the model's choices: log 13, 20. -/
def Obligations.CheckJudgesInOrder : Prop :=
  ∀ (s : State) (e : Byte) (cleared warned : Cl), s.cl.hs ≠ .faulted → s.cl.rxstat ≠ .none →
    s.cl.rxlen ≤ s.cl.rxline.length → e = byteAt s.cl.rxline 6 →
    cleared = { s.cl with warn := { s.cl.warn with range := false, lowLum := false } } →
    warned = { s.cl with warn := { s.cl.warn with range := decide (e = ch5), lowLum := decide (e = ch6) } } →
    (s.cl.rxlen = 0 → exec .clCheck s = .next (s.setCl { cleared with status := .noData })) ∧
    (9 ≤ s.cl.rxlen → e ∉ [ch1, ch2, ch3] → byteAt s.cl.rxline 8 ≠ ch1 →
      exec .clCheck s = .next (s.setCl { warned with status := .ok })) ∧
    ∃ free : Cl,
      (0 < s.cl.rxlen → s.cl.rxlen < 7 →
        exec .clCheck s = .next (s.setCl (cleared.afterFault .malformedFrame false free))) ∧
      (7 ≤ s.cl.rxlen → e ∈ [ch1, ch2, ch3] →
        exec .clCheck s = .next (s.setCl (cleared.afterFault .deviceErrorPowerCycle true free))) ∧
      (7 ≤ s.cl.rxlen → s.cl.rxlen < 9 → e ∉ [ch1, ch2, ch3] →
        exec .clCheck s = .next (s.setCl (warned.afterFault .malformedFrame false free))) ∧
      (9 ≤ s.cl.rxlen → e ∉ [ch1, ch2, ch3] → byteAt s.cl.rxline 8 = ch1 →
        exec .clCheck s = .next (s.setCl (warned.afterFault .deviceErrorBattery true free)))

/-- `CL.PVAL` on a line whose offsets 10 to 14 are the digits `m3 m2 m1 m0 d` (41_cl_parser.md R124). -/
def Obligations.PvalDerivesTheValue : Prop :=
  ∀ (s : State) (m3 m2 m1 m0 d : Nat), s.cl.hs ≠ .faulted → s.cl.rxstat ≠ .none → 15 ≤ s.cl.rxlen →
    s.cl.rxlen ≤ s.cl.rxline.length →
    m3 ≤ 9 → m2 ≤ 9 → m1 ≤ 9 → m0 ≤ 9 → d ≤ 9 →
    byteAt s.cl.rxline 10 = BitVec.ofNat 8 (0x30 + m3) → byteAt s.cl.rxline 11 = BitVec.ofNat 8 (0x30 + m2) →
    byteAt s.cl.rxline 12 = BitVec.ofNat 8 (0x30 + m1) → byteAt s.cl.rxline 13 = BitVec.ofNat 8 (0x30 + m0) →
    byteAt s.cl.rxline 14 = BitVec.ofNat 8 (0x30 + d) →
    ∃ v4 : Int,
      (byteAt s.cl.rxline 9 = 0x2B → v4 = (1000 * m3 + 100 * m2 + 10 * m1 + m0) * 10 ^ d) ∧
      (byteAt s.cl.rxline 9 ≠ 0x2B → v4 = -((1000 * m3 + 100 * m2 + 10 * m1 + m0) * 10 ^ d)) ∧
      exec .clPval s = .next (s.setCl { s.cl with status := .ok, res := { s.cl.res with
        sign := decide (byteAt s.cl.rxline 9 ≠ 0x2B)
        mant := 1000 * m3 + 100 * m2 + 10 * m1 + m0
        expd := d
        v4 := v4
        v3 := round3 s.straps.roundTie v4 } })

/-- `CL.PSEC` on a line whose offsets 16 to 19 and 22 to 25 are digits (41_cl_parser.md R127). -/
def Obligations.PsecDerivesTheValues : Prop :=
  ∀ (s : State) (a3 a2 a1 a0 b3 b2 b1 b0 : Nat), s.cl.hs ≠ .faulted → s.cl.rxstat ≠ .none → 26 ≤ s.cl.rxlen →
    s.cl.rxlen ≤ s.cl.rxline.length →
    (a3 ≤ 9 ∧ a2 ≤ 9 ∧ a1 ≤ 9 ∧ a0 ≤ 9 ∧ b3 ≤ 9 ∧ b2 ≤ 9 ∧ b1 ≤ 9 ∧ b0 ≤ 9) →
    slice s.cl.rxline 16 20 = [a3, a2, a1, a0].map (fun n => BitVec.ofNat 8 (0x30 + n)) →
    slice s.cl.rxline 22 26 = [b3, b2, b1, b0].map (fun n => BitVec.ofNat 8 (0x30 + n)) →
    exec .clPsec s = .next (s.setCl { s.cl with status := .ok, res := { s.cl.res with
      s1 := 1000 * a3 + 100 * a2 + 10 * a1 + a0, s2 := 1000 * b3 + 100 * b2 + 10 * b1 + b0 } })

/-- A line too short for a value field, or with a byte there that is no digit, makes `CL.PVAL` and `CL.PSEC` raise
`MalformedFrame`, which is not fatal (41_cl_parser.md R124, R127; 60_exceptions.md R205). That the result
registers are free after a fault is the model's choice of form: log 13. -/
def Obligations.ValueFieldFaults : Prop :=
  ∀ s : State, s.cl.hs ≠ .faulted → s.cl.rxstat ≠ .none →
    ∃ free : Cl,
      (s.cl.rxlen < 15 ∨ (∃ j, 10 ≤ j ∧ j ≤ 14 ∧ dig (byteAt s.cl.line j) = none) →
        exec .clPval s = .next (s.setCl (s.cl.afterFault .malformedFrame false free))) ∧
      (s.cl.rxlen < 26 ∨
          (∃ j, (16 ≤ j ∧ j ≤ 19 ∨ 22 ≤ j ∧ j ≤ 25) ∧ dig (byteAt s.cl.line j) = none) →
        exec .clPsec s = .next (s.setCl (s.cl.afterFault .malformedFrame false free)))

/-- `round3` is the nearest multiple of ten over ten, its magnitude and sign as 41_cl_parser.md R125 says; a tie
needs a zero exponent digit. -/
def Obligations.RoundThreeIsNearest : Prop :=
  (∀ (tie : RoundTie) (v : Int),
    (round3 tie v).natAbs =
      (if v.natAbs % 10 < 5 then v.natAbs / 10
       else if 5 < v.natAbs % 10 then v.natAbs / 10 + 1
       else match tie with
         | .halfAway => v.natAbs / 10 + 1
         | .halfToward => v.natAbs / 10
         | .halfEven => if v.natAbs / 10 % 2 = 0 then v.natAbs / 10 else v.natAbs / 10 + 1) ∧
    (0 ≤ v → 0 ≤ round3 tie v) ∧ (v ≤ 0 → round3 tie v ≤ 0) ∧ (10 * round3 tie v - v).natAbs ≤ 5) ∧
  (∀ (tie : RoundTie) (neg : Bool) (m d : Nat), 1 ≤ d →
    10 * round3 tie (primaryValue neg m d) = primaryValue neg m d) ∧
  ∀ (neg : Bool) (m d : Nat), (primaryValue neg m d).natAbs % 10 = 5 → d = 0 ∧ m % 10 = 5

/-- `CL.CCT`: 0 when an input is 0; the polynomial when it is defined; `CctDivide`, not fatal, when a denominator is
0 (41_cl_parser.md R130, R131; 60_exceptions.md R209). That the result registers are free after a fault is the
model's choice of form: log 13. -/
def Obligations.CctEvaluatesThePolynomial : Prop :=
  ∀ (s : State) (x y z : Rat), s.cl.hs ≠ .faulted → s.cl.res.xyzv = true → s.cl.res.xyz = (x, y, z) →
    (x = 0 ∨ y = 0 ∨ z = 0 → exec .clCct s = .next (s.setCl { s.cl with status := .ok, res := { s.cl.res with
      cct := 0 } })) ∧
    (x ≠ 0 → y ≠ 0 → z ≠ 0 → ∀ n : Rat, x + y + z ≠ 0 →
      n * (1858 / 10000 * (x + y + z) - y) = x - 3320 / 10000 * (x + y + z) →
      1858 / 10000 * (x + y + z) ≠ y →
      exec .clCct s = .next (s.setCl { s.cl with status := .ok, res := { s.cl.res with
        cct := 437 * n ^ 3 + 3601 * n ^ 2 + 6861 * n + 5517 } })) ∧
    (x ≠ 0 → y ≠ 0 → z ≠ 0 → (x + y + z = 0 ∨ 1858 / 10000 * (x + y + z) = y) →
      ∃ free, exec .clCct s = .next (s.setCl (s.cl.afterFault .cctDivide false free)))

/-! ### The sequencer -/

/-- `CL.INIT` follows the responses it is given, terminated, cut off or empty. Step 1: `fails` are no acknowledgements;
then `ack` is one, or it is absent, all attempts are used and the handshake is lenient. Step 3: `fours` have `'4'` at
offset 6, each followed by another hold; then the last response `l40` decides: shorter than 7 bytes `MalformedFrame`;
`'1'`, `'2'`, `'3'` `DeviceErrorPowerCycle`; `'4'` on the last attempt `ExtNotEntered` or `Ready` as `EXT_EXHAUST` says;
any other byte `Ready`. The attempts are counted, the history is exactly these exchanges, and nothing else changes
(42_cl_sequencer.md R140 to R146). That the line script is data of the state, that the result registers are free after a
fault, that the stored bytes past a line stay (they are left open here), and that `rxline()` writes `W_OVERRUN` here
too, are the model's choices: log 4, 13, 33, 35. -/
def Obligations.InitFollowsTheResponses : Prop :=
  ∀ (s : State) (fails : List (List Byte)) (ack : Option (List Byte)) (fours : List (List Byte)) (l40 : List Byte)
    (rest : List Turn), s.cl.hs = .disconnected →
    (∀ c ∈ [CmdId.c54, .c55, .c40], Template.wf (s.straps.cmdTable.get c) = true) →
    s.straps.Wf → s.cl.rxline.length = s.straps.rxlineCap → s.cl.port.broken = false →
    s.cl.port.turns = Turn.handshake (fails ++ ack.toList) fours l40 ++ rest →
    (∀ l ∈ fails, IsResponse l ∧ s.straps.ack54.accepts (l.take s.straps.rxlineCap) = false) →
    (∀ l ∈ ack, IsResponse l ∧ s.straps.ack54.accepts (l.take s.straps.rxlineCap) = true ∧
      fails.length < s.straps.pcAttempts) →
    (ack = none → fails.length = s.straps.pcAttempts ∧ s.straps.hsStrict = false) →
    (∀ l ∈ fours, IsResponse l ∧ 7 ≤ l.length ∧ byteAt l 6 = ch4) → fours.length < s.straps.extAttempts →
    IsResponse l40 →
    ∃ (c free : Cl), c.line = l40.take s.straps.rxlineCap ∧ c.txbuf.toList = cmdFrame s.straps .c40 ∧
      c = { s.cl with
        hs := .extMode
        pcTry := fails.length + ack.toList.length
        extTry := fours.length + 1
        warn := { s.cl.warn with
          hsLenient := ack.isNone, overrun := decide (s.straps.rxlineCap < l40.length) }
        txbuf := c.txbuf
        txlen := 14
        rxline := c.rxline
        rxlen := min l40.length s.straps.rxlineCap
        rxstat := RxStat.ofResponse l40
        port := { s.cl.port with
          rxq := []
          txq := cmdFrame s.straps .c40
          turns := rest
          hist := s.cl.port.hist ++
            (fails ++ ack.toList).flatMap (Event.exchange s.straps .c54) ++ Event.hold s.straps ++
            (fours.flatMap fun l => Event.exchange s.straps .c40 l ++ Event.hold s.straps) ++
            Event.exchange s.straps .c40 l40 } } ∧
      (l40.length < 7 → exec .clInit s = .next (s.setCl (c.afterFault .malformedFrame true free))) ∧
      (7 ≤ l40.length → byteAt l40 6 ∈ [ch1, ch2, ch3] →
        exec .clInit s = .next (s.setCl (c.afterFault .deviceErrorPowerCycle true free))) ∧
      (7 ≤ l40.length → byteAt l40 6 = ch4 → fours.length + 1 = s.straps.extAttempts →
        (s.straps.extExhaust = .fault →
          exec .clInit s = .next (s.setCl (c.afterFault .extNotEntered true free))) ∧
        (s.straps.extExhaust = .ready →
          exec .clInit s = .next (s.setCl { c with hs := .ready, status := .ok }))) ∧
      (7 ≤ l40.length → byteAt l40 6 ∉ [ch1, ch2, ch3, ch4] →
        exec .clInit s = .next (s.setCl { c with hs := .ready, status := .ok }))

/-- A handshake that gets no acknowledgement. On a silent line whose empty answer is none, a strict handshake ends in
`HandshakeFail` after all attempts, and a lenient one goes on with the warning and fails at the empty response of step
3. Where every response to `command_54` is one that `ACK54` rejects, a strict handshake sends all its attempts, nothing
more, and ends in `HandshakeFail` (42_cl_sequencer.md R141, R142, R146; 60_exceptions.md R206). That the line script is
data of the state, that a line with no move left answers a timeout, that the result registers are free after a fault,
and that `rxline()` writes `W_OVERRUN` here too, are the model's choices: log 4, 13, 35. -/
def Obligations.InitWithoutAnAcknowledgement : Prop :=
  (∀ s : State, s.cl.hs = .disconnected → s.cl.port.Silent → s.straps.Wf →
    (∀ c ∈ [CmdId.c54, .c55, .c40], Template.wf (s.straps.cmdTable.get c) = true) →
    s.straps.ack54.accepts [] = false →
    ∃ t, exec .clInit s = .next t ∧ t.cl.hs = .faulted ∧ t.cl.fault = t.cl.status ∧
      t.cl.pcTry = s.straps.pcAttempts ∧
      (s.straps.hsStrict = true → t.cl.status = .handshakeFail ∧ t.cl.extTry = 0 ∧
        t.cl.warn.hsLenient = false) ∧
      (s.straps.hsStrict = false → t.cl.status = .malformedFrame ∧ t.cl.extTry = 1 ∧
        t.cl.warn.hsLenient = true)) ∧
  ∀ (s : State) (fails : List (List Byte)) (rest : List Turn), s.cl.hs = .disconnected →
    (∀ c ∈ [CmdId.c54, .c55, .c40], Template.wf (s.straps.cmdTable.get c) = true) → s.straps.Wf →
    s.cl.rxline.length = s.straps.rxlineCap → s.cl.port.broken = false → s.straps.hsStrict = true →
    s.cl.port.turns = fails.flatMap Turn.exchange ++ rest → fails.length = s.straps.pcAttempts →
    (∀ l ∈ fails, IsResponse l ∧ s.straps.ack54.accepts (l.take s.straps.rxlineCap) = false) →
    ∃ (c free : Cl),
      c = { s.cl with
        pcTry := fails.length
        extTry := 0
        warn := { s.cl.warn with hsLenient := false, overrun := c.warn.overrun }
        txbuf := c.txbuf
        txlen := c.txlen
        rxline := c.rxline
        rxlen := c.rxlen
        rxstat := c.rxstat
        port := { s.cl.port with
          rxq := c.port.rxq
          txq := c.port.txq
          turns := rest
          hist := s.cl.port.hist ++ fails.flatMap (Event.exchange s.straps .c54) } } ∧
      (∀ l ∈ fails.getLast?, c.line = l.take s.straps.rxlineCap ∧ c.rxstat = RxStat.ofResponse l ∧
        c.warn.overrun = decide (s.straps.rxlineCap < l.length) ∧ c.txbuf.toList = cmdFrame s.straps .c54 ∧
        c.txlen = 14 ∧ c.port.rxq = [] ∧ c.port.txq = cmdFrame s.straps .c54) ∧
      exec .clInit s = .next (s.setCl (c.afterFault .handshakeFail true free))

/-- A measurement whose response is good, terminated or cut off by a timeout (42_cl_sequencer.md R149 (b)), delivers the
values of R147 and R148, with the history of R150; nothing else changes. That the line script is data of the state, that
the stored bytes past the line stay, and that `rxline()` writes `W_OVERRUN` here too, are the model's choices: log 4,
33, 35. -/
def Obligations.MeasDeliversTheValues : Prop :=
  ∀ (s : State) (c : CmdId) (line : List Byte) (rest : List Turn) (m d a b : Nat), s.cl.hs = .ready → c.isRead = true →
    Template.wf (s.straps.cmdTable.get .c40r) = true → Template.wf (s.straps.cmdTable.get c) = true →
    s.straps.Wf → s.cl.rxline.length = s.straps.rxlineCap → s.cl.port.broken = false →
    s.cl.port.turns = Turn.measurement line ++ rest → IsResponse line → 15 ≤ line.length →
    byteAt line 6 ∉ [ch1, ch2, ch3] → byteAt line 8 ≠ ch1 →
    dec4 (slice line 10 14) = some m → dig (byteAt line 14) = some d →
    (c ≠ .c02 → 26 ≤ line.length ∧ dec4 (slice line 16 20) = some a ∧ dec4 (slice line 22 26) = some b) →
    ∃ (buf : Vector Byte 14) (v4 v3 : Int), buf.toList = cmdFrame s.straps c ∧
      v4 = (if byteAt line 9 = chPlus then 1 else -1) * (m * 10 ^ d) ∧ v3 = round3 s.straps.roundTie v4 ∧
      exec (.clMeas c) s = .next (s.setCl { s.cl with
        status := .ok
        warn := { s.cl.warn with
          range := decide (byteAt line 6 = ch5)
          lowLum := decide (byteAt line 6 = ch6)
          overrun := decide (s.straps.rxlineCap < line.length) }
        txbuf := buf
        txlen := 14
        rxline := line.take s.straps.rxlineCap ++ s.cl.rxline.drop line.length
        rxlen := min line.length s.straps.rxlineCap
        rxstat := RxStat.ofResponse line
        res := { s.cl.res with
          sign := decide (byteAt line 9 ≠ chPlus)
          mant := m
          expd := d
          v4 := v4
          v3 := v3
          s1 := if c = .c02 then s.cl.res.s1 else a
          s2 := if c = .c02 then s.cl.res.s2 else b
          nres := if c = .c02 then 1 else 3
          xyz := if c = .c01 then ((v3 : Rat) / 1000, (a : Rat) / 10, (b : Rat) / 10) else s.cl.res.xyz
          xyzv := if c = .c01 then true else s.cl.res.xyzv }
        port := { s.cl.port with
          rxq := []
          txq := cmdFrame s.straps .c40r ++ cmdFrame s.straps c
          turns := rest
          hist := s.cl.port.hist ++ (.flush :: Event.sent s.straps .c40r ++ Event.sent s.straps c ++
            Event.response line) } })

/-- The event history of a measurement that ends and meets no `LinkErr` is exactly that of 42_cl_sequencer.md R150,
whatever the line does and however the measurement ends. That one that does not end leaves its channel `busy` is the
model's choice: log 5. -/
def Obligations.MeasHistoryIsExact : Prop :=
  ∀ (s t : State) (c : CmdId) (evs : List Event), s.cl.hs = .ready → c.isRead = true →
    Template.wf (s.straps.cmdTable.get .c40r) = true → Template.wf (s.straps.cmdTable.get c) = true →
    exec (.clMeas c) s = .next t → t.cl.busy = false → t.cl.port.hist = s.cl.port.hist ++ evs →
    (∀ w, Event.linkErr w ∉ evs) →
    ∃ (bs : List Byte) (last : Event), lf ∉ bs ∧ (last = .rx .clRead lf ∨ last = .timeout .clRead) ∧
      evs = [.flush] ++ (cmdFrame s.straps .c40r).map Event.tx ++ [.settle .mode] ++
        (cmdFrame s.straps c).map Event.tx ++ [.settle .none] ++ bs.map (Event.rx .clRead) ++ [last]

/-- A measurement that the line does not answer ends `NoData` with nothing delivered, and the channel stays `Ready`
(42_cl_sequencer.md R147, R148). That a line with no move left answers a timeout, that `CL.xyzv` is kept, and that
`rxline()` clears `W_OVERRUN` here too, are the model's choices: log 4, 15, 35. -/
def Obligations.MeasWithoutAnAnswer : Prop :=
  ∀ (s : State) (c : CmdId), s.cl.hs = .ready → c.isRead = true → s.cl.port.Silent →
    Template.wf (s.straps.cmdTable.get .c40r) = true → Template.wf (s.straps.cmdTable.get c) = true →
    ∃ t, exec (.clMeas c) s = .next t ∧ t.cl.status = .noData ∧ t.cl.hs = .ready ∧ t.cl.fault = s.cl.fault ∧
      t.cl.res.nres = 0 ∧ t.cl.res.xyzv = s.cl.res.xyzv ∧ t.cl.rxlen = 0 ∧ t.cl.rxstat = .empty ∧
      t.cl.warn = { s.cl.warn with range := false, lowLum := false, overrun := false } ∧
      t.cl.port = { s.cl.port with
        rxq := []
        txq := cmdFrame s.straps .c40r ++ cmdFrame s.straps c
        hist := s.cl.port.hist ++ (.flush :: Event.sent s.straps .c40r ++ Event.sent s.straps c ++
          [.timeout .clRead]) }

/-- A measurement answered by a response, terminated or cut off by a timeout (42_cl_sequencer.md R149 (b)), that fails a
check, in the order of 41_cl_parser.md R121 and 42_cl_sequencer.md R149: shorter than 7 bytes; an error digit; shorter
than 9 bytes; a low battery; a malformed primary field; for the commands with three values, a malformed secondary field.
The device errors make the channel `Faulted`, a malformed line leaves it `Ready`; nothing is delivered, `CL.nres` is 0,
and nothing else changes (42_cl_sequencer.md R147, R149). That the line script is data of the state, that the other
result registers are free after a fault and `CL.xyzv` is kept, that `CL.nres` is 0 after a device error too, that the
stored bytes past the line stay, and that `rxline()` writes `W_OVERRUN` here too, are the model's choices: log 4, 13,
33, 35. -/
def Obligations.MeasFaultsAreSurfaced : Prop :=
  ∀ (s : State) (c : CmdId) (line : List Byte) (rest : List Turn) (e : Byte), s.cl.hs = .ready → c.isRead = true →
    Template.wf (s.straps.cmdTable.get .c40r) = true → Template.wf (s.straps.cmdTable.get c) = true →
    s.straps.Wf → s.cl.rxline.length = s.straps.rxlineCap → s.cl.port.broken = false →
    s.cl.port.turns = Turn.measurement line ++ rest → IsResponse line → line ≠ [] → e = byteAt line 6 →
    ∃ (buf : Vector Byte 14) (read warned free : Cl), buf.toList = cmdFrame s.straps c ∧
      read = { s.cl with
        warn := ⟨false, false, s.cl.warn.hsLenient, decide (s.straps.rxlineCap < line.length)⟩
        txbuf := buf
        txlen := 14
        rxline := line.take s.straps.rxlineCap ++ s.cl.rxline.drop line.length
        rxlen := min line.length s.straps.rxlineCap
        rxstat := RxStat.ofResponse line
        port := { s.cl.port with
          rxq := []
          txq := cmdFrame s.straps .c40r ++ cmdFrame s.straps c
          turns := rest
          hist := s.cl.port.hist ++ (.flush :: Event.sent s.straps .c40r ++ Event.sent s.straps c ++
            Event.response line) } } ∧
      warned = { read with warn := { read.warn with range := decide (e = ch5), lowLum := decide (e = ch6) } } ∧
      (line.length < 7 →
        exec (.clMeas c) s = .next (s.setCl (read.afterFault .malformedFrame false free).clearNres)) ∧
      (7 ≤ line.length → e ∈ [ch1, ch2, ch3] →
        exec (.clMeas c) s = .next (s.setCl (read.afterFault .deviceErrorPowerCycle true free).clearNres)) ∧
      (7 ≤ line.length → e ∉ [ch1, ch2, ch3] →
        (9 ≤ line.length → byteAt line 8 = ch1 →
          exec (.clMeas c) s = .next (s.setCl (warned.afterFault .deviceErrorBattery true free).clearNres)) ∧
        (line.length < 9 ∨ byteAt line 8 ≠ ch1 ∧
            (line.length < 15 ∨ dec4 (slice line 10 14) = none ∨ dig (byteAt line 14) = none ∨
              c ≠ .c02 ∧ (line.length < 26 ∨ dec4 (slice line 16 20) = none ∨ dec4 (slice line 22 26) = none)) →
          exec (.clMeas c) s = .next (s.setCl (warned.afterFault .malformedFrame false free).clearNres)))

/-- What any operation can do to `CL.hs`: nothing; `CL.INIT` ending `OK` makes a disconnected channel `Ready`; a
fatal fault makes a live channel `Faulted` with the code of its status; a `CL.INIT` that does not end is in one of the
states on its way (42_cl_sequencer.md R153, 60_exceptions.md R208). That an operation that does not end leaves its
channel `busy`, and that a device error is fatal in every live state, are the model's choices: log 5, 20. -/
def Obligations.HandshakeTransitions : Prop :=
  ∀ (s t : State) (i : Instr), exec i s = .next t → s.cl.HandshakeWf →
    t.cl.hs = s.cl.hs ∧ t.cl.fault = s.cl.fault ∨
    i = .clInit ∧ s.cl.hs = .disconnected ∧ t.cl.hs = .ready ∧ t.cl.status = .ok ∧ t.cl.fault = .ok ∨
    s.cl.hs ≠ .faulted ∧ t.cl.hs = .faulted ∧ t.cl.fault = t.cl.status ∧
      t.cl.status.fatal (decide (i = .clInit)) = true ∨
    i = .clInit ∧ s.cl.hs = .disconnected ∧ t.cl.busy = true ∧ t.cl.hs ∈ [.pcConnected, .held, .extMode] ∧
      t.cl.fault = .ok

/-! ### UT frames -/

/-- `UT.LISTEN` on a line that makes no move: a queued byte joins the chunk; a gap closes a chunk that has bytes;
with none it counts up to `WAIT_LIMIT` and then hints (43_ut_frame.md R161). That a line with no move left
answers a timeout is the model's choice: log 4. -/
def Obligations.ListenTakesOneByte : Prop :=
  ∀ (s : State) (n : Nat), s.ut.dead = false → s.ut.port.Silent →
    n = (if s.ut.closed = true then 0 else s.ut.rawcnt) →
    (∀ b q, s.ut.port.rxq = b :: q → exec .utListen s = .next (s.setUt { s.ut with
      raw := if n < 33 then s.ut.raw.setIfInBounds n b else s.ut.raw
      rawcnt := min (n + 1) 34
      closed := false
      idle := 0
      hint := false
      status := .accum
      port := { s.ut.port with rxq := q, hist := s.ut.port.hist ++ [.rx .scan b] } })) ∧
    (s.ut.port.rxq = [] → exec .utListen s = .next (s.setUt { s.ut with
      rawcnt := n
      closed := decide (0 < n)
      idle := if n = 0 ∧ s.ut.idle < s.straps.waitLimit then s.ut.idle + 1 else s.ut.idle
      hint := s.ut.hint || decide (n = 0 ∧ s.straps.waitLimit ≤ s.ut.idle)
      status := if 0 < n then .chunk else if s.ut.idle < s.straps.waitLimit then .waiting else .hint
      port := { s.ut.port with hist := s.ut.port.hist ++ [.timeout .scan] } }))

/-- `UT.READ33` on a line that makes no move takes exactly 33 bytes, or all there are and one timeout
(43_ut_frame.md R163). That a line with no move left answers a timeout, and that its bytes keep `UT.hint` and `UT.idle`,
are the model's choices: log 4, 34. -/
def Obligations.ReadTakesThirtyThree : Prop :=
  ∀ s : State, s.ut.dead = false → s.ut.port.Silent →
    ∃ v : Vector Byte 33,
      v.toList = s.ut.port.rxq.take 33 ++ s.ut.raw.toList.drop s.ut.port.rxq.length ∧
      exec .utRead33 s = .next (s.setUt { s.ut with
        raw := v
        rawcnt := min s.ut.port.rxq.length 33
        closed := true
        status := if 33 ≤ s.ut.port.rxq.length then .ok else .short
        port := { s.ut.port with
          rxq := s.ut.port.rxq.drop 33
          hist := s.ut.port.hist ++ (s.ut.port.rxq.take 33).map (Event.rx .lock) ++
            (if 33 ≤ s.ut.port.rxq.length then [] else [.timeout .lock]) } })

/-- The predicate `weird` (43_ut_frame.md R165). -/
def Obligations.WeirdIsTheListedViolations : Prop :=
  (∀ (raw : List Byte) (c : Nat), weird raw c = true ↔
    c ≠ 33 ∨ (∃ i, i < 30 ∧ i < c ∧ (byteAt raw i).extractLsb' 4 4 ≠ 0x3) ∨
      (30 < c ∧ byteAt raw 30 ≠ 0x0D) ∨ (31 < c ∧ byteAt raw 31 ≠ 0x0A)) ∧
  (∀ raw raw' : List Byte, ∀ c, (∀ i, i ≠ 32 → byteAt raw i = byteAt raw' i) → weird raw c = weird raw' c) ∧
  ∀ raw : List Byte, weird raw 33 = true ↔
    ¬ ((∀ i, i < 30 → (byteAt raw i).extractLsb' 4 4 = 0x3) ∧ byteAt raw 30 = 0x0D ∧ byteAt raw 31 = 0x0A)

/-- A frame with correct prefixes and terminators is reported well formed by `UT.DECRAW`; with any one prefix
nibble changed it is reported malformed (43_ut_frame.md R167). -/
def Obligations.DecrawDetectsFlippedPrefix : Prop :=
  ∀ s : State, s.ut.dead = false → s.ut.rawcnt = 33 → WellFormedRaw s.ut.raw.toList →
    (∃ t, exec .utDecraw s = .next t ∧ t.ut.malformed = false) ∧
    ∀ (i : Nat) (b : Byte), i < 30 → b.extractLsb' 4 4 ≠ 0x3 →
      ∃ t, exec .utDecraw (s.setUt { s.ut with raw := s.ut.raw.setIfInBounds i b }) = .next t ∧
        t.ut.malformed = true

/-- `UT.DECRAW` pairs the nibbles of whatever is in the block, low nibble first, marks the payload valid from 30
bytes on, and invalidates the summary; it changes nothing else (43_ut_frame.md R164, 30_encoding.md R79). A payload
byte whose wire bytes are missing has any value. -/
def Obligations.DecrawPairsNibbles : Prop :=
  ∀ s : State, s.ut.dead = false →
    ∃ v : Vector Byte 15,
      exec .utDecraw s = .next (s.setUt { s.ut with
        payload := v
        malformed := weird s.ut.raw.toList s.ut.rawcnt
        pvalid := decide (30 ≤ s.ut.rawcnt)
        svalid := false
        status := .ok }) ∧
      ∀ k, 2 * k + 1 < min s.ut.rawcnt 33 → k < 15 →
        (byteAt v.toList k).extractLsb' 0 4 = (byteAt s.ut.raw.toList (2 * k)).extractLsb' 0 4 ∧
        (byteAt v.toList k).extractLsb' 4 4 = (byteAt s.ut.raw.toList (2 * k + 1)).extractLsb' 0 4

/-- Every 15-byte payload travels: its raw frame, whatever the trailing byte, is well formed and decodes to it
(30_encoding.md R78, R79). -/
def Obligations.PayloadSurvivesTheWire : Prop :=
  ∀ (payload : List Byte) (last : Byte), payload.length = 15 →
    WellFormedRaw (rawFrameOf payload last) ∧ weird (rawFrameOf payload last) 33 = false ∧
    (payloadOf (rawFrameOf payload last) 33).toList = payload

/-- No 33-byte window that starts inside a frame of a back-to-back stream of well-formed frames passes the checks
(43_ut_frame.md R176). -/
def Obligations.MisalignedWindowIsWeird : Prop :=
  ∀ (f g : List Byte) (o : Nat), WellFormedRaw f → WellFormedRaw g → 1 ≤ o → o ≤ 32 →
    weird (((f ++ g).drop o).take 33) 33 = true

/-- A locked `UT.SYNC` takes the next 33 bytes, or all there are and a timeout. A well-formed frame there delivers its
payload; any other block, or a short one, is dropped, with `W_MALFORMED`, and the channel goes back to `Resync`;
nothing else changes (43_ut_frame.md R163, R164, R168). That a line with no move left answers a timeout, and that the
bytes of a locked read keep `UT.hint` and `UT.idle`, are the model's choices: log 4, 34. -/
def Obligations.SyncTakesTheFrame : Prop :=
  (∀ (s : State) (payload : Vector Byte 15) (frame : Vector Byte 33) (last : Byte) (rest : List Byte),
    s.ut.FrameWaiting payload frame last rest →
    exec .utSync s = .next (s.setUt (s.ut.synced payload frame rest))) ∧
  ∀ (s : State) (n : Nat), s.ut.dead = false → s.ut.mode = .steady → s.ut.port.Silent →
    n = s.ut.port.rxq.length → ¬ WellFormedRaw (s.ut.port.rxq.take 33) →
    ∃ (block : Vector Byte 33) (payload : Vector Byte 15),
      block.toList = s.ut.port.rxq.take 33 ++ s.ut.raw.toList.drop n ∧
      (∀ k, 2 * k + 1 < min n 33 → k < 15 →
        (byteAt payload.toList k).extractLsb' 0 4 = (byteAt block.toList (2 * k)).extractLsb' 0 4 ∧
        (byteAt payload.toList k).extractLsb' 4 4 = (byteAt block.toList (2 * k + 1)).extractLsb' 0 4) ∧
      exec .utSync s = .next (s.setUt { s.ut with
        mode := .resync
        raw := block
        rawcnt := min n 33
        closed := true
        payload := payload
        malformed := true
        pvalid := decide (30 ≤ n)
        svalid := false
        warn := { s.ut.warn with malformed := true }
        status := .dropped
        port := { s.ut.port with
          rxq := s.ut.port.rxq.drop 33
          hist := s.ut.port.hist ++ (s.ut.port.rxq.take 33).map (Event.rx .lock) ++
            (if 33 ≤ n then [] else [.timeout .lock]) } })

/-- An unlocked `UT.SYNC` scans to the gap. Exactly one well-formed frame before it locks, and its payload is delivered.
In general the chunk is the bytes of an open chunk and those queued: with none the scan is `Waiting`, or `Hint`; else the
chunk is judged, dropped with `W_MALFORMED` or locked on (43_ut_frame.md R161, R164, R168). That a line with no move left
answers a timeout, and that `Waiting` and `Hint` keep `W_MALFORMED`, are the model's choices: log 4, 34. -/
def Obligations.SyncScansToTheGap : Prop :=
  (∀ (s : State) (payload : Vector Byte 15) (frame : Vector Byte 33) (last : Byte), s.ut.dead = false →
    s.ut.mode = .resync → (s.ut.closed = true ∨ s.ut.rawcnt = 0) → s.ut.port.Silent →
    frame.toList = rawFrameOf payload.toList last → s.ut.port.rxq = frame.toList →
    exec .utSync s = .next (s.setUt { s.ut.synced payload frame [] with
      mode := .steady
      idle := 0
      hint := false
      port := { s.ut.port with
        rxq := []
        hist := s.ut.port.hist ++ frame.toList.map (Event.rx .scan) ++ [.timeout .scan] } })) ∧
  ∀ (s : State) (n m : Nat) (q : List Byte), s.ut.dead = false → s.ut.mode = .resync → s.ut.port.Silent →
    n = (if s.ut.closed = true then 0 else s.ut.rawcnt) → n ≤ 34 → q = s.ut.port.rxq →
    m = min (n + q.length) 34 →
    (m = 0 → exec .utSync s = .next (s.setUt { s.ut with
      rawcnt := 0
      closed := false
      idle := if s.ut.idle < s.straps.waitLimit then s.ut.idle + 1 else s.ut.idle
      hint := s.ut.hint || decide (s.straps.waitLimit ≤ s.ut.idle)
      status := if s.ut.idle < s.straps.waitLimit then .waiting else .hint
      port := { s.ut.port with hist := s.ut.port.hist ++ [.timeout .scan] } })) ∧
    (m ≠ 0 → ∃ (block : Vector Byte 33) (payload : Vector Byte 15) (bad : Bool),
      block.toList = (s.ut.raw.toList.take n ++ q).take 33 ++ s.ut.raw.toList.drop (n + q.length) ∧
      (bad = false ↔ m = 33 ∧ WellFormedRaw block.toList) ∧
      (∀ k, 2 * k + 1 < min m 33 → k < 15 →
        (byteAt payload.toList k).extractLsb' 0 4 = (byteAt block.toList (2 * k)).extractLsb' 0 4 ∧
        (byteAt payload.toList k).extractLsb' 4 4 = (byteAt block.toList (2 * k + 1)).extractLsb' 0 4) ∧
      exec .utSync s = .next (s.setUt { s.ut with
        mode := if bad then .resync else .steady
        raw := block
        rawcnt := m
        closed := true
        payload := payload
        malformed := bad
        pvalid := decide (30 ≤ m)
        svalid := false
        idle := if q = [] then s.ut.idle else 0
        hint := if q = [] then s.ut.hint else false
        warn := { s.ut.warn with malformed := bad }
        status := if bad then .dropped else .ok
        port := { s.ut.port with
          rxq := []
          hist := s.ut.port.hist ++ q.map (Event.rx .scan) ++ [.timeout .scan] } }))

/-- Every way a `UT.SYNC` that ends can end, with the phase it leaves (43_ut_frame.md R171). That one that does not end
leaves its channel `busy` is the model's choice: log 5. -/
def Obligations.SyncPhaseTable : Prop :=
  ∀ s t : State, s.ut.dead = false → exec .utSync s = .next t → t.ut.busy = false →
    (s.ut.mode = .resync ∧ t.ut.mode = .resync ∧ (t.ut.status = .waiting ∨ t.ut.status = .hint) ∧
      t.ut.payload = s.ut.payload ∧ t.ut.dead = false) ∨
    (t.ut.mode = .resync ∧ t.ut.status = .dropped ∧ t.ut.malformed = true ∧
      weird t.ut.raw.toList t.ut.rawcnt = true ∧ t.ut.warn.malformed = true ∧ t.ut.dead = false) ∨
    (t.ut.mode = .steady ∧ t.ut.status = .ok ∧ t.ut.malformed = false ∧
      weird t.ut.raw.toList t.ut.rawcnt = false ∧ t.ut.warn.malformed = false ∧ t.ut.dead = false) ∨
    (t.ut.mode = s.ut.mode ∧ t.ut.status = .transportError ∧ t.ut.dead = true ∧ t.ut.fault = .transportError)

/-! ### UT display -/

/-- `UT.SUMMARY` maps every field of a well-formed table to its meaning for its own payload byte, holds no other entry,
and changes nothing else (44_ut_lcd.md R180). -/
def Obligations.SummaryMapsEveryField : Prop :=
  ∀ s : State, s.ut.dead = false → s.ut.pvalid = true → LcdTable.wf s.straps.lcdTable = true →
    ∃ m : Summary,
      exec .utSummary s = .next (s.setUt { s.ut with summary := m, svalid := true, status := .ok }) ∧
      (∀ (i : Nat) (fs : List FieldSpec) (f : FieldSpec), s.straps.lcdTable[i]? = some fs → f ∈ fs →
        m.lookup f.name = some (f.meaning (byteAt s.ut.payload.toList i))) ∧
      ∀ e ∈ m, ∃ (i : Nat) (fs : List FieldSpec) (f : FieldSpec), s.straps.lcdTable[i]? = some fs ∧ f ∈ fs ∧
        e = (f.name, f.meaning (byteAt s.ut.payload.toList i))

/-- The meaning of a field: the token listed for the masked value or `Unmapped`; for a multi field the tokens of its
set and listed bits, in ascending order (30_encoding.md R91, R92). That the first of two pairs with one value
counts is the model's choice: log 22. -/
def Obligations.FieldMeanings : Prop :=
  ∀ (f : FieldSpec) (p : Byte),
    (f.kind = .scalar → ∀ tok, List.lookup (p &&& f.mask) f.lookup = some tok → f.meaning p = .scalar tok) ∧
    (f.kind = .scalar → (∀ e ∈ f.lookup, e.1 ≠ p &&& f.mask) → f.meaning p = .unmapped) ∧
    (f.kind = .multi → ∃ js : List Nat, js.Pairwise (· < ·) ∧
      (∀ j, j ∈ js ↔ j < 8 ∧ (p &&& f.mask).getLsbD j = true ∧ (List.lookup ((1 : Byte) <<< j) f.lookup).isSome = true) ∧
      f.meaning p = .list (js.filterMap fun j => List.lookup ((1 : Byte) <<< j) f.lookup))

/-- `UT.LUX`: the blank pattern is no reading; four numeric digits are a reading with the exponent of the flags;
anything else is `LcdNotNumeric`, which changes nothing but the status (44_ut_lcd.md R182, R184). That a digit
field the table lacks reads Unmapped is the model's choice: log 23. -/
def Obligations.LuxReadsTheDigits : Prop :=
  ∀ (s : State) (g3 g2 g1 g0 : Dg), s.ut.dead = false → s.ut.svalid = true →
    g3 = Summary.dg s.ut.summary .big1000 → g2 = Summary.dg s.ut.summary .big100 →
    g1 = Summary.dg s.ut.summary .big10 → g0 = Summary.dg s.ut.summary .big1 →
    (g3 = .tok .blank ∧ g2 = .tok (.digit 0) ∧ g1 = .tok .letterL ∧ g0 = .tok .blank →
      exec .utLux s = .next (s.setUt { s.ut with
        status := .ok, reading := ⟨none, Summary.dg s.ut.summary .unit⟩ })) ∧
    (∀ n3 n2 n1 n0 : Nat, g3.val = some n3 → g2.val = some n2 → g1.val = some n1 → g0.val = some n0 →
      ∃ t h k x : Nat,
        t = (if Summary.has s.ut.summary .tenths = true then 1 else 0) ∧
        h = (if Summary.has s.ut.summary .hundredths = true then 1 else 0) ∧
        k = (if Summary.has s.ut.summary .thousandths = true then 1 else 0) ∧
        x = (if Summary.has s.ut.summary .x10 = true then 1 else 0) ∧
        exec .utLux s = .next (s.setUt { s.ut with
          status := .ok
          reading := ⟨some (1000 * n3 + 100 * n2 + 10 * n1 + n0, (x : Int) - (t + 2 * h + 3 * k)),
            Summary.dg s.ut.summary .unit⟩ })) ∧
    ((∃ g ∈ [g3, g2, g1, g0], g = .tok .letterL ∨ g = .unmapped) →
      ¬ (g3 = .tok .blank ∧ g2 = .tok (.digit 0) ∧ g1 = .tok .letterL ∧ g0 = .tok .blank) →
      exec .utLux s = .next (s.setUt { s.ut with status := .lcdNotNumeric }))

/-- `UT.MON` on a locked channel with a frame waiting: the low-battery flag is written whatever follows, a menu
frame is skipped with the reading kept, else the reading is that of `UT.LUX`, or `LcdNotNumeric` (44_ut_lcd.md
R186, R187). That the script of the line is data of the state, and that the bytes of a locked read keep `UT.hint` and
`UT.idle`, are the model's choices: log 4, 34. -/
def Obligations.MonReadsTheFrame : Prop :=
  ∀ (s : State) (payload : Vector Byte 15) (frame : Vector Byte 33) (last : Byte) (rest : List Byte)
    (m : Summary) (u : Ut),
    s.ut.FrameWaiting payload frame last rest → LcdTable.wf s.straps.lcdTable = true →
    m = summarize s.straps.lcdTable payload.toList →
    u = { s.ut.synced payload frame rest with
      summary := m, svalid := true, warn := ⟨m.has .lowbat, false⟩ } →
    (m.has .menu = true → exec .utMon s = .next (s.setUt { u with status := .skip })) ∧
    (m.has .menu = false → ∀ r, m.reading = some r →
      exec .utMon s = .next (s.setUt { u with status := .ok, reading := r })) ∧
    (m.has .menu = false → m.reading = none →
      exec .utMon s = .next (s.setUt { u with status := .lcdNotNumeric }))

/-- Where `UT.SYNC` does not deliver a frame, `UT.MON` ends as it does; where `UT.MON` does not deliver a reading (no
frame, a menu frame, digits that are no number), `UT.AVG` ends as it does, so its window is untouched (44_ut_lcd.md
R186, R189, R191). Both are refused under an ill-formed table before they begin: log 21. -/
def Obligations.MonPassesSyncThrough : Prop :=
  ∀ s t : State, s.ut.dead = false → LcdTable.wf s.straps.lcdTable = true → t.ut.status ≠ .ok →
    (exec .utSync s = .next t → exec .utMon s = .next t) ∧
    (s.ut.dur ≠ 0 → exec .utMon s = .next t →
      exec .utAvg s = .next t ∧ t.ut.wsum = s.ut.wsum ∧ t.ut.wcnt = s.ut.wcnt ∧ t.ut.avg = s.ut.avg)

/-- `UT.AVG` on a locked channel with a frame waiting that is no menu frame: a null reading is not counted; a
reading joins the window; the one that fills it emits the sum and empties the window (44_ut_lcd.md R189). That the script
of the line is data of the state, and that the bytes of a locked read keep `UT.hint` and `UT.idle`, are the model's
choices: log 4, 34. -/
def Obligations.AvgAddsTheReading : Prop :=
  ∀ (s : State) (payload : Vector Byte 15) (frame : Vector Byte 33) (last : Byte) (rest : List Byte)
    (m : Summary) (u : Ut) (r : Reading),
    s.ut.FrameWaiting payload frame last rest → LcdTable.wf s.straps.lcdTable = true → s.ut.dur ≠ 0 →
    m = summarize s.straps.lcdTable payload.toList → m.has .menu = false → m.reading = some r →
    u = { s.ut.synced payload frame rest with
      summary := m, svalid := true, warn := ⟨m.has .lowbat, false⟩, reading := r } →
    (r.lux = none → exec .utAvg s = .next (s.setUt { u with status := .accum })) ∧
    ∀ n e sum, r.lux = some (n, e) → sum = s.ut.wsum + n * 10 ^ (e + 6).toNat →
      (s.ut.wcnt + 1 ≠ s.ut.dur.toNat * s.straps.utRateHz →
        exec .utAvg s = .next (s.setUt { u with status := .accum, wsum := sum, wcnt := s.ut.wcnt + 1 })) ∧
      (s.ut.wcnt + 1 = s.ut.dur.toNat * s.straps.utRateHz →
        exec .utAvg s = .next (s.setUt { u with
          status := .ok, avg := (sum, s.ut.dur.toNat * s.straps.utRateHz), wsum := 0, wcnt := 0 }))

/-- A full window: as many `UT.AVG` as the window holds, over a queue of that many frames with readings, answer
`Accum` each but the last, which emits the exact mean of them all and empties the window (44_ut_lcd.md R190,
R191). That a locked read takes queued frames with no move of the line between is the model's script: log 4. -/
def Obligations.AvgEmitsTheMeanOfTheWindow : Prop :=
  ∀ (s : State) (frames : List (Vector Byte 15)) (values : List Nat) (last : Byte) (rest : List Byte) (w : Nat),
    s.ut.dead = false → s.ut.mode = .steady → s.ut.port.Silent → s.ut.wcnt = 0 → s.ut.wsum = 0 →
    s.ut.dur ≠ 0 → 1 ≤ s.straps.utRateHz → LcdTable.wf s.straps.lcdTable = true →
    w = s.ut.dur.toNat * s.straps.utRateHz → frames.length = w →
    s.ut.port.rxq = (frames.map fun f => rawFrameOf f.toList last).flatten ++ rest →
    List.Forall₂ (fun f v => Summary.has (summarize s.straps.lcdTable f.toList) .menu = false ∧
      ∃ n e unit, Summary.reading (summarize s.straps.lcdTable f.toList) = some ⟨some (n, e), unit⟩ ∧
        v = n * 10 ^ (e + 6).toNat) frames values →
    ∃ run : Nat → State, run 0 = s ∧
      (∀ j, j < w → exec .utAvg (run j) = .next (run (j + 1)) ∧
        (run (j + 1)).ut.status = if j + 1 = w then .ok else .accum) ∧
      (run w).ut.avg = (values.sum, w) ∧ (run w).ut.wsum = 0 ∧ (run w).ut.wcnt = 0 ∧
      (run w).ut.port.rxq = rest

/-- `UT.START d` writes exactly the registers of 44_ut_lcd.md R192, and keeps the queued bytes. -/
def Obligations.StartEmptiesTheWindow : Prop :=
  ∀ (s : State) (d : BitVec 8), s.ut.dead = false →
    exec (.utStart d) s = .next (s.setUt { s.ut with
      mode := .resync
      rawcnt := 0
      closed := false
      idle := 0
      hint := false
      pvalid := false
      svalid := false
      malformed := false
      warn := ⟨false, false⟩
      dur := d
      wsum := 0
      wcnt := 0
      status := .ok })

/-! ### The wire -/

/-- The wire command of any of the eight command names carries its fourteen bytes, in order, from the head of
`CL.txq` to the wire: fourteen `Wire` moves of 20_memory.md R57, nothing else. Where its frame is not there it
is refused (log 11). That a wire command stands for fourteen moves of the line, and is refused where its frame
is not queued, is the model's choice: log 11. -/
def Obligations.WireCommandCarriesItsFrame : Prop :=
  ∀ (s : State) (c : CmdId), Template.wf (s.straps.cmdTable.get c) = true →
    (∀ rest, s.cl.port.txq = cmdFrame s.straps c ++ rest →
      exec c.instr s = .next (s.setCl { s.cl with port := { s.cl.port with
        txq := rest, wire := s.cl.port.wire ++ cmdFrame s.straps c } }) ∧
      exec c.instr s = .next (s.setCl (s.cl.setPort (s.cl.port.moves (List.replicate 14 .wire))))) ∧
    ((∀ rest, s.cl.port.txq ≠ cmdFrame s.straps c ++ rest) → exec c.instr s = .refused .frameNotQueued)

/-! ### The whole machine -/

/-- The status queries deliver the words of 42_cl_sequencer.md R152 and 44_ut_lcd.md R193, dead or not, and change
nothing of the engine. That the word is delivered to a list, and that a wider count is cut to its field, are the
model's choices: log 10, 25. -/
def Obligations.StatusWordFields : Prop :=
  ∀ s : State,
    (∃ w : StatusWord, exec .clStatus s = .next (s.setCl { s.cl with out := s.cl.out ++ [w] }) ∧
      w.extractLsb' 0 3 = s.cl.hs.code ∧ w.getLsbD 3 = decide (s.cl.hs ≠ .faulted) ∧
      w.getLsbD 4 = s.cl.warn.range ∧ w.getLsbD 5 = s.cl.warn.lowLum ∧ w.getLsbD 6 = s.cl.warn.hsLenient ∧
      w.getLsbD 7 = s.cl.warn.overrun ∧ w.extractLsb' 8 8 = s.cl.fault.byte ∧
      w.extractLsb' 16 2 = BitVec.ofNat 2 s.cl.pcTry ∧ w.extractLsb' 18 2 = BitVec.ofNat 2 s.cl.extTry ∧
      w.extractLsb' 20 4 = 0 ∧ w.extractLsb' 24 8 = s.cl.status.byte) ∧
    ∃ w : StatusWord, exec .utStatus s = .next (s.setUt { s.ut with out := s.ut.out ++ [w] }) ∧
      w.getLsbD 0 = decide (s.ut.mode = .steady) ∧ w.getLsbD 1 = s.ut.dead ∧ w.getLsbD 2 = s.ut.hint ∧
      w.getLsbD 3 = s.ut.malformed ∧ w.getLsbD 4 = s.ut.warn.lowBat ∧ w.getLsbD 5 = s.ut.warn.malformed ∧
      w.getLsbD 6 = s.ut.pvalid ∧ w.getLsbD 7 = s.ut.svalid ∧ w.extractLsb' 8 8 = s.ut.fault.byte ∧
      w.extractLsb' 16 4 = BitVec.ofNat 4 s.ut.idle ∧ w.extractLsb' 20 4 = 0 ∧
      w.extractLsb' 24 8 = s.ut.status.byte

/-- An operation whose own precondition fails is refused with the code 60_exceptions.md R211 puts first, and changes
nothing but the status register. That a refusal leaves the result registers as they were, that `UT.MON` and `UT.AVG` are
refused under an ill-formed table before they begin, and that `CL.MEAS` of no read command is no operation, are the
model's choices: log 14, 21, 24. -/
def Obligations.RefusalsInOrder : Prop :=
  ∀ (s : State) (i : Instr) (x : Code), i.operandsWf = true → s.ownRefusal i = some x →
    (i.channel = some .cl → s.cl.hs ≠ .faulted → exec i s = .next (s.setCl { s.cl with status := x })) ∧
    (i.channel = some .ut → s.ut.dead = false → exec i s = .next (s.setUt { s.ut with status := x }))

/-- A dead channel answers every operation but its status query with its refusal and nothing else (60_exceptions.md
R222). That a refusal leaves the result registers as they were is the model's choice: log 14. -/
def Obligations.DeadChannelRefuses : Prop :=
  ∀ (s : State) (i : Instr), i.operandsWf = true →
    (i.channel = some .cl → i ≠ .clStatus → s.cl.hs = .faulted →
      (s.straps.faultStyle = .refuse → exec i s = .next (s.setCl { s.cl with status := .dead })) ∧
      (s.straps.faultStyle = .empty → exec i s = .next (s.setCl { s.cl with
        status := .deadEmpty, res := { s.cl.res with nres := 0 } }))) ∧
    (i.channel = some .ut → i ≠ .utStatus → s.ut.dead = true →
      exec i s = .next (s.setUt { s.ut with status := .dead }))

/-- An operation reads and writes its own channel only: the other is untouched, and what happens does not depend on
it (00_scope.md R3, 60_exceptions.md R220). That a wire command belongs to channel CL is the model's choice: log
11. -/
def Obligations.ChannelsAreIndependent : Prop :=
  ∀ (s s' t : State) (i : Instr), s.straps = s'.straps → exec i s = .next t →
    t.straps = s.straps ∧ t.agenda = s.agenda ∧
    (i.channel ≠ some .ut → t.ut = s.ut ∧ (s.cl = s'.cl → exec i s' = .next (s'.setCl t.cl))) ∧
    (i.channel = some .ut → t.cl = s.cl ∧ (s.ut = s'.ut → exec i s' = .next (s'.setUt t.ut)))

/-- Whenever a primitive of a `CL` operation answers `LinkErr`, the operation ends there with `TransportError` and
the channel is `Faulted` (40_cl_framer.md R115). -/
def Obligations.ClLinkErrorEndsTheOperation : Prop :=
  ∀ (s t : State) (i : Instr) (evs : List Event) (w : Option Wait), exec i s = .next t →
    t.cl.port.hist = s.cl.port.hist ++ evs → Event.linkErr w ∈ evs →
    t.cl.status = .transportError ∧ t.cl.hs = .faulted ∧ t.cl.fault = .transportError ∧
    ∃ before, evs = before ++ [.linkErr w] ∧ ∀ v, Event.linkErr v ∉ before

/-- Whenever a primitive of a `UT` operation answers `LinkErr`, the operation ends there with `TransportError` and
the channel is dead (43_ut_frame.md R160). -/
def Obligations.UtLinkErrorEndsTheOperation : Prop :=
  ∀ (s t : State) (i : Instr) (evs : List Event) (w : Option Wait), exec i s = .next t →
    t.ut.port.hist = s.ut.port.hist ++ evs → Event.linkErr w ∈ evs →
    t.ut.status = .transportError ∧ t.ut.dead = true ∧ t.ut.fault = .transportError ∧
    ∃ before, evs = before ++ [.linkErr w] ∧ ∀ v, Event.linkErr v ∉ before

/-- A host operation ends, unless the line leaves one of its own primitives unanswered, or, for the operations that read
a line, delivers bytes without `LF` for ever, or, for those that scan in the resync phase, never pauses; the engine's own
loops are bounded. With such bytes each of those operations, where it is not refused, does not end
(70_reset_and_hazards.md R246, 40_cl_framer.md R113, 43_ut_frame.md R177). That an operation that
does not end leaves its channel `busy`, the form of an endless stream, and that `UT.MON` and `UT.AVG` are refused under an
ill-formed table, are the model's choices: log 4, 5, 21. -/
def Obligations.OperationsEndIfAnswered : Prop :=
  (∀ (s : State) (i : Instr), i.channel = some .cl → ∃ t, exec i s = .next t ∧
    (t.cl.busy = true → s.cl.busy = true ∨ s.cl.port.Unanswered t.cl.port ∨
      i.ReadsLine ∧ t.cl.port.EndlessNoLf)) ∧
  (∀ (s : State) (i : Instr), i.channel = some .ut → ∃ t, exec i s = .next t ∧
    (t.ut.busy = true → s.ut.busy = true ∨ s.ut.port.Unanswered t.ut.port ∨
      i.Scans ∧ s.ut.mode = .resync ∧ t.ut.port.Endless)) ∧
  (∀ (s : State) (i : Instr), i.ReadsLine → i.operandsWf = true → s.cl.hs ≠ .faulted → s.ownRefusal i = none →
    s.cl.port.broken = false → s.cl.port.EndlessNoLf → (i = .clRxline → lf ∉ s.cl.port.rxq) →
    (i = .clInit → 1 ≤ s.straps.pcAttempts ∨ s.straps.hsStrict = false) →
    ∃ t, exec i s = .next t ∧ t.cl.busy = true) ∧
  ∀ (s : State) (i : Instr), i.Scans → s.ut.dead = false → s.ownRefusal i = none → s.ut.mode = .resync →
    s.ut.port.broken = false → s.ut.port.Endless → ∃ t, exec i s = .next t ∧ t.ut.busy = true

/-- Every step keeps the machine in range: every register within the bounds 10_state.md gives it. The bounds on the
parameters are the model's premise, and that a channel inside an operation that does not end may be on its way through
the handshake is the model's choice: log 5, 28. -/
def Obligations.StepKeepsRanges : Prop := ∀ s t : State, s.Wf → step s = .next t → t.Wf

/-- The machine after reset is in range, under the parameters at reset and under any in their bounds. The values of
the registers the spec leaves unspecified at reset are the model's choice: log 17. -/
def Obligations.ResetIsInRange : Prop := State.reset.Wf ∧ ∀ p : Straps, p.Wf → (State.resetWith p).Wf
end

