-- ==== Sys2Proof/Laws/State.lean ====
section
/-! SUPPORT. One lemma per field per named update of the state, so that no proof unfolds a record update. -/

namespace Sys2Proof.Machine

@[simp] theorem State.setCl_straps (s : State) (c : Cl) : (s.setCl c).straps = s.straps := rfl
@[simp] theorem State.setCl_cl (s : State) (c : Cl) : (s.setCl c).cl = c := rfl
@[simp] theorem State.setCl_ut (s : State) (c : Cl) : (s.setCl c).ut = s.ut := rfl
@[simp] theorem State.setCl_agenda (s : State) (c : Cl) : (s.setCl c).agenda = s.agenda := rfl

@[simp] theorem State.setUt_straps (s : State) (u : Ut) : (s.setUt u).straps = s.straps := rfl
@[simp] theorem State.setUt_cl (s : State) (u : Ut) : (s.setUt u).cl = s.cl := rfl
@[simp] theorem State.setUt_ut (s : State) (u : Ut) : (s.setUt u).ut = u := rfl
@[simp] theorem State.setUt_agenda (s : State) (u : Ut) : (s.setUt u).agenda = s.agenda := rfl

@[simp] theorem State.setAgenda_straps (s : State) (a : List Action) : (s.setAgenda a).straps = s.straps := rfl
@[simp] theorem State.setAgenda_cl (s : State) (a : List Action) : (s.setAgenda a).cl = s.cl := rfl
@[simp] theorem State.setAgenda_ut (s : State) (a : List Action) : (s.setAgenda a).ut = s.ut := rfl
@[simp] theorem State.setAgenda_agenda (s : State) (a : List Action) : (s.setAgenda a).agenda = a := rfl

@[simp] theorem Cl.setPort_hs (c : Cl) (p : Port) : (c.setPort p).hs = c.hs := rfl
@[simp] theorem Cl.setPort_fault (c : Cl) (p : Port) : (c.setPort p).fault = c.fault := rfl
@[simp] theorem Cl.setPort_warn (c : Cl) (p : Port) : (c.setPort p).warn = c.warn := rfl
@[simp] theorem Cl.setPort_txbuf (c : Cl) (p : Port) : (c.setPort p).txbuf = c.txbuf := rfl
@[simp] theorem Cl.setPort_txlen (c : Cl) (p : Port) : (c.setPort p).txlen = c.txlen := rfl
@[simp] theorem Cl.setPort_rxline (c : Cl) (p : Port) : (c.setPort p).rxline = c.rxline := rfl
@[simp] theorem Cl.setPort_rxlen (c : Cl) (p : Port) : (c.setPort p).rxlen = c.rxlen := rfl
@[simp] theorem Cl.setPort_rxstat (c : Cl) (p : Port) : (c.setPort p).rxstat = c.rxstat := rfl
@[simp] theorem Cl.setPort_status (c : Cl) (p : Port) : (c.setPort p).status = c.status := rfl
@[simp] theorem Cl.setPort_res (c : Cl) (p : Port) : (c.setPort p).res = c.res := rfl
@[simp] theorem Cl.setPort_pcTry (c : Cl) (p : Port) : (c.setPort p).pcTry = c.pcTry := rfl
@[simp] theorem Cl.setPort_extTry (c : Cl) (p : Port) : (c.setPort p).extTry = c.extTry := rfl
@[simp] theorem Cl.setPort_port (c : Cl) (p : Port) : (c.setPort p).port = p := rfl
@[simp] theorem Cl.setPort_out (c : Cl) (p : Port) : (c.setPort p).out = c.out := rfl
@[simp] theorem Cl.setPort_free (c : Cl) (p : Port) : (c.setPort p).free = c.free := rfl
@[simp] theorem Cl.setPort_busy (c : Cl) (p : Port) : (c.setPort p).busy = c.busy := rfl

@[simp] theorem Cl.setStatus_hs (c : Cl) (x : Code) : (c.setStatus x).hs = c.hs := rfl
@[simp] theorem Cl.setStatus_fault (c : Cl) (x : Code) : (c.setStatus x).fault = c.fault := rfl
@[simp] theorem Cl.setStatus_warn (c : Cl) (x : Code) : (c.setStatus x).warn = c.warn := rfl
@[simp] theorem Cl.setStatus_txbuf (c : Cl) (x : Code) : (c.setStatus x).txbuf = c.txbuf := rfl
@[simp] theorem Cl.setStatus_txlen (c : Cl) (x : Code) : (c.setStatus x).txlen = c.txlen := rfl
@[simp] theorem Cl.setStatus_rxline (c : Cl) (x : Code) : (c.setStatus x).rxline = c.rxline := rfl
@[simp] theorem Cl.setStatus_rxlen (c : Cl) (x : Code) : (c.setStatus x).rxlen = c.rxlen := rfl
@[simp] theorem Cl.setStatus_rxstat (c : Cl) (x : Code) : (c.setStatus x).rxstat = c.rxstat := rfl
@[simp] theorem Cl.setStatus_status (c : Cl) (x : Code) : (c.setStatus x).status = x := rfl
@[simp] theorem Cl.setStatus_res (c : Cl) (x : Code) : (c.setStatus x).res = c.res := rfl
@[simp] theorem Cl.setStatus_pcTry (c : Cl) (x : Code) : (c.setStatus x).pcTry = c.pcTry := rfl
@[simp] theorem Cl.setStatus_extTry (c : Cl) (x : Code) : (c.setStatus x).extTry = c.extTry := rfl
@[simp] theorem Cl.setStatus_port (c : Cl) (x : Code) : (c.setStatus x).port = c.port := rfl
@[simp] theorem Cl.setStatus_out (c : Cl) (x : Code) : (c.setStatus x).out = c.out := rfl
@[simp] theorem Cl.setStatus_free (c : Cl) (x : Code) : (c.setStatus x).free = c.free := rfl
@[simp] theorem Cl.setStatus_busy (c : Cl) (x : Code) : (c.setStatus x).busy = c.busy := rfl

@[simp] theorem Cl.setRes_hs (c : Cl) (r : ClResults) : (c.setRes r).hs = c.hs := rfl
@[simp] theorem Cl.setRes_fault (c : Cl) (r : ClResults) : (c.setRes r).fault = c.fault := rfl
@[simp] theorem Cl.setRes_warn (c : Cl) (r : ClResults) : (c.setRes r).warn = c.warn := rfl
@[simp] theorem Cl.setRes_txbuf (c : Cl) (r : ClResults) : (c.setRes r).txbuf = c.txbuf := rfl
@[simp] theorem Cl.setRes_txlen (c : Cl) (r : ClResults) : (c.setRes r).txlen = c.txlen := rfl
@[simp] theorem Cl.setRes_rxline (c : Cl) (r : ClResults) : (c.setRes r).rxline = c.rxline := rfl
@[simp] theorem Cl.setRes_rxlen (c : Cl) (r : ClResults) : (c.setRes r).rxlen = c.rxlen := rfl
@[simp] theorem Cl.setRes_rxstat (c : Cl) (r : ClResults) : (c.setRes r).rxstat = c.rxstat := rfl
@[simp] theorem Cl.setRes_status (c : Cl) (r : ClResults) : (c.setRes r).status = c.status := rfl
@[simp] theorem Cl.setRes_res (c : Cl) (r : ClResults) : (c.setRes r).res = r := rfl
@[simp] theorem Cl.setRes_pcTry (c : Cl) (r : ClResults) : (c.setRes r).pcTry = c.pcTry := rfl
@[simp] theorem Cl.setRes_extTry (c : Cl) (r : ClResults) : (c.setRes r).extTry = c.extTry := rfl
@[simp] theorem Cl.setRes_port (c : Cl) (r : ClResults) : (c.setRes r).port = c.port := rfl
@[simp] theorem Cl.setRes_out (c : Cl) (r : ClResults) : (c.setRes r).out = c.out := rfl
@[simp] theorem Cl.setRes_free (c : Cl) (r : ClResults) : (c.setRes r).free = c.free := rfl
@[simp] theorem Cl.setRes_busy (c : Cl) (r : ClResults) : (c.setRes r).busy = c.busy := rfl

@[simp] theorem Cl.setHs_hs (c : Cl) (h : Hs) : (c.setHs h).hs = h := rfl
@[simp] theorem Cl.setHs_fault (c : Cl) (h : Hs) : (c.setHs h).fault = c.fault := rfl
@[simp] theorem Cl.setHs_warn (c : Cl) (h : Hs) : (c.setHs h).warn = c.warn := rfl
@[simp] theorem Cl.setHs_txbuf (c : Cl) (h : Hs) : (c.setHs h).txbuf = c.txbuf := rfl
@[simp] theorem Cl.setHs_txlen (c : Cl) (h : Hs) : (c.setHs h).txlen = c.txlen := rfl
@[simp] theorem Cl.setHs_rxline (c : Cl) (h : Hs) : (c.setHs h).rxline = c.rxline := rfl
@[simp] theorem Cl.setHs_rxlen (c : Cl) (h : Hs) : (c.setHs h).rxlen = c.rxlen := rfl
@[simp] theorem Cl.setHs_rxstat (c : Cl) (h : Hs) : (c.setHs h).rxstat = c.rxstat := rfl
@[simp] theorem Cl.setHs_status (c : Cl) (h : Hs) : (c.setHs h).status = c.status := rfl
@[simp] theorem Cl.setHs_res (c : Cl) (h : Hs) : (c.setHs h).res = c.res := rfl
@[simp] theorem Cl.setHs_pcTry (c : Cl) (h : Hs) : (c.setHs h).pcTry = c.pcTry := rfl
@[simp] theorem Cl.setHs_extTry (c : Cl) (h : Hs) : (c.setHs h).extTry = c.extTry := rfl
@[simp] theorem Cl.setHs_port (c : Cl) (h : Hs) : (c.setHs h).port = c.port := rfl
@[simp] theorem Cl.setHs_out (c : Cl) (h : Hs) : (c.setHs h).out = c.out := rfl
@[simp] theorem Cl.setHs_free (c : Cl) (h : Hs) : (c.setHs h).free = c.free := rfl
@[simp] theorem Cl.setHs_busy (c : Cl) (h : Hs) : (c.setHs h).busy = c.busy := rfl

@[simp] theorem Ut.setPort_mode (u : Ut) (p : Port) : (u.setPort p).mode = u.mode := rfl
@[simp] theorem Ut.setPort_dead (u : Ut) (p : Port) : (u.setPort p).dead = u.dead := rfl
@[simp] theorem Ut.setPort_fault (u : Ut) (p : Port) : (u.setPort p).fault = u.fault := rfl
@[simp] theorem Ut.setPort_raw (u : Ut) (p : Port) : (u.setPort p).raw = u.raw := rfl
@[simp] theorem Ut.setPort_rawcnt (u : Ut) (p : Port) : (u.setPort p).rawcnt = u.rawcnt := rfl
@[simp] theorem Ut.setPort_closed (u : Ut) (p : Port) : (u.setPort p).closed = u.closed := rfl
@[simp] theorem Ut.setPort_payload (u : Ut) (p : Port) : (u.setPort p).payload = u.payload := rfl
@[simp] theorem Ut.setPort_malformed (u : Ut) (p : Port) : (u.setPort p).malformed = u.malformed := rfl
@[simp] theorem Ut.setPort_pvalid (u : Ut) (p : Port) : (u.setPort p).pvalid = u.pvalid := rfl
@[simp] theorem Ut.setPort_idle (u : Ut) (p : Port) : (u.setPort p).idle = u.idle := rfl
@[simp] theorem Ut.setPort_hint (u : Ut) (p : Port) : (u.setPort p).hint = u.hint := rfl
@[simp] theorem Ut.setPort_summary (u : Ut) (p : Port) : (u.setPort p).summary = u.summary := rfl
@[simp] theorem Ut.setPort_svalid (u : Ut) (p : Port) : (u.setPort p).svalid = u.svalid := rfl
@[simp] theorem Ut.setPort_reading (u : Ut) (p : Port) : (u.setPort p).reading = u.reading := rfl
@[simp] theorem Ut.setPort_dur (u : Ut) (p : Port) : (u.setPort p).dur = u.dur := rfl
@[simp] theorem Ut.setPort_wcnt (u : Ut) (p : Port) : (u.setPort p).wcnt = u.wcnt := rfl
@[simp] theorem Ut.setPort_wsum (u : Ut) (p : Port) : (u.setPort p).wsum = u.wsum := rfl
@[simp] theorem Ut.setPort_avg (u : Ut) (p : Port) : (u.setPort p).avg = u.avg := rfl
@[simp] theorem Ut.setPort_warn (u : Ut) (p : Port) : (u.setPort p).warn = u.warn := rfl
@[simp] theorem Ut.setPort_status (u : Ut) (p : Port) : (u.setPort p).status = u.status := rfl
@[simp] theorem Ut.setPort_port (u : Ut) (p : Port) : (u.setPort p).port = p := rfl
@[simp] theorem Ut.setPort_out (u : Ut) (p : Port) : (u.setPort p).out = u.out := rfl
@[simp] theorem Ut.setPort_busy (u : Ut) (p : Port) : (u.setPort p).busy = u.busy := rfl

@[simp] theorem Ut.setStatus_mode (u : Ut) (x : Code) : (u.setStatus x).mode = u.mode := rfl
@[simp] theorem Ut.setStatus_dead (u : Ut) (x : Code) : (u.setStatus x).dead = u.dead := rfl
@[simp] theorem Ut.setStatus_fault (u : Ut) (x : Code) : (u.setStatus x).fault = u.fault := rfl
@[simp] theorem Ut.setStatus_raw (u : Ut) (x : Code) : (u.setStatus x).raw = u.raw := rfl
@[simp] theorem Ut.setStatus_rawcnt (u : Ut) (x : Code) : (u.setStatus x).rawcnt = u.rawcnt := rfl
@[simp] theorem Ut.setStatus_closed (u : Ut) (x : Code) : (u.setStatus x).closed = u.closed := rfl
@[simp] theorem Ut.setStatus_payload (u : Ut) (x : Code) : (u.setStatus x).payload = u.payload := rfl
@[simp] theorem Ut.setStatus_malformed (u : Ut) (x : Code) : (u.setStatus x).malformed = u.malformed := rfl
@[simp] theorem Ut.setStatus_pvalid (u : Ut) (x : Code) : (u.setStatus x).pvalid = u.pvalid := rfl
@[simp] theorem Ut.setStatus_idle (u : Ut) (x : Code) : (u.setStatus x).idle = u.idle := rfl
@[simp] theorem Ut.setStatus_hint (u : Ut) (x : Code) : (u.setStatus x).hint = u.hint := rfl
@[simp] theorem Ut.setStatus_summary (u : Ut) (x : Code) : (u.setStatus x).summary = u.summary := rfl
@[simp] theorem Ut.setStatus_svalid (u : Ut) (x : Code) : (u.setStatus x).svalid = u.svalid := rfl
@[simp] theorem Ut.setStatus_reading (u : Ut) (x : Code) : (u.setStatus x).reading = u.reading := rfl
@[simp] theorem Ut.setStatus_dur (u : Ut) (x : Code) : (u.setStatus x).dur = u.dur := rfl
@[simp] theorem Ut.setStatus_wcnt (u : Ut) (x : Code) : (u.setStatus x).wcnt = u.wcnt := rfl
@[simp] theorem Ut.setStatus_wsum (u : Ut) (x : Code) : (u.setStatus x).wsum = u.wsum := rfl
@[simp] theorem Ut.setStatus_avg (u : Ut) (x : Code) : (u.setStatus x).avg = u.avg := rfl
@[simp] theorem Ut.setStatus_warn (u : Ut) (x : Code) : (u.setStatus x).warn = u.warn := rfl
@[simp] theorem Ut.setStatus_status (u : Ut) (x : Code) : (u.setStatus x).status = x := rfl
@[simp] theorem Ut.setStatus_port (u : Ut) (x : Code) : (u.setStatus x).port = u.port := rfl
@[simp] theorem Ut.setStatus_out (u : Ut) (x : Code) : (u.setStatus x).out = u.out := rfl
@[simp] theorem Ut.setStatus_busy (u : Ut) (x : Code) : (u.setStatus x).busy = u.busy := rfl

@[simp] theorem Cl.hang_hs (c : Cl) : c.hang.hs = c.hs := rfl
@[simp] theorem Cl.hang_fault (c : Cl) : c.hang.fault = c.fault := rfl
@[simp] theorem Cl.hang_warn (c : Cl) : c.hang.warn = c.warn := rfl
@[simp] theorem Cl.hang_txbuf (c : Cl) : c.hang.txbuf = c.txbuf := rfl
@[simp] theorem Cl.hang_txlen (c : Cl) : c.hang.txlen = c.txlen := rfl
@[simp] theorem Cl.hang_rxline (c : Cl) : c.hang.rxline = c.rxline := rfl
@[simp] theorem Cl.hang_rxlen (c : Cl) : c.hang.rxlen = c.rxlen := rfl
@[simp] theorem Cl.hang_rxstat (c : Cl) : c.hang.rxstat = c.rxstat := rfl
@[simp] theorem Cl.hang_status (c : Cl) : c.hang.status = c.status := rfl
@[simp] theorem Cl.hang_res (c : Cl) : c.hang.res = c.res := rfl
@[simp] theorem Cl.hang_pcTry (c : Cl) : c.hang.pcTry = c.pcTry := rfl
@[simp] theorem Cl.hang_extTry (c : Cl) : c.hang.extTry = c.extTry := rfl
@[simp] theorem Cl.hang_port (c : Cl) : c.hang.port = c.port := rfl
@[simp] theorem Cl.hang_out (c : Cl) : c.hang.out = c.out := rfl
@[simp] theorem Cl.hang_free (c : Cl) : c.hang.free = c.free := rfl
@[simp] theorem Cl.hang_busy (c : Cl) : c.hang.busy = true := rfl

@[simp] theorem Ut.hang_mode (u : Ut) : u.hang.mode = u.mode := rfl
@[simp] theorem Ut.hang_dead (u : Ut) : u.hang.dead = u.dead := rfl
@[simp] theorem Ut.hang_fault (u : Ut) : u.hang.fault = u.fault := rfl
@[simp] theorem Ut.hang_raw (u : Ut) : u.hang.raw = u.raw := rfl
@[simp] theorem Ut.hang_rawcnt (u : Ut) : u.hang.rawcnt = u.rawcnt := rfl
@[simp] theorem Ut.hang_closed (u : Ut) : u.hang.closed = u.closed := rfl
@[simp] theorem Ut.hang_payload (u : Ut) : u.hang.payload = u.payload := rfl
@[simp] theorem Ut.hang_malformed (u : Ut) : u.hang.malformed = u.malformed := rfl
@[simp] theorem Ut.hang_pvalid (u : Ut) : u.hang.pvalid = u.pvalid := rfl
@[simp] theorem Ut.hang_idle (u : Ut) : u.hang.idle = u.idle := rfl
@[simp] theorem Ut.hang_hint (u : Ut) : u.hang.hint = u.hint := rfl
@[simp] theorem Ut.hang_summary (u : Ut) : u.hang.summary = u.summary := rfl
@[simp] theorem Ut.hang_svalid (u : Ut) : u.hang.svalid = u.svalid := rfl
@[simp] theorem Ut.hang_reading (u : Ut) : u.hang.reading = u.reading := rfl
@[simp] theorem Ut.hang_dur (u : Ut) : u.hang.dur = u.dur := rfl
@[simp] theorem Ut.hang_wcnt (u : Ut) : u.hang.wcnt = u.wcnt := rfl
@[simp] theorem Ut.hang_wsum (u : Ut) : u.hang.wsum = u.wsum := rfl
@[simp] theorem Ut.hang_avg (u : Ut) : u.hang.avg = u.avg := rfl
@[simp] theorem Ut.hang_warn (u : Ut) : u.hang.warn = u.warn := rfl
@[simp] theorem Ut.hang_status (u : Ut) : u.hang.status = u.status := rfl
@[simp] theorem Ut.hang_port (u : Ut) : u.hang.port = u.port := rfl
@[simp] theorem Ut.hang_out (u : Ut) : u.hang.out = u.out := rfl
@[simp] theorem Ut.hang_busy (u : Ut) : u.hang.busy = true := rfl

@[simp] theorem Port.record_rxq (p : Port) (e : Event) : (p.record e).rxq = p.rxq := rfl
@[simp] theorem Port.record_txq (p : Port) (e : Event) : (p.record e).txq = p.txq := rfl
@[simp] theorem Port.record_broken (p : Port) (e : Event) : (p.record e).broken = p.broken := rfl
@[simp] theorem Port.record_hist (p : Port) (e : Event) : (p.record e).hist = p.hist ++ [e] := rfl
@[simp] theorem Port.record_turns (p : Port) (e : Event) : (p.record e).turns = p.turns := rfl
@[simp] theorem Port.record_stream (p : Port) (e : Event) : (p.record e).stream = p.stream := rfl
@[simp] theorem Port.record_wire (p : Port) (e : Event) : (p.record e).wire = p.wire := rfl

/-- Writing back the channel a state has changes nothing. -/
@[simp] theorem State.setCl_self (s : State) : s.setCl s.cl = s := rfl
/-- Writing back the channel a state has changes nothing. -/
@[simp] theorem State.setUt_self (s : State) : s.setUt s.ut = s := rfl
/-- The last of two writes of one channel counts. -/
@[simp] theorem State.setCl_setCl (s : State) (c d : Cl) : (s.setCl c).setCl d = s.setCl d := rfl
/-- The last of two writes of one channel counts. -/
@[simp] theorem State.setUt_setUt (s : State) (c d : Ut) : (s.setUt c).setUt d = s.setUt d := rfl
/-- The agenda and the channels are apart. -/
@[simp] theorem State.setAgenda_setCl (s : State) (a : List Action) (c : Cl) :
    (s.setAgenda a).setCl c = (s.setCl c).setAgenda a := rfl
/-- The agenda and the channels are apart. -/
@[simp] theorem State.setAgenda_setUt (s : State) (a : List Action) (u : Ut) :
    (s.setAgenda a).setUt u = (s.setUt u).setAgenda a := rfl

end Sys2Proof.Machine
end

