-- ==== Sys2Proof/Laws/Ops.lean ====
section
/-! SUPPORT. For each shared operation, what it can do: the line's moves, the four primitives, sequencing, the send
and receive loops, fault entry, and the shapes of whole operations. -/

/-- `ACK54` at reset takes every line but the empty one (00_scope.md R8). -/
@[simp] theorem Sys2Proof.Config.ack54_accepts (line : List Sys2Proof.Byte) :
    Sys2Proof.Config.ack54.accepts line = decide (line ≠ []) := by
  cases line <;> simp [Sys2Proof.Config.ack54, Sys2Proof.AckRule.accepts]

namespace Sys2Proof.Machine

open Host

/-! ### The line's moves -/

/-- The byte a move delivers. -/
def LineMove.delivered : LineMove → Option Byte
  | .deliver b => some b
  | .wire => none
  | .breakLink => none

@[simp] theorem Port.move_hist (p : Port) (m : LineMove) : (p.move m).hist = p.hist := by
  cases m with
  | wire => simp only [Port.move]; split <;> rfl
  | _ => rfl

@[simp] theorem Port.move_turns (p : Port) (m : LineMove) : (p.move m).turns = p.turns := by
  cases m with
  | wire => simp only [Port.move]; split <;> rfl
  | _ => rfl

@[simp] theorem Port.move_stream (p : Port) (m : LineMove) : (p.move m).stream = p.stream := by
  cases m with
  | wire => simp only [Port.move]; split <;> rfl
  | _ => rfl

/-- A move puts a byte on the wire only from the head of the transmit queue (20_memory.md R57, R67). -/
theorem Port.move_wire_txq (p : Port) (m : LineMove) : (p.move m).wire ++ (p.move m).txq = p.wire ++ p.txq := by
  cases m with
  | wire => simp only [Port.move]; split <;> simp_all
  | _ => rfl

/-- A move appends what it delivers to the receive queue. -/
theorem Port.move_rxq (p : Port) (m : LineMove) : (p.move m).rxq = p.rxq ++ m.delivered.toList := by
  cases m with
  | wire => simp only [Port.move]; split <;> simp [LineMove.delivered]
  | _ => simp [Port.move, LineMove.delivered]

/-- A move that does not break the link leaves it as it is. -/
theorem Port.move_broken (p : Port) (m : LineMove) (h : m ≠ .breakLink) : (p.move m).broken = p.broken := by
  cases m with
  | wire => simp only [Port.move]; split <;> rfl
  | breakLink => exact absurd rfl h
  | _ => rfl

/-- With nothing to transmit, no move puts anything on the wire. -/
theorem Port.move_idle_tx (p : Port) (m : LineMove) (h : p.txq = []) :
    (p.move m).txq = [] ∧ (p.move m).wire = p.wire := by
  cases m <;> simp [Port.move, h]

@[simp] theorem Port.moves_nil (p : Port) : p.moves [] = p := rfl

@[simp] theorem Port.moves_cons (p : Port) (m : LineMove) (ms : List LineMove) :
    p.moves (m :: ms) = (p.move m).moves ms := rfl

@[simp] theorem Port.moves_hist (p : Port) (ms : List LineMove) : (p.moves ms).hist = p.hist := by
  induction ms generalizing p with
  | nil => rfl
  | cons m ms ih => simp [ih]

@[simp] theorem Port.moves_turns (p : Port) (ms : List LineMove) : (p.moves ms).turns = p.turns := by
  induction ms generalizing p with
  | nil => rfl
  | cons m ms ih => simp [ih]

@[simp] theorem Port.moves_stream (p : Port) (ms : List LineMove) : (p.moves ms).stream = p.stream := by
  induction ms generalizing p with
  | nil => rfl
  | cons m ms ih => simp [ih]

theorem Port.moves_wire_txq (p : Port) (ms : List LineMove) :
    (p.moves ms).wire ++ (p.moves ms).txq = p.wire ++ p.txq := by
  induction ms generalizing p with
  | nil => rfl
  | cons m ms ih => rw [Port.moves_cons, ih, Port.move_wire_txq]

theorem Port.moves_rxq (p : Port) (ms : List LineMove) :
    (p.moves ms).rxq = p.rxq ++ ms.filterMap LineMove.delivered := by
  induction ms generalizing p with
  | nil => simp
  | cons m ms ih =>
    rw [Port.moves_cons, ih, Port.move_rxq]
    cases m <;> simp [LineMove.delivered, List.filterMap_cons]

theorem Port.moves_broken (p : Port) (ms : List LineMove) (h : LineMove.breakLink ∉ ms) :
    (p.moves ms).broken = p.broken := by
  induction ms generalizing p with
  | nil => rfl
  | cons m ms ih =>
    simp only [List.mem_cons, not_or] at h
    rw [Port.moves_cons, ih _ h.2, Port.move_broken _ _ (Ne.symm h.1)]

theorem Port.moves_idle_tx (p : Port) (ms : List LineMove) (h : p.txq = []) :
    (p.moves ms).txq = [] ∧ (p.moves ms).wire = p.wire := by
  induction ms generalizing p with
  | nil => exact ⟨h, rfl⟩
  | cons m ms ih =>
    have hm := Port.move_idle_tx p m h
    rw [Port.moves_cons]
    exact ⟨(ih _ hm.1).1, (ih _ hm.1).2.trans hm.2⟩

/-- Moves that deliver some bytes append exactly those. -/
theorem Port.moves_deliver (p : Port) (bs : List Byte) :
    p.moves (bs.map LineMove.deliver) = { p with rxq := p.rxq ++ bs } := by
  induction bs generalizing p with
  | nil => simp
  | cons b bs ih => simp [ih, Port.move]

/-! ### The line's turn -/

theorem Port.turn_nil (p : Port) (h : p.turns = []) : p.turn = (.proceed, p) := by simp [Port.turn, h]

theorem Port.turn_cons (p : Port) (t : Turn) (ts : List Turn) (h : p.turns = t :: ts) :
    p.turn = (t.answer, Port.moves { p with turns := ts } t.moves) := by simp [Port.turn, h]

@[simp] theorem Port.turn_hist (p : Port) : p.turn.2.hist = p.hist := by
  simp only [Port.turn]; split <;> simp

@[simp] theorem Port.turn_stream (p : Port) : p.turn.2.stream = p.stream := by
  simp only [Port.turn]; split <;> simp

theorem Port.turn_wire_txq (p : Port) : p.turn.2.wire ++ p.turn.2.txq = p.wire ++ p.txq := by
  simp only [Port.turn]; split
  · rfl
  · exact Port.moves_wire_txq _ _

theorem Port.turn_idle_tx (p : Port) (h : p.txq = []) : p.turn.2.txq = [] ∧ p.turn.2.wire = p.wire := by
  simp only [Port.turn]; split
  · exact ⟨h, rfl⟩
  · exact Port.moves_idle_tx _ _ h

/-- The deliveries a list of moves makes are those it counts. -/
theorem countP_isDeliver (ms : List LineMove) :
    ms.countP LineMove.isDeliver = (ms.filterMap LineMove.delivered).length := by
  induction ms with
  | nil => rfl
  | cons m ms ih => cases m <;> simp [LineMove.isDeliver, LineMove.delivered, List.filterMap_cons, List.countP_cons, ih]

/-- A turn moves bytes from the line's future into the queue; it makes none and loses none. -/
theorem Port.turn_supply (p : Port) : p.turn.2.supply = p.supply := by
  simp only [Port.turn]; split
  · rfl
  · next t ts h => simp [Port.supply, Port.moves_rxq, h, countP_isDeliver]; omega

/-- A line that answers lets the next primitive proceed, and still answers. -/
theorem Port.turn_answers (p : Port) (h : p.Answers) : p.turn.1 = .proceed ∧ p.turn.2.Answers := by
  obtain ⟨hb, ht⟩ := h
  simp only [Port.turn]; split
  · exact ⟨rfl, hb, ht⟩
  · next t ts hts =>
    rw [hts] at ht
    have h1 := ht t (by simp)
    refine ⟨h1.1, ?_, fun u hu => ht u ?_⟩
    · rw [Port.moves_broken _ _ h1.2]; exact hb
    · simp only [Port.moves_turns] at hu; simp [hu]

/-! ### The endless stream -/

/-- What the endless stream gives a read: a byte where the line's turns are over and nothing is queued, else
nothing (20_memory.md R54, R57). -/
theorem Port.feed_cases (p : Port) :
    p.feed = p ∨ p.turns = [] ∧ p.rxq = [] ∧ ∃ b bs, p.stream = b :: bs ∧
      p.feed = { p with rxq := [b], stream := bs ++ [b] } := by
  unfold Port.feed
  split
  · next b bs h1 h2 h3 => exact Or.inr ⟨h1, h2, b, bs, h3, rfl⟩
  · exact Or.inl rfl

@[simp] theorem Port.feed_txq (p : Port) : p.feed.txq = p.txq := by unfold Port.feed; split <;> rfl
@[simp] theorem Port.feed_broken (p : Port) : p.feed.broken = p.broken := by unfold Port.feed; split <;> rfl
@[simp] theorem Port.feed_hist (p : Port) : p.feed.hist = p.hist := by unfold Port.feed; split <;> rfl
@[simp] theorem Port.feed_turns (p : Port) : p.feed.turns = p.turns := by unfold Port.feed; split <;> rfl
@[simp] theorem Port.feed_wire (p : Port) : p.feed.wire = p.wire := by unfold Port.feed; split <;> rfl

/-- A line with a turn to come feeds nothing. -/
theorem Port.feed_of_turn (p : Port) (h : p.turns ≠ []) : p.feed = p :=
  (Port.feed_cases p).resolve_right fun hf => h hf.1

/-- A queue that holds a byte is fed nothing. -/
theorem Port.feed_of_queued (p : Port) (h : p.rxq ≠ []) : p.feed = p :=
  (Port.feed_cases p).resolve_right fun hf => h hf.2.1

/-- A line without an endless stream feeds nothing. -/
theorem Port.feed_of_noStream (p : Port) (h : p.stream = []) : p.feed = p :=
  (Port.feed_cases p).resolve_right fun hf => by
    obtain ⟨_, _, b, bs, hs, _⟩ := hf
    rw [h] at hs; cases hs

/-- A line that answers still answers after the stream's byte. -/
theorem Port.feed_answers (p : Port) (h : p.Answers) : p.feed.Answers :=
  ⟨p.feed_broken.trans h.1, by rw [p.feed_turns]; exact h.2⟩

/-! ### The primitives -/

/-- Waiting without an answer touches the history only. -/
theorem Port.await_eq (p : Port) (w : Option Wait) : p.await w = { p with hist := (p.await w).hist } := by
  rcases w with _ | _ | _ <;> rfl

@[simp] theorem Port.await_rxq (p : Port) (w : Option Wait) : (p.await w).rxq = p.rxq := by rw [p.await_eq w]
@[simp] theorem Port.await_txq (p : Port) (w : Option Wait) : (p.await w).txq = p.txq := by rw [p.await_eq w]
@[simp] theorem Port.await_broken (p : Port) (w : Option Wait) : (p.await w).broken = p.broken := by rw [p.await_eq w]
@[simp] theorem Port.await_turns (p : Port) (w : Option Wait) : (p.await w).turns = p.turns := by rw [p.await_eq w]
@[simp] theorem Port.await_stream (p : Port) (w : Option Wait) : (p.await w).stream = p.stream := by rw [p.await_eq w]
@[simp] theorem Port.await_wire (p : Port) (w : Option Wait) : (p.await w).wire = p.wire := by rw [p.await_eq w]

/-- What a wait leaves in the history is the class of a wait, and no `LinkErr`. -/
theorem Port.await_hist (p : Port) (w : Option Wait) :
    ∃ evs, (p.await w).hist = p.hist ++ evs ∧ ∀ v, Event.linkErr v ∉ evs := by
  rcases w with _ | t | k
  · exact ⟨[], by simp [Port.await], by simp⟩
  · exact ⟨[.waits t], rfl, by simp⟩
  · exact ⟨[.settle k], rfl, by simp⟩

/-- What `TxByte`, `Flush` and `Settle` can answer, and the transport they leave. -/
theorem Port.primitive_cases (p : Port) (w : Option Wait) (act : Port → Port) :
    p.primitive w act = (.linkErr, p.turn.2.record (.linkErr w)) ∧ linkFails p.turn.1 p.turn.2 = true ∨
    p.primitive w act = (.never, p.turn.2.await w) ∧ linkFails p.turn.1 p.turn.2 = false ∧
      w ≠ some (.settle .none) ∧ p.turn.1 = .never ∨
    p.primitive w act = (.ok, act p.turn.2) ∧ linkFails p.turn.1 p.turn.2 = false := by
  simp only [Port.primitive]
  split
  · exact Or.inl ⟨rfl, ‹_›⟩
  · split
    · next h1 h2 => exact Or.inr (Or.inl ⟨rfl, by simpa using h1, h2.2, h2.1⟩)
    · next h1 _ => exact Or.inr (Or.inr ⟨rfl, by simpa using h1⟩)

/-- On a line that answers, the act is done. -/
theorem Port.primitive_answers (p : Port) (w : Option Wait) (act : Port → Port) (h : p.Answers) :
    p.primitive w act = (.ok, act p.turn.2) := by
  obtain ⟨h1, h2, _⟩ := Port.turn_answers p h
  simp [Port.primitive, linkFails, h1, h2]

/-- What `RxNext` can answer, and the transport it leaves. -/
theorem Port.rxNext_cases (p : Port) (t : TimeoutClass) :
    p.rxNext t = (.linkErr, p.feed.turn.2.record (.linkErr (some (.read t)))) ∧ linkFails p.feed.turn.1 p.feed.turn.2 = true ∨
    (∃ b r, p.feed.turn.2.rxq = b :: r ∧
      p.rxNext t = (.byte b, Port.record { p.feed.turn.2 with rxq := r } (.rx t b)) ∧
      linkFails p.feed.turn.1 p.feed.turn.2 = false) ∨
    p.rxNext t = (.never, p.feed.turn.2.await (some (.read t))) ∧ p.feed.turn.2.rxq = [] ∧ p.feed.turn.1 = .never ∨
    p.rxNext t = (.timeout, p.feed.turn.2.record (.timeout t)) ∧ p.feed.turn.2.rxq = [] ∧
      linkFails p.feed.turn.1 p.feed.turn.2 = false := by
  simp only [Port.rxNext]
  split
  · exact Or.inl ⟨rfl, ‹_›⟩
  · next h =>
    simp only [Bool.not_eq_true] at h
    split
    · next b r hq => exact Or.inr (Or.inl ⟨b, r, hq, rfl, h⟩)
    · next hq =>
      split
      · exact Or.inr (Or.inr (Or.inl ⟨rfl, hq, ‹_›⟩))
      · exact Or.inr (Or.inr (Or.inr ⟨rfl, hq, h⟩))

/-- On a line that answers, `RxNext` gives the head of the queue, or a timeout when it is empty
(20_memory.md R54). -/
theorem Port.rxNext_answers (p : Port) (t : TimeoutClass) (h : p.Answers) :
    (∃ b r, p.feed.turn.2.rxq = b :: r ∧
      p.rxNext t = (.byte b, Port.record { p.feed.turn.2 with rxq := r } (.rx t b))) ∨
    p.feed.turn.2.rxq = [] ∧ p.rxNext t = (.timeout, p.feed.turn.2.record (.timeout t)) := by
  obtain ⟨h1, h2, _⟩ := Port.turn_answers p.feed (Port.feed_answers p h)
  cases hq : p.feed.turn.2.rxq with
  | nil => right; simp [Port.rxNext, linkFails, h1, h2, hq]
  | cons b r => left; exact ⟨b, r, rfl, by simp [Port.rxNext, linkFails, h1, h2, hq]⟩

/-- A byte answered is one byte less to come; or it is the next of the endless stream, and none is to come but
the stream. -/
theorem Port.rxNext_byte (p q : Port) (t : TimeoutClass) (b : Byte) (h : p.rxNext t = (.byte b, q)) :
    q.supply + 1 = p.supply ∧ q.stream = p.stream ∨
    p.supply = 0 ∧ q.turns = [] ∧ q.rxq = [] ∧ ∃ bs, p.stream = b :: bs ∧ q.stream = bs ++ [b] := by
  rcases Port.rxNext_cases p t with ⟨e, _⟩ | ⟨b', r, hq, e, _⟩ | ⟨e, _⟩ | ⟨e, _⟩ <;> rw [e] at h <;>
    simp only [Prod.mk.injEq, reduceCtorEq, false_and, Rx.byte.injEq] at h
  obtain ⟨rfl, rfl⟩ := h
  rcases Port.feed_cases p with hf | ⟨ht, hr, c, cs, hs, hf⟩
  · left
    rw [hf] at hq ⊢
    rw [← Port.turn_supply p]
    refine ⟨?_, Port.turn_stream p⟩
    simp only [Port.supply, hq, List.length_cons, Port.record_rxq, Port.record_turns]
    omega
  · right
    have hn : p.feed.turn.2 = p.feed := by rw [Port.turn_nil _ (by simp [ht])]
    rw [hn, hf] at hq ⊢
    simp only [List.cons.injEq] at hq
    obtain ⟨rfl, rfl⟩ := hq
    exact ⟨by simp [Port.supply, ht, hr], ht, rfl, cs, hs, rfl⟩

/-- A line that answers still answers after a read. -/
theorem Port.rxNext_keeps_answers (p : Port) (t : TimeoutClass) (h : p.Answers) : (p.rxNext t).2.Answers := by
  have hq := (Port.turn_answers p.feed (Port.feed_answers p h)).2
  rcases Port.rxNext_answers p t h with ⟨b, r, _, e⟩ | ⟨_, e⟩ <;> rw [e] <;> exact hq

/-- On a silent line a queued byte is answered. -/
theorem Port.rxNext_silent_cons (p : Port) (t : TimeoutClass) (b : Byte) (r : List Byte) (h : p.Silent)
    (hq : p.rxq = b :: r) : p.rxNext t = (.byte b, Port.record { p with rxq := r } (.rx t b)) := by
  simp [Port.rxNext, Port.feed_of_noStream p h.2.2, Port.turn_nil p h.2.1, linkFails, h.1, hq]

/-- On a silent line an empty queue is answered by a timeout. -/
theorem Port.rxNext_silent_nil (p : Port) (t : TimeoutClass) (h : p.Silent) (hq : p.rxq = []) :
    p.rxNext t = (.timeout, p.record (.timeout t)) := by
  simp [Port.rxNext, Port.feed_of_noStream p h.2.2, Port.turn_nil p h.2.1, linkFails, h.1, hq]

/-- Nothing a read does touches an empty transmit queue. -/
theorem Port.rxNext_idle_tx (p : Port) (t : TimeoutClass) (h : p.txq = []) :
    (p.rxNext t).2.txq = [] ∧ (p.rxNext t).2.wire = p.wire := by
  have hq := Port.turn_idle_tx p.feed (by simpa using h)
  rw [Port.feed_wire] at hq
  rcases Port.rxNext_cases p t with ⟨e, _⟩ | ⟨b, r, _, e, _⟩ | ⟨e, _⟩ | ⟨e, _⟩ <;> rw [e] <;> exact hq

/-! ### Sequencing -/

@[simp] theorem Res.bind_done {α : Type} (c : α) (f : α → Res α) : (Res.done c).bind f = f c := rfl
@[simp] theorem Res.bind_raised {α : Type} (x : Code) (c : α) (f : α → Res α) :
    (Res.raised x c).bind f = .raised x c := rfl
@[simp] theorem Res.bind_stuck {α : Type} (c : α) (f : α → Res α) : (Res.stuck c).bind f = .stuck c := rfl

/-- A result keeps `P` where it is done, `Q` where it raises, and `S` where it does not end. -/
def Res.Sat {α : Type} (r : Res α) (P : α → Prop) (Q : Code → α → Prop) (S : α → Prop := fun _ => True) : Prop :=
  match r with
  | .done c => P c
  | .raised x c => Q x c
  | .stuck c => S c

@[simp] theorem Res.sat_done {α : Type} (c : α) (P : α → Prop) (Q : Code → α → Prop) (S : α → Prop) :
    (Res.done c).Sat P Q S ↔ P c := Iff.rfl
@[simp] theorem Res.sat_raised {α : Type} (x : Code) (c : α) (P : α → Prop) (Q : Code → α → Prop) (S : α → Prop) :
    (Res.raised x c).Sat P Q S ↔ Q x c := Iff.rfl
@[simp] theorem Res.sat_stuck {α : Type} (c : α) (P : α → Prop) (Q : Code → α → Prop) (S : α → Prop) :
    (Res.stuck c).Sat P Q S ↔ S c := Iff.rfl

/-- Sequencing: what holds where the first part is done is what the second may assume. -/
theorem Res.Sat.bind {α : Type} {r : Res α} {f : α → Res α} {P P' : α → Prop} {Q : Code → α → Prop}
    {S : α → Prop} (hr : r.Sat P Q S) (hf : ∀ c, P c → (f c).Sat P' Q S) : (r.bind f).Sat P' Q S := by
  cases r with
  | done c => exact hf c hr
  | raised x c => exact hr
  | stuck c => exact hr

/-- The properties may be weakened. -/
theorem Res.Sat.mono {α : Type} {r : Res α} {P P' : α → Prop} {Q Q' : Code → α → Prop} {S S' : α → Prop}
    (hr : r.Sat P Q S) (hP : ∀ c, P c → P' c) (hQ : ∀ x c, Q x c → Q' x c)
    (hS : ∀ c, S c → S' c := by first | exact fun _ h => h | exact fun _ _ => trivial) : r.Sat P' Q' S' := by
  cases r with
  | done c => exact hP c hr
  | raised x c => exact hQ x c hr
  | stuck c => exact hS c hr

/-- A result is done, with `P`. -/
def Res.Completes {α : Type} (r : Res α) (P : α → Prop) : Prop := ∃ c, r = .done c ∧ P c

theorem Res.Completes.bind {α : Type} {r : Res α} {f : α → Res α} {P P' : α → Prop} (hr : r.Completes P)
    (hf : ∀ c, P c → (f c).Completes P') : (r.bind f).Completes P' := by
  obtain ⟨c, rfl, hc⟩ := hr
  exact hf c hc

theorem Res.Completes.mono {α : Type} {r : Res α} {P P' : α → Prop} (hr : r.Completes P)
    (hP : ∀ c, P c → P' c) : r.Completes P' := by
  obtain ⟨c, rfl, hc⟩ := hr
  exact ⟨c, rfl, hP c hc⟩

theorem Res.completes_done {α : Type} {c : α} {P : α → Prop} (h : P c) : (Res.done c).Completes P := ⟨c, rfl, h⟩

/-! ### Steps of a `CL` operation -/

/-- `Flush` as a step changes the transport only, and raises `TransportError` only. -/
theorem Cl.afterAck_sat (c : Cl) (r : Ack × Port) :
    (c.afterAck r).Sat (fun d => d = c.setPort r.2) (fun x d => x = .transportError ∧ d = c.setPort r.2)
      (fun d => d = c.setPort r.2) := by
  obtain ⟨a, p⟩ := r
  cases a <;> simp [Cl.afterAck]

/-- On a line that answers, a `Flush` is done. -/
theorem Cl.flush_answers (c : Cl) (h : c.port.Answers) :
    c.flush = .done (c.setPort (Port.record { c.port.turn.2 with rxq := [], txq := [] } .flush)) := by
  simp [Cl.flush, Port.flush, Port.primitive_answers _ _ _ h, Cl.afterAck]

/-- On a line that answers, a `TxByte` is done. -/
theorem Cl.txByte_answers (c : Cl) (b : Byte) (h : c.port.Answers) :
    c.afterAck (c.port.txByte b) =
      .done (c.setPort (Port.record { c.port.turn.2 with txq := c.port.turn.2.txq ++ [b] } (.tx b))) := by
  simp [Port.txByte, Port.primitive_answers _ _ _ h, Cl.afterAck]

/-- On a line that answers, a `Settle` is done. -/
theorem Cl.settle_answers (c : Cl) (k : SettleClass) (h : c.port.Answers) :
    c.settle k = .done (c.setPort (c.port.turn.2.record (.settle k))) := by
  simp [Cl.settle, Port.settle, Port.primitive_answers _ _ _ h, Cl.afterAck]

/-- Transmitting some bytes changes the transport only. -/
theorem Cl.txBytes_port_only (bs : List Byte) (c : Cl) :
    (Cl.txBytes bs c).Sat (fun d => d = c.setPort d.port)
      (fun x d => x = .transportError ∧ d = c.setPort d.port) (fun d => d = c.setPort d.port) := by
  induction bs generalizing c with
  | nil => simp [Cl.txBytes, Cl.setPort]
  | cons b bs ih =>
    refine Res.Sat.bind ((Cl.afterAck_sat c _).mono (fun _ h => h) (fun _ _ h => ?_) fun _ h => ?_) (fun d hd => ?_)
    · exact ⟨h.1, by rw [h.2]; rfl⟩
    · rw [h]; rfl
    · refine (ih d).mono (fun e he => ?_) (fun x e he => ⟨he.1, ?_⟩) fun e he => ?_
      · rw [he, hd]; rfl
      · rw [he.2, hd]; rfl
      · rw [he, hd]; rfl

/-- On a line that answers, the bytes are handed over in order: they are in the history, and behind everything
that was queued or already on the wire (20_memory.md R53, R67). -/
theorem Cl.txBytes_answers (bs : List Byte) (c : Cl) (h : c.port.Answers) :
    (Cl.txBytes bs c).Completes fun d => d = c.setPort d.port ∧ d.port.Answers ∧
      d.port.hist = c.port.hist ++ bs.map Event.tx ∧
      d.port.wire ++ d.port.txq = c.port.wire ++ c.port.txq ++ bs := by
  induction bs generalizing c with
  | nil => exact Res.completes_done ⟨rfl, h, by simp, by simp⟩
  | cons b bs ih =>
    have ht := Port.turn_answers c.port h
    have hw := Port.turn_wire_txq c.port
    simp only [Cl.txBytes, Cl.txByte_answers c b h, Res.bind_done]
    refine (ih (c.setPort (Port.record { c.port.turn.2 with txq := c.port.turn.2.txq ++ [b] } (.tx b)))
      ht.2).mono fun d hd => ⟨?_, hd.2.1, ?_, ?_⟩
    · rw [hd.1]; rfl
    · rw [hd.2.2.1]; simp
    · rw [hd.2.2.2]; simp [← hw]

/-- On a line that answers, a frame goes out with its settle (40_cl_framer.md R110). -/
theorem Cl.transmit_answers (k : SettleClass) (c : Cl) (h : c.port.Answers) :
    (c.transmit k).Completes fun d => d = c.setPort d.port ∧ d.port.Answers ∧
      d.port.hist = c.port.hist ++ c.txbuf.toList.map Event.tx ++ [.settle k] ∧
      d.port.wire ++ d.port.txq = c.port.wire ++ c.port.txq ++ c.txbuf.toList := by
  refine (Cl.txBytes_answers c.txbuf.toList c h).bind fun d hd => ?_
  have ht := Port.turn_answers d.port hd.2.1
  have hw := Port.turn_wire_txq d.port
  rw [Cl.settle_answers d k hd.2.1]
  refine Res.completes_done ⟨by rw [hd.1]; rfl, ht.2, ?_, ?_⟩
  · simp [hd.2.2.1]
  · simp [hw, hd.2.2.2]

/-- A transmission changes the transport only. -/
theorem Cl.transmit_port_only (k : SettleClass) (c : Cl) :
    (c.transmit k).Sat (fun d => d = c.setPort d.port)
      (fun x d => x = .transportError ∧ d = c.setPort d.port) (fun d => d = c.setPort d.port) := by
  refine Res.Sat.bind (Cl.txBytes_port_only _ c) fun d hd => ?_
  refine (Cl.afterAck_sat d _).mono (fun e he => ?_) (fun x e he => ⟨he.1, ?_⟩) fun e he => ?_
  · rw [he, hd]; rfl
  · rw [he.2, hd]; rfl
  · rw [he, hd]; rfl

/-! ### The receive loop -/

/-- The fields of `CL` a receive loop leaves alone. -/
def Cl.SameButLine (c d : Cl) : Prop :=
  d = { c with rxline := d.rxline, rxlen := d.rxlen, rxstat := d.rxstat, port := d.port
               warn := { c.warn with overrun := d.warn.overrun } }

theorem Cl.SameButLine.refl (c : Cl) : c.SameButLine c := rfl

theorem Cl.SameButLine.trans {c d e : Cl} (h1 : c.SameButLine d) (h2 : d.SameButLine e) : c.SameButLine e := by
  unfold Cl.SameButLine at *
  rw [h2, h1]

theorem Cl.storeRx_sameButLine (cap : Nat) (b : Byte) (c : Cl) : c.SameButLine (c.storeRx cap b) := by
  unfold Cl.SameButLine Cl.storeRx
  split <;> rfl

/-- Storing a byte keeps the buffer's bounds. -/
theorem Cl.storeRx_bounds (cap : Nat) (b : Byte) (c : Cl) (h : c.rxline.length = cap ∧ c.rxlen ≤ cap) :
    (c.storeRx cap b).rxline.length = cap ∧ (c.storeRx cap b).rxlen ≤ cap := by
  unfold Cl.storeRx
  split
  · exact ⟨by simp [h.1], by simpa using ‹c.rxlen < cap›⟩
  · exact h

@[simp] theorem Cl.storeRx_port (cap : Nat) (b : Byte) (c : Cl) : (c.storeRx cap b).port = c.port := by
  unfold Cl.storeRx; split <;> rfl

/-- A receive loop writes the line registers, `W_OVERRUN` and the transport only, and raises `TransportError`
only. -/
theorem Cl.rxLoop_sameButLine (cap fuel : Nat) (c : Cl) :
    (Cl.rxLoop cap fuel c).Sat (fun d => c.SameButLine d) (fun x d => x = .transportError ∧ c.SameButLine d)
      (fun d => c.SameButLine d) := by
  induction fuel generalizing c with
  | zero => exact Cl.SameButLine.refl c
  | succ fuel ih =>
    simp only [Cl.rxLoop]
    split
    · exact ⟨rfl, rfl⟩
    · exact rfl
    · exact rfl
    · next b q _ =>
      have hs := Cl.storeRx_sameButLine cap b (c.setPort q)
      have h1 : c.SameButLine ((c.setPort q).storeRx cap b) := Cl.SameButLine.trans (d := c.setPort q) rfl hs
      split
      · exact Cl.SameButLine.trans h1 rfl
      · exact (ih _).mono (fun d hd => h1.trans hd) (fun x d hd => ⟨hd.1, h1.trans hd.2⟩) fun d hd => h1.trans hd

/-- A receive loop keeps the line buffer's bounds, and ends with a status that fits the length. -/
theorem Cl.rxLoop_bounds (cap fuel : Nat) (c : Cl) (hcap : 0 < cap)
    (h : c.rxline.length = cap ∧ c.rxlen ≤ cap) :
    (Cl.rxLoop cap fuel c).Sat
      (fun d => (d.rxline.length = cap ∧ d.rxlen ≤ cap) ∧ d.rxstat ≠ .none ∧
        (d.rxstat = .empty → d.rxlen = 0) ∧ (d.rxstat = .line ∨ d.rxstat = .partialLine → 0 < d.rxlen))
      (fun _ d => d.rxline.length = cap ∧ d.rxlen ≤ cap ∧ d.rxstat = c.rxstat)
      (fun d => d.rxline.length = cap ∧ d.rxlen ≤ cap ∧ d.rxstat = c.rxstat) := by
  induction fuel generalizing c with
  | zero => exact ⟨h.1, h.2, rfl⟩
  | succ fuel ih =>
    simp only [Cl.rxLoop]
    split
    · exact ⟨h.1, h.2, rfl⟩
    · exact ⟨h.1, h.2, rfl⟩
    · refine ⟨h, ?_, ?_, ?_⟩ <;> (simp only [Cl.setPort_rxlen]; split <;> simp_all <;> omega)
    · next b q _ =>
      have hb := Cl.storeRx_bounds cap b (c.setPort q) h
      have hr : ((c.setPort q).storeRx cap b).rxstat = c.rxstat := by unfold Cl.storeRx; split <;> rfl
      split
      · refine ⟨hb, by simp, by simp, fun _ => ?_⟩
        unfold Cl.storeRx
        split
        · simp
        · simp only [Cl.setPort_rxlen] at *; omega
      · exact (ih _ hb).mono (fun d hd => hd) (fun x d hd => ⟨hd.1, hd.2.1, hd.2.2.trans hr⟩)
          fun d hd => ⟨hd.1, hd.2.1, hd.2.2.trans hr⟩

/-- What the fuel of a receive loop promises: it exceeds the bytes to come before the endless stream, and those of
the stream up to its first `LF`; or the stream alone is left, and has no `LF`. -/
def Port.Fueled (fuel : Nat) (p : Port) : Prop :=
  (∃ m, m ≤ p.stream.length ∧ p.supply + m < fuel ∧ lf ∉ p.stream.drop m) ∨
    p.rxq = [] ∧ p.Endless ∧ lf ∉ p.stream

/-- `rxline()` starts with fuel enough. -/
theorem Port.fueled_start (p : Port) : p.Fueled (p.supply + p.stream.length + 1) :=
  Or.inl ⟨p.stream.length, le_rfl, Nat.lt_succ_self _, by simp⟩

/-- A byte other than `LF` uses up one unit of fuel at most. -/
theorem Port.Fueled.next {fuel : Nat} {p q : Port} {t : TimeoutClass} {b : Byte} (h : p.Fueled (fuel + 1))
    (hn : p.rxNext t = (.byte b, q)) (hb : b ≠ lf) : q.Fueled fuel := by
  rcases Port.rxNext_byte p q t b hn with ⟨hs, he⟩ | ⟨hs, hqt, hqr, bs, hp, hq⟩
  · rcases h with ⟨m, hm, hf, hl⟩ | ⟨hr, ⟨h0, _⟩, _⟩
    · exact Or.inl ⟨m, by rwa [he], by omega, by rwa [he]⟩
    · rw [show p.supply = 0 by simp [Port.supply, hr, h0]] at hs; omega
  · have slow : lf ∉ p.stream → q.Fueled fuel := fun hl =>
      Or.inr ⟨hqr, ⟨hqt, by simp [hq]⟩, by rw [hq]; rw [hp] at hl; simp at hl ⊢; exact ⟨hl.2, hl.1⟩⟩
    rcases h with ⟨m, hm, hf, hl⟩ | ⟨_, _, hl⟩
    · cases m with
      | zero => exact slow (by simpa using hl)
      | succ m =>
        rw [hp] at hl hm
        simp only [List.length_cons, List.drop_succ_cons] at hl hm
        refine Or.inl ⟨m, by simp [hq]; omega, by simp [Port.supply, hqr, hqt]; omega, ?_⟩
        rw [hq, List.drop_append_of_le_length (by omega)]
        exact fun h => (List.mem_append.1 h).elim hl fun h => hb (by simpa using Eq.symm (List.mem_singleton.1 h))
    · exact slow hl

/-! ### Fault entry -/

@[simp] theorem Cl.becomeFaulted_status (x : Code) (c : Cl) : (c.becomeFaulted x).status = c.status := by
  unfold Cl.becomeFaulted; split <;> rfl

/-- What fault entry on `CL` leaves alone: everything but the status, the result registers, the fault register
and the handshake state (60_exceptions.md R208). -/
theorem Cl.raise_frame (b : Bool) (x : Code) (c : Cl) :
    c.raise b x = { c with
      status := x, res := c.res.unspecified c.free, free := c.free + 1
      hs := (c.raise b x).hs, fault := (c.raise b x).fault } := by
  unfold Cl.raise
  split
  · unfold Cl.becomeFaulted; split <;> rfl
  · rfl

/-- A fatal fault on a live channel makes it `Faulted` with that code (60_exceptions.md R208). -/
theorem Cl.raise_fatal (b : Bool) (x : Code) (c : Cl) (hx : x.fatal b = true) (hc : c.hs ≠ .faulted) :
    (c.raise b x).hs = .faulted ∧ (c.raise b x).fault = x := by
  simp [Cl.raise, hx, Cl.becomeFaulted, Cl.loseResults, hc]

/-- A fault that is not fatal leaves the handshake state and the fault register. -/
theorem Cl.raise_notFatal (b : Bool) (x : Code) (c : Cl) (hx : x.fatal b = false) :
    (c.raise b x).hs = c.hs ∧ (c.raise b x).fault = c.fault := by
  simp [Cl.raise, hx, Cl.loseResults]

/-- Fault entry on a live `CL` channel, as the statements say it (60_exceptions.md R208). -/
theorem Cl.raise_afterFault (b : Bool) (x : Code) (c : Cl) (hc : c.hs ≠ .faulted) :
    c.raise b x = c.afterFault x (x.fatal b) c.loseResults := by
  unfold Cl.raise
  split
  · next h => simp [Cl.becomeFaulted, Cl.loseResults, Cl.setStatus, hc, Cl.afterFault, h, ClResults.unspecified]
  · next h => simp [Cl.loseResults, Cl.setStatus, Cl.afterFault, h, ClResults.unspecified]

/-- Unspecified result registers are in range, and `CL.xyzv` is kept. -/
theorem ClResults.unspecified_wf (n : Nat) (r : ClResults) :
    (r.unspecified n).Wf ∧ (r.unspecified n).xyzv = r.xyzv := by
  have hc : ∀ (m : Nat) (v : Int), (clampInt m v).natAbs ≤ m := fun m v => by
    simp only [clampInt]; omega
  have hn : ∀ k, nresOf k = 0 ∨ nresOf k = 1 ∨ nresOf k = 3 := fun k => by
    unfold nresOf; split <;> simp
  refine ⟨⟨?_, ?_, hc _ _, hc _ _, ?_, ?_, hn _, ?_⟩, rfl⟩ <;> simp only [ClResults.unspecified] <;> omega

/-- What fault entry on `UT` does (60_exceptions.md R208). -/
theorem Ut.raise_cases (x : Code) (u : Ut) :
    u.raise x = { u.setStatus .transportError with fault := .transportError, dead := true } ∧ x = .transportError ∨
    u.raise x = u.setStatus x ∧ x ≠ .transportError := by
  unfold Ut.raise
  split
  · next h => subst h; exact Or.inl ⟨rfl, rfl⟩
  · exact Or.inr ⟨rfl, ‹_›⟩

/-! ### Whole operations -/

/-- Everything a `CL` operation can answer: the dead refusal, its own refusal, its body's end, its body's raise;
or it does not end. -/
theorem State.clOp_cases (s : State) (pre : List (Bool × Code)) (onRaise : Code → Cl → Cl) (body : Cl → Res Cl)
    (t : State) (h : s.clOp pre onRaise body = .next t) :
    s.cl.hs = .faulted ∧ t = s.setCl (s.cl.refuseDead s.straps.faultStyle) ∨
    s.cl.hs ≠ .faulted ∧ (∃ x, firstFailing pre = some x ∧ t = s.setCl (s.cl.setStatus x)) ∨
    s.cl.hs ≠ .faulted ∧ firstFailing pre = none ∧
      ((∃ c, body s.cl = .done c ∧ t = s.setCl c) ∨
        (∃ x c, body s.cl = .raised x c ∧ t = s.setCl (onRaise x c)) ∨
        ∃ c, body s.cl = .stuck c ∧ t = s.setCl c.hang) := by
  unfold State.clOp at h
  split at h
  · exact Or.inl ⟨‹_›, by simpa using h.symm⟩
  · next hd =>
    refine Or.inr ?_
    split at h
    · next x hx => exact Or.inl ⟨hd, x, hx, by simpa using h.symm⟩
    · next hx =>
      refine Or.inr ⟨hd, hx, ?_⟩
      unfold State.endCl at h
      split at h
      · next c hc => exact Or.inl ⟨c, hc, by simpa using h.symm⟩
      · next x c hc => exact Or.inr (Or.inl ⟨x, c, hc, by simpa using h.symm⟩)
      · next c hc => exact Or.inr (Or.inr ⟨c, hc, by simpa using h.symm⟩)

/-- A `CL` operation whose body is done. -/
theorem State.clOp_done (s : State) (pre : List (Bool × Code)) (onRaise : Code → Cl → Cl) (body : Cl → Res Cl)
    (c : Cl) (hd : s.cl.hs ≠ .faulted) (hp : firstFailing pre = none) (hb : body s.cl = .done c) :
    s.clOp pre onRaise body = .next (s.setCl c) := by
  simp [State.clOp, hd, hp, State.endCl, hb]

/-- A `CL` operation whose body raises. -/
theorem State.clOp_raised (s : State) (pre : List (Bool × Code)) (onRaise : Code → Cl → Cl) (body : Cl → Res Cl)
    (x : Code) (c : Cl) (hd : s.cl.hs ≠ .faulted) (hp : firstFailing pre = none)
    (hb : body s.cl = .raised x c) : s.clOp pre onRaise body = .next (s.setCl (onRaise x c)) := by
  simp [State.clOp, hd, hp, State.endCl, hb]

/-- A `CL` operation always has a next state: where its body does not end, that of a busy channel (60_exceptions.md
R201). -/
theorem State.clOp_next (s : State) (pre : List (Bool × Code)) (onRaise : Code → Cl → Cl) (body : Cl → Res Cl) :
    ∃ c, s.clOp pre onRaise body = .next (s.setCl c) := by
  unfold State.clOp State.endCl
  split
  · exact ⟨_, rfl⟩
  · split
    · exact ⟨_, rfl⟩
    · split <;> exact ⟨_, rfl⟩

/-- Everything a `CL` operation without primitives can answer. -/
theorem State.clPure_cases (s : State) (pre : List (Bool × Code)) (body : Cl → Cl) (t : State)
    (h : s.clPure pre body = .next t) :
    s.cl.hs = .faulted ∧ t = s.setCl (s.cl.refuseDead s.straps.faultStyle) ∨
    s.cl.hs ≠ .faulted ∧ (∃ x, firstFailing pre = some x ∧ t = s.setCl (s.cl.setStatus x)) ∨
    s.cl.hs ≠ .faulted ∧ firstFailing pre = none ∧ t = s.setCl (body s.cl) := by
  unfold State.clPure at h
  injection h with h
  subst h
  by_cases hd : s.cl.hs = .faulted
  · exact Or.inl ⟨hd, by simp [hd]⟩
  · refine Or.inr ?_
    cases hx : firstFailing pre with
    | some x => exact Or.inl ⟨hd, x, rfl, by simp [hd]⟩
    | none => exact Or.inr ⟨hd, rfl, by simp [hd]⟩

/-- Everything a `UT` operation can answer. -/
theorem State.utOp_cases (s : State) (pre : List (Bool × Code)) (body : Ut → Res Ut) (t : State)
    (h : s.utOp pre body = .next t) :
    s.ut.dead = true ∧ t = s.setUt (s.ut.setStatus .dead) ∨
    s.ut.dead = false ∧ (∃ x, firstFailing pre = some x ∧ t = s.setUt (s.ut.setStatus x)) ∨
    s.ut.dead = false ∧ firstFailing pre = none ∧
      ((∃ u, body s.ut = .done u ∧ t = s.setUt u) ∨ (∃ x u, body s.ut = .raised x u ∧ t = s.setUt (u.raise x)) ∨
        ∃ u, body s.ut = .stuck u ∧ t = s.setUt u.hang) := by
  unfold State.utOp at h
  split at h
  · exact Or.inl ⟨‹_›, by simpa using h.symm⟩
  · next hd =>
    simp only [Bool.not_eq_true] at hd
    refine Or.inr ?_
    split at h
    · next x hx => exact Or.inl ⟨hd, x, hx, by simpa using h.symm⟩
    · next hx =>
      refine Or.inr ⟨hd, hx, ?_⟩
      unfold State.endUt at h
      split at h
      · next c hc => exact Or.inl ⟨c, hc, by simpa using h.symm⟩
      · next x c hc => exact Or.inr (Or.inl ⟨x, c, hc, by simpa using h.symm⟩)
      · next c hc => exact Or.inr (Or.inr ⟨c, hc, by simpa using h.symm⟩)

/-- A `UT` operation always has a next state, as a `CL` operation has. -/
theorem State.utOp_next (s : State) (pre : List (Bool × Code)) (body : Ut → Res Ut) :
    ∃ u, s.utOp pre body = .next (s.setUt u) := by
  unfold State.utOp State.endUt
  split
  · exact ⟨_, rfl⟩
  · split
    · exact ⟨_, rfl⟩
    · split <;> exact ⟨_, rfl⟩

/-- A `UT` operation whose body is done. -/
theorem State.utOp_done (s : State) (pre : List (Bool × Code)) (body : Ut → Res Ut) (u : Ut)
    (hd : s.ut.dead = false) (hp : firstFailing pre = none) (hb : body s.ut = .done u) :
    s.utOp pre body = .next (s.setUt u) := by
  simp [State.utOp, hd, hp, State.endUt, hb]

/-- Everything a `UT` operation without primitives can answer. -/
theorem State.utPure_cases (s : State) (pre : List (Bool × Code)) (body : Ut → Ut) (t : State)
    (h : s.utPure pre body = .next t) :
    s.ut.dead = true ∧ t = s.setUt (s.ut.setStatus .dead) ∨
    s.ut.dead = false ∧ (∃ x, firstFailing pre = some x ∧ t = s.setUt (s.ut.setStatus x)) ∨
    s.ut.dead = false ∧ firstFailing pre = none ∧ t = s.setUt (body s.ut) := by
  unfold State.utPure at h
  injection h with h
  subst h
  cases hd : s.ut.dead with
  | true => exact Or.inl ⟨rfl, by simp⟩
  | false =>
    refine Or.inr ?_
    cases hx : firstFailing pre with
    | some x => exact Or.inl ⟨rfl, x, rfl, by simp⟩
    | none => exact Or.inr ⟨rfl, rfl, by simp⟩

/-- The first precondition that fails is the refusal: none fails exactly when all hold. -/
theorem firstFailing_eq_none (pre : List (Bool × Code)) :
    firstFailing pre = none ↔ ∀ e ∈ pre, e.1 = true := by
  induction pre with
  | nil => simp [firstFailing]
  | cons e rest ih =>
    obtain ⟨b, x⟩ := e
    cases b <;> simp [firstFailing, ih]

/-- Taking a frame from the queue is as many `Wire` moves as the frame has bytes (20_memory.md R57). -/
theorem Port.takeFrame_moves (p : Port) (f rest : List Byte) (h : p.txq = f ++ rest) :
    p.takeFrame f = p.moves (List.replicate f.length .wire) := by
  induction f generalizing p with
  | nil => simp [Port.takeFrame]
  | cons b f ih =>
    have h1 : p.move .wire = { p with txq := f ++ rest, wire := p.wire ++ [b] } := by simp [Port.move, h]
    rw [List.length_cons, List.replicate_succ, Port.moves_cons, h1, ← ih _ rfl]
    simp [Port.takeFrame, h]

end Sys2Proof.Machine
end

