-- ==== Sys2Proof/Laws/Runs.lean ====
section
/-! SUPPORT. What every operation's body does to its channel's transport: the events it adds, where a `LinkErr`
ends it, and that it is stuck only where the line never answers. -/

namespace Sys2Proof.Machine

open Host

/-- A transport some primitives later, none of which answered `LinkErr`. -/
def Port.Later (p q : Port) : Prop :=
  (∃ evs, q.hist = p.hist ++ evs ∧ ∀ w, Event.linkErr w ∉ evs) ∧ q.turns <:+ p.turns

theorem Port.Later.refl (p : Port) : p.Later p := ⟨⟨[], by simp, by simp⟩, List.suffix_refl _⟩

theorem Port.Later.trans {p q r : Port} (h1 : p.Later q) (h2 : q.Later r) : p.Later r := by
  obtain ⟨⟨e1, he1, hn1⟩, ht1⟩ := h1
  obtain ⟨⟨e2, he2, hn2⟩, ht2⟩ := h2
  exact ⟨⟨e1 ++ e2, by rw [he2, he1, List.append_assoc], by simp [hn1, hn2]⟩, ht2.trans ht1⟩

/-- A turn unanswered later on is a turn unanswered. -/
theorem Port.Later.unanswered {p q r : Port} (h : p.Later q) (hu : q.Unanswered r) : p.Unanswered r := by
  obtain ⟨pre, hp⟩ := h.2
  obtain ⟨used, last, ht, hn⟩ := hu
  exact ⟨pre ++ used, last, by rw [← hp, ht, List.append_assoc], hn⟩

/-- How a body that calls primitives of a transport can end: done; with a fault of its own; with the one
`LinkErr` that is its last event and raises `TransportError` (40_cl_framer.md R115); or not at all, at a primitive
that the line never answers, or with bytes that come as `E` says. -/
def Res.Runs {α : Type} (port : α → Port) (E : Port → Prop) (c : α) : Res α → Prop
  | .done d => (port c).Later (port d)
  | .raised x d => x ≠ .transportError ∧ (port c).Later (port d) ∨
      x = .transportError ∧ ∃ q w, (port c).Later q ∧ (port d).hist = q.hist ++ [.linkErr w]
  | .stuck d => (port c).Later (port d) ∧ ((port c).Unanswered (port d) ∨ E (port d))

theorem Res.Runs.after {α : Type} {port : α → Port} {E : Port → Prop} {c d : α} {r : Res α}
    (h : (port c).Later (port d)) (hr : r.Runs port E d) : r.Runs port E c := by
  cases r with
  | done e => exact Port.Later.trans h hr
  | raised x e =>
    rcases hr with ⟨hx, h1⟩ | ⟨hx, q, w, h1, h2⟩
    · exact Or.inl ⟨hx, h.trans h1⟩
    · exact Or.inr ⟨hx, q, w, h.trans h1, h2⟩
  | stuck e => exact ⟨h.trans hr.1, hr.2.imp h.unanswered id⟩

/-- Sequencing. -/
theorem Res.Runs.bind {α : Type} {port : α → Port} {E : Port → Prop} {c : α} {r : Res α} {f : α → Res α}
    (hr : r.Runs port E c) (hf : ∀ d, (f d).Runs port E d) : (r.bind f).Runs port E c := by
  cases r with
  | done d => exact Res.Runs.after (d := d) hr (hf d)
  | raised x d => exact hr
  | stuck d => exact hr

/-- What is said of endless bytes may be weakened. -/
theorem Res.Runs.weaken {α : Type} {port : α → Port} {E E' : Port → Prop} {c : α} {r : Res α}
    (hr : r.Runs port E c) (h : ∀ q, E q → E' q) : r.Runs port E' c := by
  cases r with
  | done d => exact hr
  | raised x d => exact hr
  | stuck d => exact ⟨hr.1, hr.2.imp id (h _)⟩

/-- A part that calls no primitive. -/
theorem Res.runs_pure {α : Type} {port : α → Port} {E : Port → Prop} {c : α} {r : Res α}
    (h : r.Sat (fun d => port d = port c) (fun x d => x ≠ .transportError ∧ port d = port c) fun _ => False) :
    r.Runs port E c := by
  cases r with
  | done d => simp only [Res.Runs]; rw [show port d = port c from h]; exact Port.Later.refl _
  | raised x d => exact Or.inl ⟨h.1, by rw [h.2]; exact Port.Later.refl _⟩
  | stuck d => exact False.elim h

/-! ### One primitive -/

theorem Port.turn_later (p : Port) : p.Later p.turn.2 := by
  refine ⟨⟨[], by simp, by simp⟩, ?_⟩
  simp only [Port.turn]; split
  · exact List.suffix_refl _
  · next h => rw [h]; simp

theorem Port.turn_never (p : Port) (h : p.turn.1 = .never) : p.Unanswered p.turn.2 := by
  simp only [Port.turn] at h ⊢
  split at h
  · simp at h
  · next t ts hts => exact ⟨[], t, by simpa using hts, h⟩

theorem Port.feed_later (p : Port) : p.Later p.feed :=
  ⟨⟨[], by simp, by simp⟩, by rw [p.feed_turns]⟩

theorem Port.record_later (p q : Port) (e : Event) (he : ∀ w, e ≠ .linkErr w) (hh : q.hist = p.hist) (ht : q.turns = p.turns) :
    p.Later (q.record e) := by
  refine ⟨⟨[e], by simp [hh], fun w => by simpa using (he w).symm⟩, ?_⟩
  simp [ht]

theorem Port.await_later (p : Port) (w : Option Wait) : p.Later (p.await w) := ⟨p.await_hist w, by simp⟩

/-- A wait without an answer leaves the turn unanswered. -/
theorem Port.Unanswered.await {p q : Port} {w : Option Wait} (h : p.Unanswered q) : p.Unanswered (q.await w) := by
  obtain ⟨used, last, ht, hn⟩ := h
  exact ⟨used, last, by rw [Port.await_turns]; exact ht, hn⟩

theorem Cl.afterAck_runs {E : Port → Prop} (c : Cl) (w : Option Wait) (act : Port → Port)
    (hact : ∀ q, Port.Later q (act q)) : (c.afterAck (c.port.primitive w act)).Runs Cl.port E c := by
  have h := Port.turn_later c.port
  rcases Port.primitive_cases c.port w act with ⟨e, _⟩ | ⟨e, _, _, hn⟩ | ⟨e, _⟩ <;> rw [e]
  · exact Or.inr ⟨rfl, _, w, h, rfl⟩
  · exact ⟨h.trans (Port.await_later _ _), Or.inl (Port.turn_never _ hn).await⟩
  · exact Port.Later.trans h (hact _)

/-- What a read leaves: after a byte or a timeout, a transport later; after `LinkErr`, that as its last event; with no
answer, a turn unanswered. -/
theorem Port.rxNext_later (p : Port) (t : TimeoutClass) :
    match p.rxNext t with
    | (.byte _, q) => p.Later q
    | (.timeout, q) => p.Later q
    | (.linkErr, q) => ∃ r w, p.Later r ∧ q.hist = r.hist ++ [.linkErr w]
    | (.never, q) => p.Later q ∧ p.Unanswered q := by
  have h := (Port.feed_later p).trans (Port.turn_later p.feed)
  rcases Port.rxNext_cases p t with ⟨e, _⟩ | ⟨b, r, _, e, _⟩ | ⟨e, _, hn⟩ | ⟨e, _⟩ <;> rw [e]
  · exact ⟨_, _, h, rfl⟩
  · exact h.trans (Port.record_later p.feed.turn.2 { p.feed.turn.2 with rxq := r } (.rx t b) (by simp) rfl rfl)
  · exact ⟨h.trans (Port.await_later _ _), ((Port.feed_later p).unanswered (Port.turn_never _ hn)).await⟩
  · exact h.trans (Port.record_later _ _ _ (by simp) rfl rfl)

theorem Cl.flush_runs {E : Port → Prop} (c : Cl) : c.flush.Runs Cl.port E c :=
  Cl.afterAck_runs c _ _ fun q => Port.record_later q _ _ (by simp) rfl rfl

theorem Cl.settle_runs {E : Port → Prop} (k : SettleClass) (c : Cl) : (c.settle k).Runs Cl.port E c :=
  Cl.afterAck_runs c _ _ fun q => Port.record_later q _ _ (by simp) rfl rfl

theorem Cl.txByte_runs {E : Port → Prop} (b : Byte) (c : Cl) : (c.afterAck (c.port.txByte b)).Runs Cl.port E c :=
  Cl.afterAck_runs c _ (fun q => Port.record { q with txq := q.txq ++ [b] } (.tx b))
    fun q => Port.record_later q _ (.tx b) (by simp) rfl rfl

theorem Cl.txBytes_runs {E : Port → Prop} (bs : List Byte) (c : Cl) : (Cl.txBytes bs c).Runs Cl.port E c := by
  induction bs generalizing c with
  | nil => exact Port.Later.refl c.port
  | cons b bs ih => exact (Cl.txByte_runs b c).bind ih

theorem Cl.transmit_runs {E : Port → Prop} (k : SettleClass) (c : Cl) : (c.transmit k).Runs Cl.port E c :=
  (Cl.txBytes_runs _ c).bind (Cl.settle_runs k)

theorem Cl.send_runs {E : Port → Prop} (p : Straps) (i : CmdId) (c : Cl) : (c.send p i).Runs Cl.port E c :=
  Res.Runs.after (d := c.loadFrame p i) (Port.Later.refl _) (Cl.transmit_runs _ _)

/-- A receive loop with fuel enough runs out of it only on endless bytes without `LF` (40_cl_framer.md R113). -/
theorem Cl.rxLoop_runs (cap fuel : Nat) (c : Cl) (hf : c.port.Fueled fuel) :
    (Cl.rxLoop cap fuel c).Runs Cl.port Port.EndlessNoLf c := by
  induction fuel generalizing c with
  | zero =>
    rcases hf with ⟨m, _, h, _⟩ | ⟨_, h⟩
    · exact absurd h (by omega)
    · exact ⟨Port.Later.refl _, Or.inr h⟩
  | succ fuel ih =>
    have h := Port.rxNext_later c.port .clRead
    have hn := fun b q => Port.Fueled.next (t := .clRead) (b := b) (q := q) hf
    simp only [Cl.rxLoop]
    generalize c.port.rxNext .clRead = r at h hn ⊢
    obtain ⟨a, q⟩ := r
    cases a with
    | linkErr => exact Or.inr ⟨rfl, h⟩
    | never => exact ⟨h.1, Or.inl h.2⟩
    | timeout => exact h
    | byte b =>
      dsimp only
      split
      · simpa [Res.Runs] using h
      · next hb =>
        refine Res.Runs.after (d := (c.setPort q).storeRx cap b) (by simpa using h) (ih _ ?_)
        rw [Cl.storeRx_port, Cl.setPort_port]
        exact hn b q rfl hb

theorem Cl.rxlineOp_runs (p : Straps) (c : Cl) : (c.rxlineOp p).Runs Cl.port Port.EndlessNoLf c :=
  Res.Runs.after (d := c.rxStart) (Port.Later.refl _) (Cl.rxLoop_runs _ _ _ (Port.fueled_start c.port))

/-! ### The bodies of the `CL` operations -/

theorem Cl.check_runs {E : Port → Prop} (c : Cl) : c.check.Runs Cl.port E c := by
  refine Res.runs_pure ?_
  unfold Cl.check Cl.checkBattery; split_ifs <;> simp

theorem Cl.pval_runs {E : Port → Prop} (tie : RoundTie) (c : Cl) : (c.pval tie).Runs Cl.port E c := by
  refine Res.runs_pure ?_; unfold Cl.pval; split <;> (try split) <;> simp

theorem Cl.psec_runs {E : Port → Prop} (c : Cl) : c.psec.Runs Cl.port E c := by
  refine Res.runs_pure ?_; unfold Cl.psec; split <;> (try split) <;> simp

theorem Cl.computeCct_runs {E : Port → Prop} (c : Cl) : c.computeCct.Runs Cl.port E c := by
  refine Res.runs_pure ?_; unfold Cl.computeCct; split <;> simp

theorem Cl.attempt54_runs (p : Straps) (c : Cl) : (c.attempt54 p).Runs Cl.port Port.EndlessNoLf c :=
  (Res.Runs.after (d := { c with pcTry := c.pcTry + 1 }) (Port.Later.refl _) (Cl.flush_runs _)).bind fun d =>
    (Cl.send_runs p .c54 d).bind (Cl.rxlineOp_runs p)

theorem Cl.step1_runs (p : Straps) (n : Nat) (c : Cl) : (Cl.step1 p n c).Runs Cl.port Port.EndlessNoLf c := by
  induction n generalizing c with
  | zero => refine Res.runs_pure ?_; unfold Cl.step1 Cl.exhausted54; split <;> simp
  | succ n ih =>
    refine (Cl.attempt54_runs p c).bind fun d => ?_
    split
    · exact Port.Later.refl _
    · exact ih d

theorem Cl.hold_runs (p : Straps) (c : Cl) : (c.hold p).Runs Cl.port Port.EndlessNoLf c :=
  (Cl.flush_runs c).bind fun d => (Cl.send_runs p .c55 d).bind fun _ => Port.Later.refl _

theorem Cl.attempt40_runs (p : Straps) (c : Cl) : (c.attempt40 p).Runs Cl.port Port.EndlessNoLf c :=
  (Res.Runs.after (d := { c with extTry := c.extTry + 1 }) (Port.Later.refl _) (Cl.flush_runs _)).bind fun d =>
    (Cl.send_runs p .c40 d).bind fun e =>
      Res.Runs.after (d := e.setHs .extMode) (Port.Later.refl _) (Cl.rxlineOp_runs p _)

theorem Cl.classify40_runs (on4 : Cl → Res Cl) (h4 : ∀ c, (on4 c).Runs Cl.port Port.EndlessNoLf c) (c : Cl) :
    (c.classify40 on4).Runs Cl.port Port.EndlessNoLf c := by
  unfold Cl.classify40
  split
  · exact Or.inl ⟨by simp, Port.Later.refl _⟩
  · split
    · exact h4 c
    · split
      · exact Or.inl ⟨by simp, Port.Later.refl _⟩
      · exact Port.Later.refl _

theorem Cl.step3_runs (p : Straps) (n : Nat) (c : Cl) : (Cl.step3 p n c).Runs Cl.port Port.EndlessNoLf c := by
  induction n generalizing c with
  | zero =>
    refine (Cl.attempt40_runs p c).bind (Cl.classify40_runs _ fun d => ?_)
    refine Res.runs_pure ?_; unfold Cl.exhausted40; split <;> simp
  | succ n ih => exact (Cl.attempt40_runs p c).bind (Cl.classify40_runs _ fun d => (Cl.hold_runs p d).bind ih)

theorem Cl.handshake_runs (p : Straps) (c : Cl) : (c.handshake p).Runs Cl.port Port.EndlessNoLf c :=
  Res.Runs.after (d := c.initStart) (Port.Later.refl _) <|
    (Cl.step1_runs p _ _).bind fun d => (Cl.hold_runs p d).bind fun e =>
      (Cl.step3_runs p _ e).bind fun _ => Port.Later.refl _

theorem Cl.measParse_runs (p : Straps) (i : CmdId) (c : Cl) : (c.measParse p i).Runs Cl.port Port.EndlessNoLf c := by
  unfold Cl.measParse
  split
  · exact Port.Later.refl _
  · refine (Cl.check_runs c).bind fun d => (Cl.pval_runs _ d).bind fun e => Res.Runs.bind ?_ fun f => ?_
    · split
      · exact Port.Later.refl _
      · exact Cl.psec_runs e
    · exact Port.Later.refl _

theorem Cl.measure_runs (p : Straps) (i : CmdId) (c : Cl) : (c.measure p i).Runs Cl.port Port.EndlessNoLf c :=
  (Res.Runs.after (d := c.clearRangeWarnings.clearNres) (Port.Later.refl _) (Cl.flush_runs _)).bind fun d =>
    (Cl.send_runs p .c40r d).bind fun e => (Cl.send_runs p i e).bind fun f =>
      (Cl.rxlineOp_runs p f).bind (Cl.measParse_runs p i)

/-! ### The bodies of the `UT` operations -/

theorem Ut.listenStart_port (u : Ut) : u.listenStart.port = u.port := by unfold Ut.listenStart; split <;> rfl

theorem Ut.listenTimeout_port (n : Nat) (u : Ut) : (u.listenTimeout n).port = u.port := by
  unfold Ut.listenTimeout; split <;> (try split) <;> rfl

theorem Ut.listen_runs {E : Port → Prop} (p : Straps) (u : Ut) : (u.listen p).Runs Ut.port E u := by
  refine Res.Runs.after (d := u.listenStart) (by rw [Ut.listenStart_port]; exact Port.Later.refl _) ?_
  generalize hv : u.listenStart = v
  have h := Port.rxNext_later v.port .scan
  simp only [Ut.listen, hv]
  generalize v.port.rxNext .scan = r at h ⊢
  obtain ⟨a, q⟩ := r
  cases a with
  | linkErr => exact Or.inr ⟨rfl, h⟩
  | never => exact ⟨h.1, Or.inl h.2⟩
  | byte b => exact h
  | timeout => simp only [Res.Runs, Ut.listenTimeout_port]; exact h

/-- A listen that answers `Accum` has taken one of the bytes to come, or one of an endless stream. -/
theorem Ut.listen_accum (p : Straps) (u v : Ut) (h : u.listen p = .done v) (ha : v.status = .accum) :
    v.port.supply + 1 = u.port.supply ∧ v.port.stream = u.port.stream ∨ v.port.Endless ∧ v.port.rxq = [] := by
  rw [← Ut.listenStart_port u]
  unfold Ut.listen at h
  split at h
  · simp at h
  · simp at h
  · next b q hq =>
    simp only [Res.done.injEq] at h
    subst h
    refine (Port.rxNext_byte _ _ _ _ hq).imp id fun hs => ?_
    obtain ⟨_, ht, hr, bs, _, he⟩ := hs
    exact ⟨⟨ht, by show q.stream ≠ []; simp [he]⟩, hr⟩
  · next q _ =>
    simp only [Res.done.injEq] at h
    subst h
    unfold Ut.listenTimeout at ha
    split at ha <;> (try split at ha) <;> simp [Ut.setStatus] at ha

/-- A byte scan with fuel enough runs out of it only on endless bytes (43_ut_frame.md R177). -/
theorem Ut.scan_runs (p : Straps) (fuel : Nat) (u : Ut)
    (hf : u.port.supply < fuel ∨ u.port.Endless ∧ u.port.rxq = []) :
    (Ut.scan p fuel u).Runs Ut.port Port.Endless u := by
  induction fuel generalizing u with
  | zero => exact ⟨Port.Later.refl _, Or.inr (hf.resolve_left (by omega)).1⟩
  | succ fuel ih =>
    have hr := Ut.listen_runs (E := Port.Endless) p u
    simp only [Ut.scan]
    cases hl : u.listen p with
    | stuck v => rw [hl] at hr; exact hr
    | raised x v => rw [hl] at hr; exact hr
    | done v =>
      rw [hl] at hr
      simp only [Res.bind_done]
      split
      · next ha =>
        refine Res.Runs.after (d := v) hr (ih v ?_)
        refine (Ut.listen_accum p u v hl ha).imp (fun hs => ?_) id
        rcases hf with hf | ⟨⟨ht, _⟩, hq⟩
        · omega
        · rw [show u.port.supply = 0 by simp [Port.supply, ht, hq]] at hs; omega
      · exact hr

theorem Ut.readLoop_runs {E : Port → Prop} (n : Nat) (u : Ut) : (Ut.readLoop n u).Runs Ut.port E u := by
  induction n generalizing u with
  | zero => exact Port.Later.refl u.port
  | succ n ih =>
    have h := Port.rxNext_later u.port .lock
    simp only [Ut.readLoop]
    generalize u.port.rxNext .lock = r at h ⊢
    obtain ⟨a, q⟩ := r
    cases a with
    | linkErr => exact Or.inr ⟨rfl, h⟩
    | never => exact ⟨h.1, Or.inl h.2⟩
    | byte b => exact Res.Runs.after (d := (u.setPort q).storeRaw b) h (ih _)
    | timeout => exact h

theorem Ut.read33_runs {E : Port → Prop} (u : Ut) : u.read33.Runs Ut.port E u := by
  have h := Res.Runs.after (E := E) (d := { u with rawcnt := 0, closed := false }) (c := u) (Port.Later.refl _)
    (Ut.readLoop_runs 33 _)
  exact h.bind fun d => Port.Later.refl d.port

@[simp] theorem Ut.acceptFrame_port (u : Ut) : u.acceptFrame.port = u.port := by
  unfold Ut.acceptFrame; split <;> rfl

theorem Ut.sync_runs (p : Straps) (u : Ut) :
    (u.sync p).Runs Ut.port (fun q => u.mode = .resync ∧ q.Endless) u := by
  unfold Ut.sync
  split
  · next hm =>
    refine ((Ut.scan_runs p _ u (Or.inl (Nat.lt_succ_self _))).weaken fun q hq => ⟨hm, hq⟩).bind fun d => ?_
    split
    · simp only [Res.Runs, Ut.acceptFrame_port]; exact Port.Later.refl _
    · exact Port.Later.refl d.port
  · refine (Ut.read33_runs u).bind fun d => ?_
    simp only [Res.Runs, Ut.acceptFrame_port]; exact Port.Later.refl _

theorem Ut.lux_runs {E : Port → Prop} (u : Ut) : u.lux.Runs Ut.port E u := by
  refine Res.runs_pure ?_; unfold Ut.lux; split <;> simp

theorem Ut.monFrame_runs {E : Port → Prop} (u : Ut) : u.monFrame.Runs Ut.port E u := by
  unfold Ut.monFrame
  dsimp only
  split
  · exact Port.Later.refl _
  · exact Res.Runs.after (Port.Later.refl _) (Ut.lux_runs _)

theorem Ut.mon_runs (p : Straps) (u : Ut) : (u.mon p).Runs Ut.port (fun q => u.mode = .resync ∧ q.Endless) u := by
  refine (Ut.sync_runs p u).bind fun d => ?_
  split
  · exact Port.Later.refl d.port
  · exact Res.Runs.after (d := d.summarized p) (Port.Later.refl d.port) (Ut.monFrame_runs _)

theorem Ut.accumulate_port (p : Straps) (u : Ut) : (u.accumulate p).port = u.port := by
  unfold Ut.accumulate Ut.addReading
  split
  · rfl
  · dsimp only; split <;> rfl

theorem Ut.average_runs (p : Straps) (u : Ut) : (u.average p).Runs Ut.port (fun q => u.mode = .resync ∧ q.Endless) u := by
  refine (Ut.mon_runs p u).bind fun d => ?_
  split
  · exact Port.Later.refl _
  · simp only [Res.Runs, Ut.accumulate_port]; exact Port.Later.refl _

end Sys2Proof.Machine
end

