-- ==== Sys2Proof/Laws/Keeps.lean ====
section
/-! SUPPORT. What every operation's body keeps of its channel: the handshake state, the fault register, the counters
and the ranges of 10_state.md. -/

namespace Sys2Proof.Machine

open Host

/-- The ranges of the buffers, the result registers and the range warnings, under a line buffer that holds a byte. -/
abbrev Cl.Mid (p : Straps) (c : Cl) : Prop :=
  0 < p.rxlineCap ∧ c.BuffersWf p ∧ c.res.Wf ∧ ¬ (c.warn.range = true ∧ c.warn.lowLum = true)

/-- Of two moments of one operation: handshake state, fault register, counters and `busy` the same, ranges kept. -/
def Cl.Keeps (p : Straps) (c d : Cl) : Prop :=
  d.hs = c.hs ∧ d.fault = c.fault ∧ d.pcTry = c.pcTry ∧ d.extTry = c.extTry ∧ d.busy = c.busy ∧
    (c.Mid p → d.Mid p)

/-- The same, and the range warnings as well. -/
def Cl.KeepsWarn (p : Straps) (c d : Cl) : Prop :=
  c.Keeps p d ∧ d.warn.range = c.warn.range ∧ d.warn.lowLum = c.warn.lowLum

theorem Cl.Keeps.refl (p : Straps) (c : Cl) : c.Keeps p c := ⟨rfl, rfl, rfl, rfl, rfl, id⟩

theorem Cl.Keeps.trans {p : Straps} {c d e : Cl} (h1 : c.Keeps p d) (h2 : d.Keeps p e) : c.Keeps p e :=
  ⟨h2.1.trans h1.1, h2.2.1.trans h1.2.1, h2.2.2.1.trans h1.2.2.1, h2.2.2.2.1.trans h1.2.2.2.1,
    h2.2.2.2.2.1.trans h1.2.2.2.2.1, fun h => h2.2.2.2.2.2 (h1.2.2.2.2.2 h)⟩

theorem Cl.KeepsWarn.refl (p : Straps) (c : Cl) : c.KeepsWarn p c := ⟨.refl p c, rfl, rfl⟩

theorem Cl.KeepsWarn.trans {p : Straps} {c d e : Cl} (h1 : c.KeepsWarn p d) (h2 : d.KeepsWarn p e) :
    c.KeepsWarn p e := ⟨h1.1.trans h2.1, h2.2.1.trans h1.2.1, h2.2.2.trans h1.2.2⟩

theorem Cl.Keeps.tr (p : Straps) : ∀ c d e : Cl, c.Keeps p d → d.Keeps p e → c.Keeps p e :=
  fun _ _ _ => Cl.Keeps.trans

theorem Cl.KeepsWarn.tr (p : Straps) : ∀ c d e : Cl, c.KeepsWarn p d → d.KeepsWarn p e → c.KeepsWarn p e :=
  fun _ _ _ => Cl.KeepsWarn.trans

/-- A body that keeps, however it ends. -/
def Res.Kept {α : Type} (R : α → α → Prop) (c : α) (r : Res α) : Prop := r.Sat (R c) (fun _ d => R c d) (R c)

theorem Res.Kept.bind {α : Type} {R : α → α → Prop} (ht : ∀ a b c, R a b → R b c → R a c) {c : α} {r : Res α}
    {f : α → Res α} (hr : r.Kept R c) (hf : ∀ d, R c d → (f d).Kept R d) : (r.bind f).Kept R c :=
  Res.Sat.bind hr fun d hd => (hf d hd).mono (fun _ he => ht _ _ _ hd he) (fun _ _ he => ht _ _ _ hd he) fun _ he =>
    ht _ _ _ hd he

theorem Res.Kept.after {α : Type} {R : α → α → Prop} (ht : ∀ a b c, R a b → R b c → R a c) {c d : α} {r : Res α}
    (h : R c d) (hr : r.Kept R d) : r.Kept R c := hr.mono (fun _ he => ht _ _ _ h he) (fun _ _ he => ht _ _ _ h he) fun _ he => ht _ _ _ h he

/-! ### `CL` -/

theorem Cl.setPort_keeps (p : Straps) (c : Cl) (q : Port) : c.KeepsWarn p (c.setPort q) :=
  ⟨⟨rfl, rfl, rfl, rfl, rfl, id⟩, rfl, rfl⟩

theorem Cl.setStatus_keeps (p : Straps) (c : Cl) (x : Code) : c.KeepsWarn p (c.setStatus x) :=
  ⟨⟨rfl, rfl, rfl, rfl, rfl, id⟩, rfl, rfl⟩

theorem Cl.setRes_keeps (p : Straps) (c : Cl) (r : ClResults) (h : c.res.Wf → r.Wf) : c.KeepsWarn p (c.setRes r) :=
  ⟨⟨rfl, rfl, rfl, rfl, rfl, fun hm => ⟨hm.1, hm.2.1, h hm.2.2.1, hm.2.2.2⟩⟩, rfl, rfl⟩

theorem Cl.loadFrame_keeps (p q : Straps) (i : CmdId) (c : Cl) : c.KeepsWarn p (c.loadFrame q i) :=
  ⟨⟨rfl, rfl, rfl, rfl, rfl, fun hm => ⟨hm.1, ⟨hm.2.1.1, hm.2.1.2.1, Or.inr rfl, hm.2.1.2.2.2⟩, hm.2.2⟩⟩, rfl, rfl⟩

theorem Cl.afterAck_keeps (p : Straps) (c : Cl) (r : Ack × Port) : (c.afterAck r).Kept (Cl.KeepsWarn p) c := by
  obtain ⟨a, q⟩ := r
  cases a
  · exact Cl.setPort_keeps p c q
  · exact Cl.setPort_keeps p c q
  · exact Cl.setPort_keeps p c q

theorem Cl.txBytes_keeps (p : Straps) (bs : List Byte) (c : Cl) : (Cl.txBytes bs c).Kept (Cl.KeepsWarn p) c := by
  induction bs generalizing c with
  | nil => exact Cl.KeepsWarn.refl p c
  | cons b bs ih => exact Res.Kept.bind (Cl.KeepsWarn.tr p) (Cl.afterAck_keeps p c _) fun d _ => ih d

theorem Cl.transmit_keeps (p : Straps) (k : SettleClass) (c : Cl) : (c.transmit k).Kept (Cl.KeepsWarn p) c :=
  Res.Kept.bind (Cl.KeepsWarn.tr p) (Cl.txBytes_keeps p _ c) fun d _ => Cl.afterAck_keeps p d _

theorem Cl.send_keeps (p q : Straps) (i : CmdId) (c : Cl) : (c.send q i).Kept (Cl.KeepsWarn p) c :=
  Res.Kept.after (Cl.KeepsWarn.tr p) (Cl.loadFrame_keeps p q i c) (Cl.transmit_keeps p _ _)

theorem Cl.flush_keeps (p : Straps) (c : Cl) : c.flush.Kept (Cl.KeepsWarn p) c := Cl.afterAck_keeps p c _

/-- `rxline()` keeps, however it ends. -/
theorem Cl.rxlineOp_keeps (p : Straps) (c : Cl) :
    (c.rxlineOp p).Kept (Cl.KeepsWarn p) c := by
  have hf : ∀ d, c.rxStart.SameButLine d → (c.Mid p → d.BuffersWf p) → c.KeepsWarn p d := by
    intro d h hb
    refine ⟨⟨?_, ?_, ?_, ?_, ?_, fun hm => ⟨hm.1, hb hm, ?_, ?_⟩⟩, ?_, ?_⟩ <;> rw [h]
    · rfl
    · rfl
    · rfl
    · rfl
    · rfl
    · exact hm.2.2.1
    · exact hm.2.2.2
    · rfl
    · rfl
  have hopen : ∀ d, c.Mid p → c.rxStart.SameButLine d →
      d.rxline.length = p.rxlineCap ∧ d.rxlen ≤ p.rxlineCap ∧ d.rxstat = c.rxStart.rxstat → c.KeepsWarn p d := by
    intro d hm h hb
    refine hf d h fun _ => ⟨hb.1, hb.2.1, ?_, ?_, ?_⟩
    · rw [h]; exact hm.2.1.2.2.1
    · rw [hb.2.2]; simp [Cl.rxStart]
    · rw [hb.2.2]; simp [Cl.rxStart]
  unfold Cl.rxlineOp
  generalize c.port.supply + c.port.stream.length + 1 = fuel
  have hs := Cl.rxLoop_sameButLine p.rxlineCap fuel c.rxStart
  by_cases hm : c.Mid p
  · have hb := Cl.rxLoop_bounds p.rxlineCap fuel c.rxStart hm.1 ⟨hm.2.1.1, Nat.zero_le _⟩
    cases hr : Cl.rxLoop p.rxlineCap fuel c.rxStart with
    | stuck d => rw [hr] at hs hb; exact hopen d hm hs hb
    | done d =>
      rw [hr] at hs hb
      refine hf d hs fun _ => ⟨hb.1.1, hb.1.2, ?_, hb.2.2.1, hb.2.2.2⟩
      rw [hs]; exact hm.2.1.2.2.1
    | raised x d => rw [hr] at hs hb; exact hopen d hm hs.2 hb
  · exact hs.mono (fun d hd => hf d hd fun h => absurd h hm) (fun x d hd => hf d hd.2 fun h => absurd h hm)
      fun d hd => hf d hd fun h => absurd h hm

/-- Checks (1) to (4), on a channel whose two range warnings are clear. -/
theorem Cl.check_keeps (p : Straps) (c : Cl) (hw : c.warn.range = false ∧ c.warn.lowLum = false) :
    c.check.Kept (Cl.Keeps p) c := by
  have hk : c.Keeps p { c with warn := c.warn.ofErr (byteAt c.line 6) } := by
    refine ⟨rfl, rfl, rfl, rfl, rfl, fun hm => ⟨hm.1, hm.2.1, hm.2.2.1, ?_⟩⟩
    simp only [ClWarn.ofErr, hw.1, hw.2, Bool.false_or, decide_eq_true_eq]
    rintro ⟨h5, h6⟩
    rw [h5] at h6
    exact absurd h6 (by decide)
  unfold Cl.check Cl.checkBattery
  split
  · exact Cl.Keeps.refl p c
  · split
    · exact Cl.Keeps.refl p c
    · split
      · exact hk
      · split
        · exact hk
        · exact hk

theorem digits4_le {a b c d : Option Nat} {n : Nat} (h : digits4 a b c d = some n) (ha : ∀ x ∈ a, x ≤ 9)
    (hb : ∀ x ∈ b, x ≤ 9) (hc : ∀ x ∈ c, x ≤ 9) (hd : ∀ x ∈ d, x ≤ 9) : n ≤ 9999 := by
  unfold digits4 at h
  split at h
  · next a b c d =>
    simp only [Option.some.injEq] at h
    have := ha a rfl; have := hb b rfl; have := hc c rfl; have := hd d rfl
    omega
  · simp at h

theorem dig_le {b : Byte} {n : Nat} (h : dig b = some n) : n ≤ 9 := by
  unfold dig at h
  split at h
  · simp only [Option.some.injEq] at h; omega
  · simp at h

theorem dec4_le {f : List Byte} {n : Nat} (h : dec4 f = some n) : n ≤ 9999 :=
  digits4_le h (fun _ hx => dig_le hx) (fun _ hx => dig_le hx) (fun _ hx => dig_le hx) fun _ hx => dig_le hx

theorem primaryValue_natAbs (neg : Bool) (m d : Nat) : (primaryValue neg m d).natAbs = m * 10 ^ d := by
  unfold primaryValue
  split <;> simp [Int.natAbs_mul]

theorem round3_le (tie : RoundTie) (v : Int) (n : Nat) (h : v.natAbs ≤ 10 * n) : (round3 tie v).natAbs ≤ n := by
  have hm : round3Mag tie v.natAbs ≤ n := by
    unfold round3Mag
    split
    · omega
    · split
      · omega
      · cases tie <;> dsimp only <;> (try split) <;> omega
  unfold round3
  split <;> simpa using hm

theorem ClResults.withPrimary_wf (tie : RoundTie) (neg : Bool) (m d : Nat) (r : ClResults) (hm : m ≤ 9999)
    (hd : d ≤ 9) (h : r.Wf) : (r.withPrimary tie neg m d).Wf := by
  have hv : (primaryValue neg m d).natAbs ≤ 9999 * 10 ^ 9 := by
    rw [primaryValue_natAbs]
    exact Nat.mul_le_mul hm (Nat.pow_le_pow_right (by omega) hd)
  exact ⟨hm, hd, hv, round3_le tie _ _ (by omega), h.2.2.2.2⟩

theorem Cl.pval_keeps (p : Straps) (tie : RoundTie) (c : Cl) : (c.pval tie).Kept (Cl.KeepsWarn p) c := by
  unfold Cl.pval
  split
  · exact Cl.KeepsWarn.refl p c
  · split
    · next m d hm hd =>
      exact Cl.setRes_keeps p c _ (ClResults.withPrimary_wf tie _ m d _ (dec4_le hm) (dig_le hd))
    · exact Cl.KeepsWarn.refl p c

theorem Cl.psec_keeps (p : Straps) (c : Cl) : c.psec.Kept (Cl.KeepsWarn p) c := by
  unfold Cl.psec
  split
  · exact Cl.KeepsWarn.refl p c
  · split
    · next a b ha hb =>
      exact Cl.setRes_keeps p c _ fun h =>
        ⟨h.1, h.2.1, h.2.2.1, h.2.2.2.1, dec4_le ha, dec4_le hb, h.2.2.2.2.2.2⟩
    · exact Cl.KeepsWarn.refl p c

theorem Cl.computeCct_keeps (p : Straps) (c : Cl) : c.computeCct.Kept (Cl.KeepsWarn p) c := by
  unfold Cl.computeCct
  split
  · exact Cl.setRes_keeps p c _ id
  · exact Cl.KeepsWarn.refl p c

theorem Cl.clearNres_keeps (p : Straps) (c : Cl) : c.KeepsWarn p c.clearNres :=
  Cl.setRes_keeps p c _ fun h => ⟨h.1, h.2.1, h.2.2.1, h.2.2.2.1, h.2.2.2.2.1, h.2.2.2.2.2.1, Or.inl rfl, h.2.2.2.2.2.2.2⟩

theorem Cl.loseResults_keeps (p : Straps) (c : Cl) : c.KeepsWarn p c.loseResults :=
  ⟨⟨rfl, rfl, rfl, rfl, rfl, fun hm => ⟨hm.1, hm.2.1, (ClResults.unspecified_wf _ _).1, hm.2.2.2⟩⟩, rfl, rfl⟩

theorem Cl.deliver_keeps (p : Straps) (i : CmdId) (c : Cl) : c.KeepsWarn p (c.deliver i) := by
  refine Cl.KeepsWarn.trans (Cl.setRes_keeps p c _ fun h => ?_) (Cl.setStatus_keeps p _ _)
  have hn : ∀ n, n = (if i = .c02 then 1 else 3) → n = 0 ∨ n = 1 ∨ n = 3 := by intro n hn; split at hn <;> omega
  split
  · exact ⟨h.1, h.2.1, h.2.2.1, h.2.2.2.1, h.2.2.2.2.1, h.2.2.2.2.2.1, hn _ rfl, h.2.2.2.2.2.2.2⟩
  · exact ⟨h.1, h.2.1, h.2.2.1, h.2.2.2.1, h.2.2.2.2.1, h.2.2.2.2.2.1, hn _ rfl, h.2.2.2.2.2.2.2⟩

theorem Cl.measParse_keeps (p : Straps) (i : CmdId) (c : Cl)
    (hw : c.warn.range = false ∧ c.warn.lowLum = false) : (c.measParse p i).Kept (Cl.Keeps p) c := by
  have weak : ∀ {d : Cl} {r : Res Cl}, r.Kept (Cl.KeepsWarn p) d → r.Kept (Cl.Keeps p) d :=
    fun h => h.mono (fun _ h => h.1) (fun _ _ h => h.1) fun _ h => h.1
  unfold Cl.measParse
  split
  · exact (Cl.loseResults_keeps p c).1.trans ((Cl.clearNres_keeps p _).1.trans (Cl.setStatus_keeps p _ _).1)
  · refine Res.Kept.bind (Cl.Keeps.tr p) (Cl.check_keeps p c hw) fun d _ =>
      Res.Kept.bind (Cl.Keeps.tr p) (weak (Cl.pval_keeps p _ d)) fun e _ =>
        Res.Kept.bind (Cl.Keeps.tr p) ?_ fun f _ => (Cl.deliver_keeps p i f).1
    split
    · exact Cl.Keeps.refl p e
    · exact weak (Cl.psec_keeps p e)

theorem Cl.measure_keeps (p : Straps) (i : CmdId) (c : Cl) :
    (c.measure p i).Kept (Cl.Keeps p) c := by
  have h0 : c.clearRangeWarnings.KeepsWarn p c.clearRangeWarnings.clearNres := Cl.clearNres_keeps p _
  have h1 : c.Keeps p c.clearRangeWarnings :=
    ⟨rfl, rfl, rfl, rfl, rfl, fun hm => ⟨hm.1, hm.2.1, hm.2.2.1, by simp [Cl.clearRangeWarnings]⟩⟩
  have hc : c.clearRangeWarnings.warn.range = false ∧ c.clearRangeWarnings.warn.lowLum = false := ⟨rfl, rfl⟩
  unfold Cl.measure
  generalize c.clearRangeWarnings = c1 at h0 h1 hc ⊢
  have step : ∀ {d : Cl} {r : Res Cl} {f : Cl → Res Cl}, c1.KeepsWarn p d → r.Kept (Cl.KeepsWarn p) d →
      (∀ e, c1.KeepsWarn p e → (f e).Kept (Cl.Keeps p) e) → (r.bind f).Kept (Cl.Keeps p) d := by
    intro d r f hd hr hf
    exact Res.Sat.bind (hr.mono (fun _ h => h) (fun _ _ h => h.1) fun _ h => h.1) fun e he =>
      (hf e (hd.trans he)).mono (fun _ h => he.1.trans h) (fun _ _ h => he.1.trans h) fun _ h => he.1.trans h
  refine Res.Kept.after (Cl.Keeps.tr p) (h1.trans h0.1) ?_
  exact step h0 (Cl.flush_keeps p _) fun d hd => step hd (Cl.send_keeps p p .c40r d) fun e he =>
    step he (Cl.send_keeps p p i e) fun f hf => step hf (Cl.rxlineOp_keeps p f) fun g hg =>
      Cl.measParse_keeps p i g ⟨hg.2.1.trans hc.1, hg.2.2.trans hc.2⟩

end Sys2Proof.Machine
end

