-- ==== Sys2Proof/Laws/Handshake.lean ====
section
/-! SUPPORT. What the handshake of 42_cl_sequencer.md R140 to R146 does to the handshake state and the counters. -/

namespace Sys2Proof.Machine

open Host

/-- Of two moments of one `CL.INIT`: the fault register and `busy` the same, at most `n` and `m` more attempts of the
two commands, ranges kept, no `Faulted` yet. -/
def Cl.Inits (p : Straps) (n m : Nat) (c d : Cl) : Prop :=
  (d.fault = c.fault ∧ d.busy = c.busy) ∧ d.pcTry ≤ c.pcTry + n ∧ d.extTry ≤ c.extTry + m ∧ (c.Mid p → d.Mid p) ∧
    (c.hs ≠ .faulted → d.hs ≠ .faulted)

theorem Cl.Keeps.inits {p : Straps} {c d : Cl} (h : c.Keeps p d) : c.Inits p 0 0 d :=
  ⟨⟨h.2.1, h.2.2.2.2.1⟩, le_of_eq h.2.2.1, le_of_eq h.2.2.2.1, h.2.2.2.2.2, fun hc => h.1 ▸ hc⟩

theorem Cl.Inits.trans {p : Straps} {n m n' m' : Nat} {c d e : Cl} (h1 : c.Inits p n m d)
    (h2 : d.Inits p n' m' e) : c.Inits p (n + n') (m + m') e := by
  obtain ⟨a1, b1, c1, d1, e1⟩ := h1
  obtain ⟨a2, b2, c2, d2, e2⟩ := h2
  exact ⟨⟨a2.1.trans a1.1, a2.2.trans a1.2⟩, by omega, by omega, d2 ∘ d1, e2 ∘ e1⟩

theorem Cl.Inits.mono {p : Straps} {n m n' m' : Nat} {c d : Cl} (h : c.Inits p n m d) (hn : n ≤ n') (hm : m ≤ m') :
    c.Inits p n' m' d := by
  obtain ⟨a1, b1, c1, d1, e1⟩ := h
  exact ⟨a1, by omega, by omega, d1, e1⟩

/-- A part of the handshake: `Inits`, however it ends, and every fault it raises is fatal in `CL.INIT`
(42_cl_sequencer.md R146). -/
def Cl.InitPart (p : Straps) (n m : Nat) (c : Cl) (r : Res Cl) : Prop :=
  r.Sat (c.Inits p n m) (fun x d => x.fatal true = true ∧ c.Inits p n m d) (c.Inits p n m)

theorem Cl.InitPart.bind {p : Straps} {n m n' m' : Nat} {c : Cl} {r : Res Cl} {f : Cl → Res Cl}
    (hr : c.InitPart p n m r) (hf : ∀ d, c.Inits p n m d → d.InitPart p n' m' (f d)) :
    c.InitPart p (n + n') (m + m') (r.bind f) := by
  cases r with
  | stuck d => exact Cl.Inits.mono hr (by omega) (by omega)
  | done d =>
    exact (hf d hr).mono (fun _ h => Cl.Inits.trans hr h) (fun _ _ h => ⟨h.1, Cl.Inits.trans hr h.2⟩)
      fun _ h => Cl.Inits.trans hr h
  | raised x d => exact ⟨hr.1, hr.2.mono (by omega) (by omega)⟩

theorem Cl.InitPart.mono {p : Straps} {n m n' m' : Nat} {c : Cl} {r : Res Cl} (h : c.InitPart p n m r)
    (hn : n ≤ n') (hm : m ≤ m') : c.InitPart p n' m' r :=
  Res.Sat.mono h (fun _ h => h.mono hn hm) (fun _ _ h => ⟨h.1, h.2.mono hn hm⟩) fun _ h => h.mono hn hm

theorem Cl.InitPart.after {p : Straps} {n m n' m' : Nat} {c d : Cl} {r : Res Cl} (h : c.Inits p n m d)
    (hr : d.InitPart p n' m' r) : c.InitPart p (n + n') (m + m') r :=
  Res.Sat.mono hr (fun _ he => h.trans he) (fun _ _ he => ⟨he.1, h.trans he.2⟩) fun _ he => h.trans he

/-- The transport parts: they raise `TransportError` only. -/
theorem Cl.initPart_of_kept {p : Straps} {c : Cl} {r : Res Cl} (h : r.Kept (Cl.KeepsWarn p) c)
    (hx : r.Sat (fun _ => True) fun x _ => x = .transportError) : c.InitPart p 0 0 r := by
  cases r with
  | stuck d => exact (h.1.inits : c.Inits p 0 0 d)
  | done d => exact (h.1.inits : c.Inits p 0 0 d)
  | raised x d => exact ⟨by rw [show x = .transportError from hx]; rfl, h.1.inits⟩

theorem Cl.flush_initPart (p : Straps) (c : Cl) : c.InitPart p 0 0 c.flush :=
  Cl.initPart_of_kept (Cl.flush_keeps p c) ((Cl.afterAck_sat c _).mono (fun _ _ => trivial) fun _ _ h => h.1)

theorem Cl.send_initPart (p : Straps) (i : CmdId) (c : Cl) : c.InitPart p 0 0 (c.send p i) :=
  Cl.initPart_of_kept (Cl.send_keeps p p i c)
    ((Cl.transmit_port_only _ _).mono (fun _ _ => trivial) fun _ _ h => h.1)

theorem Cl.rxlineOp_initPart (p : Straps) (c : Cl) : c.InitPart p 0 0 (c.rxlineOp p) :=
  Cl.initPart_of_kept (Cl.rxlineOp_keeps p c)
    ((Cl.rxLoop_sameButLine _ _ _).mono (fun _ _ => trivial) fun _ _ h => h.1)

theorem Cl.setHs_inits (p : Straps) (c : Cl) (h : Hs) (hh : h ≠ .faulted) : c.Inits p 0 0 (c.setHs h) :=
  ⟨⟨rfl, rfl⟩, le_rfl, le_rfl, id, fun _ => hh⟩

theorem Cl.attempt54_initPart (p : Straps) (c : Cl) : c.InitPart p 1 0 (c.attempt54 p) :=
  Cl.InitPart.after (n := 1) (m := 0) (n' := 0) (m' := 0) (d := { c with pcTry := c.pcTry + 1 })
    ⟨⟨rfl, rfl⟩, le_rfl, le_rfl, id, id⟩
    ((Cl.flush_initPart p _).bind fun d _ => (Cl.send_initPart p .c54 d).bind fun e _ =>
      Cl.rxlineOp_initPart p e)

theorem Cl.exhausted54_initPart (p : Straps) (c : Cl) : c.InitPart p 0 0 (c.exhausted54 p) := by
  unfold Cl.exhausted54
  split
  · exact ⟨rfl, ⟨rfl, rfl⟩, le_rfl, le_rfl, id, id⟩
  · exact ⟨⟨rfl, rfl⟩, le_rfl, le_rfl, id, fun _ => by simp⟩

theorem Cl.step1_initPart (p : Straps) (n : Nat) (c : Cl) :
    c.InitPart p n 0 (Cl.step1 p n c) := by
  induction n generalizing c with
  | zero => exact Cl.exhausted54_initPart p c
  | succ n ih =>
    refine (Cl.InitPart.bind (n' := n) (m' := 0) (Cl.attempt54_initPart p c) fun d _ => ?_).mono (by omega)
      le_rfl
    split
    · exact (Cl.setHs_inits p d .pcConnected (by simp)).mono (Nat.zero_le _) le_rfl
    · exact ih d

theorem Cl.hold_initPart (p : Straps) (c : Cl) : c.InitPart p 0 0 (c.hold p) := by
  have h : ∀ e : Cl, e.InitPart p 0 0 (.done (e.setHs .held)) := fun e => Cl.setHs_inits p e .held (by simp)
  exact (Cl.flush_initPart p c).bind fun d _ => (Cl.send_initPart p .c55 d).bind fun e _ => h e

theorem Cl.attempt40_initPart (p : Straps) (c : Cl) : c.InitPart p 0 1 (c.attempt40 p) :=
  Cl.InitPart.after (n := 0) (m := 1) (n' := 0) (m' := 0) (d := { c with extTry := c.extTry + 1 })
    ⟨⟨rfl, rfl⟩, le_rfl, le_rfl, id, id⟩
    ((Cl.flush_initPart p _).bind fun d _ => (Cl.send_initPart p .c40 d).bind fun e _ =>
      Cl.InitPart.after (n := 0) (m := 0) (Cl.setHs_inits p e .extMode (by simp)) (Cl.rxlineOp_initPart p _))

theorem Cl.classify40_initPart (p : Straps) (m : Nat) (on4 : Cl → Res Cl) (c : Cl)
    (h4 : c.InitPart p 0 m (on4 c)) : c.InitPart p 0 m (c.classify40 on4) := by
  have h0 := (Cl.Keeps.refl p c).inits.mono (Nat.zero_le 0) (Nat.zero_le m)
  unfold Cl.classify40
  split
  · exact ⟨rfl, h0⟩
  · split
    · exact h4
    · split
      · exact ⟨rfl, h0⟩
      · exact (Cl.setHs_inits p c .ready (by simp)).mono (Nat.zero_le 0) (Nat.zero_le m)

theorem Cl.exhausted40_initPart (p : Straps) (c : Cl) : c.InitPart p 0 0 (c.exhausted40 p) := by
  unfold Cl.exhausted40
  split
  · exact ⟨rfl, Cl.setHs_inits p c .held (by simp)⟩
  · exact Cl.setHs_inits p c .ready (by simp)

theorem Cl.step3_initPart (p : Straps) (n : Nat) (c : Cl) :
    c.InitPart p 0 (n + 1) (Cl.step3 p n c) := by
  induction n generalizing c with
  | zero =>
    exact Cl.InitPart.bind (Cl.attempt40_initPart p c) fun d _ =>
      Cl.classify40_initPart p 0 _ d (Cl.exhausted40_initPart p d)
  | succ n ih =>
    refine (Cl.InitPart.bind (n' := 0) (m' := n + 1) (Cl.attempt40_initPart p c) fun d _ => ?_).mono le_rfl
      (by omega)
    refine Cl.classify40_initPart p (n + 1) _ d ?_
    exact (Cl.InitPart.bind (n' := 0) (m' := n + 1) (Cl.hold_initPart p d) fun e _ => ih e).mono le_rfl (by omega)

/-- Step 3 done leaves the channel `Ready`. -/
theorem Cl.step3_ready (p : Straps) (n : Nat) (c : Cl) :
    (Cl.step3 p n c).Sat (fun d => d.hs = .ready) fun _ _ => True := by
  have any : ∀ r : Res Cl, r.Sat (fun _ => True) fun _ _ => True := fun r => by cases r <;> trivial
  have hcl : ∀ (on4 : Cl → Res Cl) (d : Cl), (on4 d).Sat (fun d => d.hs = .ready) (fun _ _ => True) →
      (d.classify40 on4).Sat (fun d => d.hs = .ready) fun _ _ => True := by
    intro on4 d h4
    unfold Cl.classify40
    split
    · trivial
    · split
      · exact h4
      · split
        · trivial
        · exact rfl
  induction n generalizing c with
  | zero =>
    refine Res.Sat.bind (any _) fun d _ => hcl _ d ?_
    unfold Cl.exhausted40
    split
    · trivial
    · exact rfl
  | succ n ih =>
    exact Res.Sat.bind (any _) fun d _ => hcl _ d (Res.Sat.bind (any _) fun e _ => ih e)

/-- On the way through the handshake (42_cl_sequencer.md R153). -/
abbrev Cl.OnWay (c : Cl) : Prop := c.hs ∈ [Hs.disconnected, .pcConnected, .held, .extMode]

/-- A part of the handshake that is left on the way if it does not end, and keeps `P` where it is done. -/
abbrev Cl.Leaves (r : Res Cl) (P : Cl → Prop) : Prop := r.Sat P (fun _ _ => True) Cl.OnWay

/-- What keeps the handshake state leaves a channel that is on its way there. -/
theorem Cl.leaves_of_kept {p : Straps} {c : Cl} {r : Res Cl} (h : r.Kept (Cl.KeepsWarn p) c) (hc : c.OnWay) :
    Cl.Leaves r Cl.OnWay := by
  have hk : ∀ d, c.KeepsWarn p d → d.OnWay := fun d hd => by unfold Cl.OnWay; rw [hd.1.1]; exact hc
  exact Res.Sat.mono h hk (fun _ _ _ => trivial) hk

/-- One exchange leaves the channel on its way. -/
theorem Cl.leaves_exchange (p : Straps) (i : CmdId) (c : Cl) (hc : c.OnWay) :
    Cl.Leaves (c.flush.bind fun c => c.send p i) Cl.OnWay :=
  Res.Sat.bind (Cl.leaves_of_kept (Cl.flush_keeps p c) hc) fun d hd => Cl.leaves_of_kept (Cl.send_keeps p p i d) hd

theorem Res.bind_assoc {α : Type} (r : Res α) (f g : α → Res α) :
    (r.bind f).bind g = r.bind fun c => (f c).bind g := by cases r <;> rfl

theorem Cl.step1_leaves (p : Straps) (n : Nat) (c : Cl) (hc : c.OnWay) : Cl.Leaves (Cl.step1 p n c) Cl.OnWay := by
  induction n generalizing c with
  | zero => unfold Cl.step1 Cl.exhausted54; split <;> simp [Cl.Leaves, Cl.OnWay, Cl.setHs]
  | succ n ih =>
    refine Res.Sat.bind (P := Cl.OnWay) ?_ fun d hd => ?_
    · unfold Cl.attempt54
      rw [← Res.bind_assoc]
      exact Res.Sat.bind (Cl.leaves_exchange p .c54 _ hc) fun d hd => Cl.leaves_of_kept (Cl.rxlineOp_keeps p d) hd
    · split
      · simp [Cl.OnWay, Cl.setHs]
      · exact ih d hd

theorem Cl.hold_leaves (p : Straps) (c : Cl) (hc : c.OnWay) : Cl.Leaves (c.hold p) Cl.OnWay := by
  unfold Cl.hold
  rw [← Res.bind_assoc]
  exact Res.Sat.bind (Cl.leaves_exchange p .c55 c hc) fun d _ => by simp [Cl.OnWay, Cl.setHs]

theorem Cl.attempt40_leaves (p : Straps) (c : Cl) (hc : c.OnWay) : Cl.Leaves (c.attempt40 p) Cl.OnWay := by
  unfold Cl.attempt40
  rw [← Res.bind_assoc]
  exact Res.Sat.bind (Cl.leaves_exchange p .c40 _ hc) fun d _ =>
    Cl.leaves_of_kept (Cl.rxlineOp_keeps p _) (by simp [Cl.OnWay, Cl.setHs])

theorem Cl.step3_leaves (p : Straps) (n : Nat) (c : Cl) (hc : c.OnWay) :
    Cl.Leaves (Cl.step3 p n c) fun _ => True := by
  have hcl : ∀ (f : Cl → Res Cl), (∀ d : Cl, d.OnWay → Cl.Leaves (f d) fun _ => True) → ∀ d : Cl, d.OnWay →
      Cl.Leaves (d.classify40 f) fun _ => True := by
    intro f hf d hd
    unfold Cl.classify40
    repeat' split
    · trivial
    · exact hf d hd
    · trivial
    · trivial
  induction n generalizing c with
  | zero =>
    refine Res.Sat.bind (Cl.attempt40_leaves p c hc) (hcl _ fun d _ => ?_)
    unfold Cl.exhausted40; split <;> trivial
  | succ n ih =>
    exact Res.Sat.bind (Cl.attempt40_leaves p c hc) (hcl _ fun d hd => Res.Sat.bind (Cl.hold_leaves p d hd) ih)

/-- A handshake that does not end is left on its way (42_cl_sequencer.md R153; log 5). -/
theorem Cl.handshake_leaves (p : Straps) (c : Cl) (hc : c.OnWay) : Cl.Leaves (c.handshake p) fun _ => True :=
  Res.Sat.bind (Cl.step1_leaves p p.pcAttempts c.initStart hc) fun d hd =>
    Res.Sat.bind (Cl.hold_leaves p d hd) fun e he => Res.Sat.bind (Cl.step3_leaves p _ e he) fun _ _ => trivial

/-- The whole handshake: done, it is `Ready` with status `OK`; a fault it raises is fatal; the attempts are bounded
(42_cl_sequencer.md R140 to R146, 60_exceptions.md R206). -/
theorem Cl.handshake_sat (p : Straps) (c : Cl) :
    (c.handshake p).Sat
      (fun d => d.hs = .ready ∧ d.status = .ok ∧ c.initStart.Inits p p.pcAttempts (p.extAttempts - 1 + 1) d)
      (fun x d => x.fatal true = true ∧ c.initStart.Inits p p.pcAttempts (p.extAttempts - 1 + 1) d)
      (c.initStart.Inits p p.pcAttempts (p.extAttempts - 1 + 1)) := by
  have any : ∀ r : Res Cl, r.Sat (fun _ => True) fun _ _ => True := fun r => by cases r <;> trivial
  have h1 : c.initStart.InitPart p p.pcAttempts (p.extAttempts - 1 + 1) (c.handshake p) := by
    refine (Cl.InitPart.bind (n' := 0) (m' := p.extAttempts - 1 + 1) (Cl.step1_initPart p p.pcAttempts _)
      fun d _ => ?_).mono (by omega) (by omega)
    refine (Cl.InitPart.bind (n' := 0) (m' := p.extAttempts - 1 + 1) (Cl.hold_initPart p d) fun e _ => ?_).mono le_rfl
      (by omega)
    refine (Cl.InitPart.bind (n' := 0) (m' := 0) (Cl.step3_initPart p (p.extAttempts - 1) e)
      fun f _ => ?_).mono le_rfl (by omega)
    exact (Cl.setStatus_keeps p f .ok).1.inits
  have h2 : (c.handshake p).Sat (fun d => d.hs = .ready ∧ d.status = .ok) fun _ _ => True :=
    Res.Sat.bind (any _) fun d _ => Res.Sat.bind (any _) fun e _ =>
      Res.Sat.bind (Cl.step3_ready p _ e) fun f hf => ⟨hf, rfl⟩
  cases hr : c.handshake p with
  | stuck d => rw [hr] at h1; exact h1
  | done d => rw [hr] at h1 h2; exact ⟨h2.1, h2.2, h1⟩
  | raised x d => rw [hr] at h1; exact h1

end Sys2Proof.Machine
end

