-- ==== Sys2Proof/Laws/Receive.lean ====
section
/-! SUPPORT. What the bodies of the `UT` operations keep, and the states in which `sync()` can end. -/

namespace Sys2Proof.Machine

open Host

/-- Receiving writes the chunk registers, the scan counters, the status and the transport only; it keeps their
ranges and hands nothing to the line (20_memory.md R52). -/
def Ut.Receives (p : Straps) (u v : Ut) : Prop :=
  v = { u with raw := v.raw, rawcnt := v.rawcnt, closed := v.closed, idle := v.idle, hint := v.hint
               status := v.status, port := v.port } ∧
    (u.ScanWf p → v.ScanWf p) ∧
    (u.port.txq = [] → v.port.txq = [] ∧ v.port.wire = u.port.wire)

theorem Ut.Receives.refl (p : Straps) (u : Ut) : u.Receives p u := ⟨rfl, id, fun h => ⟨h, rfl⟩⟩

theorem Ut.Receives.trans {p : Straps} {u v w : Ut} (h1 : u.Receives p v) (h2 : v.Receives p w) :
    u.Receives p w := by
  refine ⟨?_, fun h => h2.2.1 (h1.2.1 h), fun h => ?_⟩
  · rw [h2.1, h1.1]
  · have a := h1.2.2 h
    have b := h2.2.2 a.1
    exact ⟨b.1, b.2.trans a.2⟩

/-- A body that receives, however it ends, and raises `TransportError` only. -/
def Ut.Receiving (p : Straps) (u : Ut) (r : Res Ut) : Prop :=
  r.Sat (u.Receives p) (fun x v => x = .transportError ∧ u.Receives p v) (u.Receives p)

theorem Ut.Receiving.bind {p : Straps} {u : Ut} {r : Res Ut} {f : Ut → Res Ut} (hr : u.Receiving p r)
    (hf : ∀ v : Ut, v.Receiving p (f v)) : u.Receiving p (r.bind f) :=
  Res.Sat.bind hr fun v hv => (hf v).mono (fun _ h => hv.trans h) (fun _ _ h => ⟨h.1, hv.trans h.2⟩) fun _ h => hv.trans h

theorem Ut.Receiving.after {p : Straps} {u v : Ut} {r : Res Ut} (h : u.Receives p v) (hr : v.Receiving p r) :
    u.Receiving p r := Res.Sat.mono hr (fun _ he => h.trans he) (fun _ _ he => ⟨he.1, h.trans he.2⟩)
    fun _ he => h.trans he

theorem Ut.setPort_receives (p : Straps) (u : Ut) (t : TimeoutClass) :
    u.Receives p (u.setPort (u.port.rxNext t).2) := ⟨rfl, id, Port.rxNext_idle_tx _ _⟩

theorem Ut.listenStart_receives (p : Straps) (u : Ut) : u.Receives p u.listenStart := by
  unfold Ut.listenStart
  split
  · exact ⟨rfl, fun h => ⟨Nat.zero_le _, h.2⟩, fun h => ⟨h, rfl⟩⟩
  · exact Ut.Receives.refl p u

theorem Ut.listenTimeout_receives (p : Straps) (u : Ut) : u.Receives p (u.listenTimeout p.waitLimit) := by
  unfold Ut.listenTimeout
  split
  · exact ⟨rfl, id, fun h => ⟨h, rfl⟩⟩
  · split
    · next hw =>
      refine ⟨rfl, fun h => ⟨h.1, hw, fun hh => ?_⟩, fun h => ⟨h, rfl⟩⟩
      exact absurd (h.2.2 hh) (by omega)
    · next hw => exact ⟨rfl, fun h => ⟨h.1, h.2.1, fun _ => le_antisymm h.2.1 (Nat.le_of_not_lt hw)⟩, fun h => ⟨h, rfl⟩⟩

theorem Ut.storeRaw_receives (p : Straps) (b : Byte) (u : Ut) : u.Receives p (u.storeRaw b) :=
  ⟨rfl, fun h => ⟨Nat.min_le_right _ _, h.2⟩, fun h => ⟨h, rfl⟩⟩

theorem Ut.listenByte_receives (p : Straps) (b : Byte) (u : Ut) : u.Receives p (u.listenByte b) :=
  (Ut.storeRaw_receives p b u).trans ⟨rfl, fun h => ⟨h.1, Nat.zero_le _, fun hh => Bool.noConfusion hh⟩, fun h => ⟨h, rfl⟩⟩

/-- `listen()`: what it keeps; and its status is one of the four of 43_ut_frame.md R161. -/
theorem Ut.listen_receiving (p : Straps) (u : Ut) : u.Receiving p (u.listen p) := by
  refine Ut.Receiving.after (Ut.listenStart_receives p u) ?_
  have h := Ut.setPort_receives p u.listenStart .scan
  unfold Ut.listen
  generalize u.listenStart = v at h ⊢
  generalize v.port.rxNext .scan = r at h ⊢
  obtain ⟨a, q⟩ := r
  cases a
  · exact h.trans (Ut.listenByte_receives p _ _)
  · exact h.trans (Ut.listenTimeout_receives p _)
  · exact ⟨rfl, h⟩
  · exact h

/-- The status of a `listen()` that is done (43_ut_frame.md R161); a chunk is never empty. -/
theorem Ut.listen_status (p : Straps) (u : Ut) :
    (u.listen p).Sat (fun v => v.status = .accum ∨ v.status = .waiting ∨ v.status = .hint ∨
      v.status = .chunk ∧ 0 < v.rawcnt) fun _ _ => True := by
  unfold Ut.listen
  split
  · trivial
  · trivial
  · exact Or.inl rfl
  · next q _ =>
    generalize u.listenStart.setPort q = v
    unfold Ut.listenTimeout
    simp only [Res.sat_done]
    split
    · next h => exact Or.inr (Or.inr (Or.inr ⟨rfl, h⟩))
    · split
      · exact Or.inr (Or.inl rfl)
      · exact Or.inr (Or.inr (Or.inl rfl))

theorem Ut.scan_receiving (p : Straps) (fuel : Nat) (u : Ut) : u.Receiving p (Ut.scan p fuel u) := by
  induction fuel generalizing u with
  | zero => exact Ut.Receives.refl p u
  | succ fuel ih =>
    refine (Ut.listen_receiving p u).bind fun v => ?_
    split
    · exact ih v
    · exact Ut.Receives.refl p v

/-- The status of a byte scan that is done (43_ut_frame.md R168). -/
theorem Ut.scan_status (p : Straps) (fuel : Nat) (u : Ut) :
    (Ut.scan p fuel u).Sat (fun v => v.status = .waiting ∨ v.status = .hint ∨ v.status = .chunk ∧ 0 < v.rawcnt)
      fun _ _ => True := by
  induction fuel generalizing u with
  | zero => trivial
  | succ fuel ih =>
    refine Res.Sat.bind (Ut.listen_status p u) fun v hv => ?_
    split
    · exact ih v
    · next hn => exact hv.resolve_left hn

theorem Ut.readLoop_receiving (p : Straps) (n : Nat) (u : Ut) : u.Receiving p (Ut.readLoop n u) := by
  induction n generalizing u with
  | zero => exact Ut.Receives.refl p u
  | succ n ih =>
    have h := Ut.setPort_receives p u .lock
    unfold Ut.readLoop
    generalize u.port.rxNext .lock = r at h ⊢
    obtain ⟨a, q⟩ := r
    cases a
    · exact Ut.Receiving.after (h.trans (Ut.storeRaw_receives p _ _)) (ih _)
    · exact h
    · exact ⟨rfl, h⟩
    · exact h

theorem Ut.read33_receiving (p : Straps) (u : Ut) : u.Receiving p u.read33 := by
  have h0 : u.Receives p { u with rawcnt := 0, closed := false } :=
    ⟨rfl, fun h => ⟨Nat.zero_le _, h.2⟩, fun h => ⟨h, rfl⟩⟩
  have h1 : ∀ v : Ut, v.Receiving p (.done v.readEnd) := fun v => ⟨rfl, id, fun h => ⟨h, rfl⟩⟩
  exact Ut.Receiving.after h0 ((Ut.readLoop_receiving p 33 _).bind h1)

/-- A block judged good is complete, so its payload is valid (43_ut_frame.md R164, R165). -/
theorem weird_false_count (raw : List Byte) (c : Nat) (h : weird raw c = false) : c = 33 := by
  by_contra hc
  simp [weird, hc] at h

/-- What both phases of `sync()` leave after they have judged a block (43_ut_frame.md R168). -/
theorem Ut.judge_cases (u : Ut) :
    u.decraw.acceptFrame = { u with
        payload := payloadOf u.raw.toList u.rawcnt, malformed := true, pvalid := decide (30 ≤ u.rawcnt)
        svalid := false, mode := .resync, status := .dropped, warn := { u.warn with malformed := true } } ∧
      weird u.raw.toList u.rawcnt = true ∨
    u.decraw.acceptFrame = { u with
        payload := payloadOf u.raw.toList u.rawcnt, malformed := false, pvalid := true
        svalid := false, mode := .steady, status := .ok, warn := { u.warn with malformed := false } } ∧
      weird u.raw.toList u.rawcnt = false := by
  cases hw : weird u.raw.toList u.rawcnt with
  | true => left; simp [Ut.acceptFrame, Ut.decraw, hw, Ut.setStatus]
  | false =>
    right
    have := weird_false_count _ _ hw
    rw [this] at hw
    simp [Ut.acceptFrame, Ut.decraw, hw, Ut.setStatus, this]

/-- Every way `sync()` can end: with nothing scanned; with a block judged; or with `TransportError`
(43_ut_frame.md R168, R171). -/
theorem Ut.sync_sat (p : Straps) (u : Ut) :
    (u.sync p).Sat
      (fun v => u.Receives p v ∧ u.mode = .resync ∧ (v.status = .waiting ∨ v.status = .hint) ∨
        ∃ w, u.Receives p w ∧ v = w.decraw.acceptFrame)
      (fun x v => x = .transportError ∧ u.Receives p v) (u.Receives p) := by
  unfold Ut.sync
  split
  · next hm =>
    have hr := Ut.scan_receiving p (u.port.supply + 1) u
    have hs := Ut.scan_status p (u.port.supply + 1) u
    generalize Ut.scan p (u.port.supply + 1) u = r at hr hs ⊢
    cases r with
    | stuck v => exact hr
    | raised x v => exact hr
    | done v =>
      simp only [Res.bind_done]
      split
      · exact Or.inr ⟨v, hr, rfl⟩
      · next hn =>
        refine Or.inl ⟨hr, hm, ?_⟩
        rcases hs with h | h | h
        · exact Or.inl h
        · exact Or.inr h
        · exact absurd h.1 hn
  · have hr := Ut.read33_receiving p u
    generalize u.read33 = r at hr ⊢
    cases r with
    | stuck v => exact hr
    | raised x v => exact hr
    | done v => exact Or.inr ⟨v, hr, rfl⟩

/-! ### Ranges -/

theorem Ut.Receives.wf {p : Straps} {u v : Ut} (h : u.Receives p v) (hw : u.Wf p) : v.Wf p := by
  obtain ⟨he, hs, ht⟩ := h
  have hq := ht hw.2.2.2.1.2.2.1
  refine ⟨hs hw.1, ?_, ?_, ⟨?_, ?_, hq.1, hq.2.trans hw.2.2.2.1.2.2.2⟩, ?_⟩ <;> rw [he]
  · exact hw.2.1
  · exact hw.2.2.1
  · exact hw.2.2.2.1.1
  · exact hw.2.2.2.1.2.1
  · exact hw.2.2.2.2

theorem Ut.Receiving.wf {p : Straps} {u : Ut} {r : Res Ut} (h : u.Receiving p r) (hw : u.Wf p) :
    r.Sat (fun v => v.Wf p) (fun _ v => v.Wf p) fun v => v.Wf p :=
  Res.Sat.mono h (fun _ hv => hv.wf hw) (fun _ _ hv => hv.2.wf hw) fun _ hv => hv.wf hw

theorem Ut.setStatus_wf {p : Straps} {u : Ut} (x : Code) (hw : u.Wf p) : (u.setStatus x).Wf p := hw

theorem Ut.decraw_wf {p : Straps} {u : Ut} (hw : u.Wf p) : u.decraw.Wf p := by
  unfold Ut.decraw
  generalize payloadOf u.raw.toList u.rawcnt = v
  exact ⟨hw.1, hw.2.1, hw.2.2.1, hw.2.2.2.1, fun h => Bool.noConfusion h⟩

theorem Ut.started_wf {p : Straps} {u : Ut} (hw : u.Wf p) (d : BitVec 8) : (u.started d).Wf p :=
  ⟨⟨Nat.zero_le _, Nat.zero_le _, fun h => Bool.noConfusion h⟩, ⟨.inl rfl, Nat.zero_le _⟩, hw.2.2.1, hw.2.2.2.1,
    fun h => Bool.noConfusion h⟩

theorem Ut.judge_wf {p : Straps} {u : Ut} (hw : u.Wf p) : u.decraw.acceptFrame.Wf p := by
  rcases Ut.judge_cases u with ⟨h, _⟩ | ⟨h, _⟩ <;> rw [h] <;>
    exact ⟨hw.1, hw.2.1, hw.2.2.1, hw.2.2.2.1, fun hv => Bool.noConfusion hv⟩

theorem Ut.sync_wf {p : Straps} {u : Ut} (hw : u.Wf p) :
    (u.sync p).Sat (fun v => v.Wf p ∧ (v.status = .ok → v.pvalid = true)) (fun _ v => v.Wf p)
      fun v => v.Wf p := by
  refine (Ut.sync_sat p u).mono (fun v hv => ?_) (fun x v hv => hv.2.wf hw) fun v hv => hv.wf hw
  rcases hv with ⟨hr, _, hs⟩ | ⟨w, hr, rfl⟩
  · refine ⟨hr.wf hw, fun hok => ?_⟩
    rw [hok] at hs
    rcases hs with h | h <;> exact Code.noConfusion h
  · refine ⟨Ut.judge_wf (hr.wf hw), fun hok => ?_⟩
    rcases Ut.judge_cases w with ⟨h, _⟩ | ⟨h, _⟩ <;> rw [h] at hok ⊢
    exact Code.noConfusion hok

theorem Dg.val_le {g : Dg} {n : Nat} (h : g.val = some n) : n ≤ 9 := by
  unfold Dg.val at h
  split at h <;> simp at h <;> omega

/-- A reading has at most four digits and an exponent from −6 to 1 (44_ut_lcd.md R184). -/
theorem Summary.reading_wf (s : Summary) (r : Reading) (h : s.reading = some r) : r.Wf := by
  have hb : ∀ b : Bool, b.toNat ≤ 1 := fun b => Bool.toNat_le b
  unfold Summary.reading at h
  split at h
  · simp only [Option.some.injEq] at h; subst h; simp
  · split at h
    · next n hn =>
      simp only [Option.some.injEq] at h
      subst h
      intro v hv
      simp only [Option.mem_def, Option.some.injEq] at hv
      subst hv
      refine ⟨?_, ?_⟩
      · unfold digits4 at hn
        split at hn
        · next a b c d ha hb hc hd =>
          have := Dg.val_le ha; have := Dg.val_le hb; have := Dg.val_le hc; have := Dg.val_le hd
          simp only [Option.some.injEq] at hn; omega
        · simp at hn
      · have h1 := hb (s.has .x10); have h2 := hb (s.has .tenths); have h3 := hb (s.has .hundredths)
        have h4 := hb (s.has .thousandths)
        simp only [Summary.dexp]
        constructor <;> omega
    · simp at h

theorem Ut.lux_wf {p : Straps} {u : Ut} (hw : u.Wf p) : u.lux.Sat (fun v => v.Wf p) (fun _ v => v.Wf p) fun v => v.Wf p := by
  unfold Ut.lux
  split
  · next r hr => exact ⟨hw.1, hw.2.1, Summary.reading_wf _ r hr, hw.2.2.2⟩
  · exact hw

theorem Ut.summarized_wf {p : Straps} {u : Ut} (hw : u.Wf p) (hv : u.pvalid = true) : (u.summarized p).Wf p :=
  ⟨hw.1, hw.2.1, hw.2.2.1, hw.2.2.2.1, fun _ => ⟨hv, rfl⟩⟩

theorem Ut.monFrame_wf {p : Straps} {u : Ut} (hw : u.Wf p) :
    u.monFrame.Sat (fun v => v.Wf p) (fun _ v => v.Wf p) fun v => v.Wf p := by
  unfold Ut.monFrame
  dsimp only
  split
  · exact hw
  · exact Ut.lux_wf hw

theorem Ut.mon_wf {p : Straps} {u : Ut} (hw : u.Wf p) :
    (u.mon p).Sat (fun v => v.Wf p) (fun _ v => v.Wf p) fun v => v.Wf p := by
  refine Res.Sat.bind (Ut.sync_wf hw) fun v hv => ?_
  split
  · exact hv.1
  · next hs => exact Ut.monFrame_wf (Ut.summarized_wf hv.1 (hv.2 (by simpa using hs)))

/-- The window stays below its size and the sum within its count (10_state.md R43). -/
theorem Ut.accumulate_wf {p : Straps} {u : Ut} (hw : u.Wf p) (h0 : 0 < u.window p) : (u.accumulate p).Wf p := by
  unfold Ut.accumulate
  split
  · exact hw
  · next n e hl =>
    have hr := hw.2.2.1 (n, e) hl
    have hpow : 10 ^ (e + 6).toNat ≤ 10 ^ 7 := Nat.pow_le_pow_right (by omega) (by omega)
    have hmul : n * 10 ^ (e + 6).toNat ≤ 9999 * 10 ^ 7 := Nat.mul_le_mul hr.1 hpow
    unfold Ut.addReading
    dsimp only
    split
    · exact ⟨hw.1, ⟨.inl rfl, Nat.zero_le _⟩, hw.2.2⟩
    · next hne =>
      refine ⟨hw.1, ⟨.inr ?_, ?_⟩, hw.2.2⟩
      · show u.wcnt + 1 < u.window p
        have := hw.2.1.1
        omega
      · show u.wsum + n * 10 ^ (e + 6).toNat ≤ (u.wcnt + 1) * (9999 * 10 ^ 7)
        have := hw.2.1.2
        rw [Nat.add_mul]
        omega

/-- What acquiring and judging a frame leaves alone: whether the channel is busy, and the averaging window
(10_state.md R43; log 5). -/
abbrev Ut.Aside (u v : Ut) : Prop :=
  v.busy = u.busy ∧ v.dur = u.dur ∧ v.wcnt = u.wcnt ∧ v.wsum = u.wsum ∧ v.avg = u.avg

/-- A body that leaves that alone, however it ends. -/
abbrev Ut.KeepsAside (u : Ut) (r : Res Ut) : Prop := r.Sat u.Aside (fun _ => u.Aside) u.Aside

theorem Ut.Receives.aside {p : Straps} {u v : Ut} (h : u.Receives p v) : u.Aside v := by
  rw [h.1]; exact ⟨rfl, rfl, rfl, rfl, rfl⟩

theorem Ut.Receiving.aside {p : Straps} {u : Ut} {r : Res Ut} (h : u.Receiving p r) : u.KeepsAside r :=
  Res.Sat.mono h (fun _ h => h.aside) (fun _ _ h => h.2.aside) fun _ h => h.aside

theorem Ut.judge_aside {u v : Ut} (h : u.Aside v) : u.Aside v.decraw.acceptFrame := by
  rcases Ut.judge_cases v with ⟨e, _⟩ | ⟨e, _⟩ <;> rw [e] <;> exact h

theorem Ut.sync_aside (p : Straps) (u : Ut) : u.KeepsAside (u.sync p) := by
  refine (Ut.sync_sat p u).mono (fun v hv => ?_) (fun x v hv => hv.2.aside) fun _ h => h.aside
  rcases hv with ⟨hr, _⟩ | ⟨w, hr, rfl⟩
  · exact hr.aside
  · exact Ut.judge_aside hr.aside

theorem Ut.lux_aside {u v : Ut} (h : u.Aside v) : u.KeepsAside v.lux := by
  unfold Ut.lux; split <;> exact h

/-- Monitoring does not touch the averaging window, however it ends (44_ut_lcd.md R186). -/
theorem Ut.mon_aside (p : Straps) (u : Ut) : u.KeepsAside (u.mon p) := by
  refine Res.Sat.bind (Ut.sync_aside p u) fun v hv => ?_
  split
  · exact hv
  · unfold Ut.monFrame
    dsimp only
    split
    · exact hv
    · exact Ut.lux_aside hv

/-- Averaging that ends leaves the channel as busy as it was. -/
theorem Ut.average_busy (p : Straps) (u : Ut) :
    (u.average p).Sat (fun v => v.busy = u.busy) fun _ v => v.busy = u.busy := by
  have ha : ∀ v : Ut, (v.accumulate p).busy = v.busy := fun v => by
    unfold Ut.accumulate Ut.addReading
    split
    · rfl
    · split <;> rfl
  refine Res.Sat.bind ((Ut.mon_aside p u).mono (P' := fun v => v.busy = u.busy) (fun _ h => h.1) (fun _ _ h => h.1)
    fun _ _ => trivial) fun v hv => ?_
  split
  · exact hv
  · exact (ha v).trans hv

theorem Ut.average_wf {p : Straps} {u : Ut} (hw : u.Wf p) (h0 : 0 < u.window p) :
    (u.average p).Sat (fun v => v.Wf p) (fun _ v => v.Wf p) fun v => v.Wf p := by
  have hm := Ut.mon_wf hw
  have hd := Ut.mon_aside p u
  unfold Ut.average
  cases hr : u.mon p with
  | stuck v => rw [hr] at hm; exact hm
  | raised x v => rw [hr] at hm; exact hm
  | done v =>
    rw [hr] at hm hd
    simp only [Res.bind_done]
    split
    · exact hm
    · refine Ut.accumulate_wf hm ?_
      unfold Ut.window
      rw [show v.dur = u.dur from hd.2.1]
      exact h0

end Sys2Proof.Machine
end

