-- ==== Sys2Proof/Laws/Exec.lean ====
section
/-! SUPPORT. The shapes of `exec`: for every instruction, which whole operation it is and what its body keeps. -/

namespace Sys2Proof.Machine

open Host

/-- A result of a `CL` operation that only writes registers. -/
def State.WritesCl (s : State) (c : Cl) : Prop := s.cl.Keeps s.straps c ∧ c.port = s.cl.port

/-- A `CL` operation without primitives, refused or run. -/
theorem State.clPure_writes (s : State) (pre : List (Bool × Code)) (body : Cl → Cl)
    (h : firstFailing pre = none → s.WritesCl (body s.cl)) :
    ∃ c, s.clPure pre body = .next (s.setCl c) ∧ s.WritesCl c := by
  refine ⟨_, rfl, ?_⟩
  split
  · unfold Cl.refuseDead
    split
    · exact ⟨(Cl.setStatus_keeps _ _ _).1, rfl⟩
    · exact ⟨(Cl.setStatus_keeps _ _ .deadEmpty).1.trans
        ((Cl.clearNres_keeps _ (s.cl.setStatus .deadEmpty)).1), rfl⟩
  · cases hp : firstFailing pre with
    | some x => exact ⟨(Cl.setStatus_keeps _ _ _).1, rfl⟩
    | none => exact h hp

theorem Cl.unframe_keeps (p : Straps) (t : Template) (c : Cl) (ht : t.length ≤ 8) :
    c.KeepsWarn p (c.unframe t) :=
  Cl.setRes_keeps p c _ fun h =>
    ⟨h.1, h.2.1, h.2.2.1, h.2.2.2.1, h.2.2.2.2.1, h.2.2.2.2.2.1, h.2.2.2.2.2.2.1, ht⟩

theorem Template.wf_length (t : Template) (h : Template.wf t = true) : t.length ≤ 8 := by
  simp [Template.wf] at h; omega

/-- Every instruction is one of seven shapes: a wire command; a `CL` operation that writes registers only; a `CL`
operation with primitives or faults of its own; `CL.INIT`; a `UT` operation with primitives or faults; a `UT`
operation that writes registers only; a status query. -/
theorem exec_shape (i : Instr) (s : State) :
    (∃ c : CmdId, i = c.instr ∧ exec i s = s.carry c) ∨
    (i.channel = some .cl ∧ i ≠ .clInit ∧ ∃ c, exec i s = .next (s.setCl c) ∧ s.WritesCl c) ∨
    (i.channel = some .cl ∧ i ≠ .clInit ∧ ∃ pre onRaise body, exec i s = s.clOp pre onRaise body ∧
      (onRaise = Cl.raise false ∨ onRaise = Cl.measRaise) ∧
      (body s.cl).Runs Cl.port (fun q => i.ReadsLine ∧ q.EndlessNoLf) s.cl ∧
      (body s.cl).Kept (Cl.Keeps s.straps) s.cl) ∨
    (i = .clInit ∧ exec i s = execClInit s) ∨
    (i.channel = some .ut ∧ ∃ pre body, exec i s = s.utOp pre body ∧
      (body s.ut).Runs Ut.port (fun q => i.Scans ∧ s.ut.mode = .resync ∧ q.Endless) s.ut ∧
      (body s.ut).Sat (fun v => v.busy = s.ut.busy) (fun _ v => v.busy = s.ut.busy) ∧
      (firstFailing pre = none → 1 ≤ s.straps.utRateHz → s.ut.Wf s.straps →
        (body s.ut).Sat (fun v => v.Wf s.straps) (fun _ v => v.Wf s.straps) fun v => v.Wf s.straps)) ∨
    (i.channel = some .ut ∧ ∃ pre body, exec i s = s.utPure pre body ∧ (body s.ut).port = s.ut.port ∧
      (body s.ut).busy = s.ut.busy ∧
      (firstFailing pre = none → s.ut.Wf s.straps → (body s.ut).Wf s.straps)) ∨
    (i = .utStatus ∧ exec i s = execUtStatus s) := by
  have ends : ∀ {r : Res Ut}, s.ut.KeepsAside r →
      r.Sat (fun v => v.busy = s.ut.busy) fun _ v => v.busy = s.ut.busy :=
    fun h => Res.Sat.mono h (fun _ h => h.1) (fun _ _ h => h.1) fun _ _ => trivial
  have weak : ∀ {p : Straps} {c : Cl} {r : Res Cl}, r.Kept (Cl.KeepsWarn p) c → r.Kept (Cl.Keeps p) c :=
    fun h => Res.Sat.mono h (fun _ h => h.1) (fun _ _ h => h.1) fun _ h => h.1
  have fin : ∀ {p : Straps} {c : Cl} {r : Res Cl}, r.Kept (Cl.Keeps p) c →
      (r.bind fun c => .done (c.setStatus .ok)).Kept (Cl.Keeps p) c := by
    intro p c r h
    have hd : ∀ d : Cl, (Res.done (d.setStatus .ok)).Kept (Cl.Keeps p) d := fun d => (Cl.setStatus_keeps p d .ok).1
    exact Res.Kept.bind (Cl.Keeps.tr p) h fun d _ => hd d
  have frun : ∀ {E : Port → Prop} {c : Cl} {r : Res Cl}, r.Runs Cl.port E c →
      (r.bind fun c => .done (c.setStatus .ok)).Runs Cl.port E c := fun h => h.bind fun d => Port.Later.refl d.port
  cases i with
  | clRender c =>
    simp only [exec, execClRender]
    exact .inr (.inl ⟨rfl, by simp, State.clPure_writes s _ _ fun _ =>
      ⟨((Cl.loadFrame_keeps _ _ _ _).trans (Cl.setStatus_keeps _ _ _)).1, rfl⟩⟩)
  | clUnframe c =>
    simp only [exec, execClUnframe]
    refine .inr (.inl ⟨rfl, by simp, State.clPure_writes s _ _ fun h =>
      ⟨((Cl.unframe_keeps _ _ _ (Template.wf_length _ ?_)).trans (Cl.setStatus_keeps _ _ _)).1, rfl⟩⟩)
    have := (firstFailing_eq_none _).1 h
    simpa [templateOk] using this _ (by simp : (templateOk s.straps c, Code.badTemplate) ∈ _)
  | clCkval b =>
    simp only [exec, execClCkval]
    exact .inr (.inl ⟨rfl, by simp, State.clPure_writes s _ _ fun _ =>
      ⟨((Cl.setRes_keeps _ _ _ id).trans (Cl.setStatus_keeps _ _ _)).1, rfl⟩⟩)
  | clFlush =>
    simp only [exec, execClFlush]
    exact .inr (.inr (.inl ⟨rfl, by simp, _, _, _, rfl, .inl rfl, frun (Cl.flush_runs _),
      fin (weak (Cl.flush_keeps _ _))⟩))
  | clSend k =>
    simp only [exec, execClSend]
    exact .inr (.inr (.inl ⟨rfl, by simp, _, _, _, rfl, .inl rfl, frun (Cl.transmit_runs k _),
      fin (weak (Cl.transmit_keeps _ k _))⟩))
  | clRxline =>
    simp only [exec, execClRxline]
    exact .inr (.inr (.inl ⟨rfl, by simp, _, _, _, rfl, .inl rfl,
      ((Cl.rxlineOp_runs _ _).weaken fun _ h => ⟨.inl rfl, h⟩).bind fun d => Port.Later.refl d.port,
      Res.Kept.bind (Cl.Keeps.tr _) (weak (Cl.rxlineOp_keeps _ _)) fun d _ =>
        (Cl.setStatus_keeps _ d _).1⟩))
  | clCheck =>
    simp only [exec, execClCheck]
    refine .inr (.inr (.inl ⟨rfl, by simp, _, _, _, rfl, .inl rfl, ?_, ?_⟩))
    · refine Res.Runs.after (d := s.cl.clearRangeWarnings) (Port.Later.refl _) ?_
      split
      · exact Port.Later.refl s.cl.port
      · exact frun (Cl.check_runs _)
    · have h1 : s.cl.Keeps s.straps s.cl.clearRangeWarnings :=
        ⟨rfl, rfl, rfl, rfl, rfl, fun hm => ⟨hm.1, hm.2.1, hm.2.2.1, by simp [Cl.clearRangeWarnings]⟩⟩
      refine Res.Kept.after (Cl.Keeps.tr _) h1 ?_
      split
      · exact (Cl.setStatus_keeps _ _ _).1
      · exact fin (Cl.check_keeps _ _ ⟨rfl, rfl⟩)
  | clPval =>
    simp only [exec, execClPval]
    exact .inr (.inr (.inl ⟨rfl, by simp, _, _, _, rfl, .inl rfl, frun (Cl.pval_runs _ _),
      fin (weak (Cl.pval_keeps _ _ _))⟩))
  | clPsec =>
    simp only [exec, execClPsec]
    exact .inr (.inr (.inl ⟨rfl, by simp, _, _, _, rfl, .inl rfl, frun (Cl.psec_runs _),
      fin (weak (Cl.psec_keeps _ _))⟩))
  | clCct =>
    simp only [exec, execClCct]
    exact .inr (.inr (.inl ⟨rfl, by simp, _, _, _, rfl, .inl rfl, frun (Cl.computeCct_runs _),
      fin (weak (Cl.computeCct_keeps _ _))⟩))
  | clInit => exact .inr (.inr (.inr (.inl ⟨rfl, rfl⟩)))
  | clMeas c =>
    cases hc : c.isRead with
    | true =>
      have he : exec (.clMeas c) s = s.clOp
          [(decide (s.cl.hs = .ready), .notReady),
            (templateOk s.straps .c40r && templateOk s.straps c, .badTemplate)]
          Cl.measRaise (fun d => d.measure s.straps c) := by simp only [exec, execClMeas, hc]; rfl
      exact .inr (.inr (.inl ⟨rfl, by simp, _, _, _, he, .inr rfl,
        (Cl.measure_runs s.straps c _).weaken fun _ h => ⟨.inr (.inr ⟨c, rfl⟩), h⟩,
        Cl.measure_keeps _ c _⟩))
    | false =>
      refine .inr (.inl ⟨rfl, by simp, s.cl.setStatus .badOp, ?_, (Cl.setStatus_keeps _ _ _).1, rfl⟩)
      simp only [exec, execClMeas, hc]; rfl
  | clStatus => exact .inr (.inl ⟨rfl, by simp, _, rfl, ⟨rfl, rfl, rfl, rfl, rfl, id⟩, rfl⟩)
  | utListen =>
    simp only [exec, execUtListen]
    exact .inr (.inr (.inr (.inr (.inl ⟨rfl, _, _, rfl, Ut.listen_runs _ _,
      ends (Ut.listen_receiving s.straps _).aside,
      fun _ _ hw => Ut.Receiving.wf (Ut.listen_receiving _ _) hw⟩))))
  | utRead33 =>
    simp only [exec, execUtRead33]
    exact .inr (.inr (.inr (.inr (.inl ⟨rfl, _, _, rfl, Ut.read33_runs _,
      ends (Ut.read33_receiving s.straps _).aside,
      fun _ _ hw => Ut.Receiving.wf (Ut.read33_receiving _ _) hw⟩))))
  | utDecraw =>
    simp only [exec, execUtDecraw]
    exact .inr (.inr (.inr (.inr (.inr (.inl ⟨rfl, _, _, rfl, rfl, rfl,
      fun _ hw => Ut.decraw_wf hw⟩)))))
  | utSync =>
    simp only [exec, execUtSync]
    exact .inr (.inr (.inr (.inr (.inl ⟨rfl, _, _, rfl,
      (Ut.sync_runs _ _).weaken fun _ h => ⟨.inl rfl, h⟩, ends (Ut.sync_aside _ _),
      fun _ _ hw => (Ut.sync_wf hw).mono (fun _ h => h.1) (fun _ _ h => h) fun _ h => h⟩))))
  | utSummary =>
    simp only [exec, execUtSummary]
    exact .inr (.inr (.inr (.inr (.inr (.inl ⟨rfl, _, _, rfl, rfl, rfl,
      fun hp hw => Ut.summarized_wf hw ((firstFailing_eq_none _).1 hp (s.ut.pvalid, Code.noPayload) (by simp))⟩)))))
  | utLux =>
    simp only [exec, execUtLux]
    exact .inr (.inr (.inr (.inr (.inl ⟨rfl, _, _, rfl, Ut.lux_runs _,
      ends (Ut.lux_aside ⟨rfl, rfl, rfl, rfl, rfl⟩),
      fun _ _ hw => Ut.lux_wf hw⟩))))
  | utMon =>
    simp only [exec, execUtMon]
    exact .inr (.inr (.inr (.inr (.inl ⟨rfl, _, _, rfl,
      (Ut.mon_runs _ _).weaken fun _ h => ⟨.inr (.inl rfl), h⟩, ends (Ut.mon_aside _ _),
      fun _ _ hw => Ut.mon_wf hw⟩))))
  | utAvg =>
    simp only [exec, execUtAvg]
    refine .inr (.inr (.inr (.inr (.inl ⟨rfl, _, _, rfl,
      (Ut.average_runs _ _).weaken fun _ h => ⟨.inr (.inr rfl), h⟩, Ut.average_busy _ _,
      fun hp hr hw => Ut.average_wf hw (Nat.mul_pos ?_ hr)⟩))))
    have hd := (firstFailing_eq_none _).1 hp
    simp only [List.mem_cons, List.not_mem_nil, or_false, forall_eq_or_imp, decide_eq_true_eq] at hd
    exact Nat.pos_of_ne_zero fun h => hd.1 (BitVec.eq_of_toNat_eq h)
  | utStatus => exact .inr (.inr (.inr (.inr (.inr (.inr ⟨rfl, rfl⟩)))))
  | utStart d =>
    simp only [exec, execUtStart]
    exact .inr (.inr (.inr (.inr (.inr (.inl ⟨rfl, _, _, rfl, rfl, rfl,
      fun _ hw => Ut.started_wf hw d⟩)))))
  | command01 => exact .inl ⟨.c01, rfl, rfl⟩
  | command02 => exact .inl ⟨.c02, rfl, rfl⟩
  | command08 => exact .inl ⟨.c08, rfl, rfl⟩
  | command40 => exact .inl ⟨.c40, rfl, rfl⟩
  | command40r => exact .inl ⟨.c40r, rfl, rfl⟩
  | command54 => exact .inl ⟨.c54, rfl, rfl⟩
  | command54r => exact .inl ⟨.c54r, rfl, rfl⟩
  | command55 => exact .inl ⟨.c55, rfl, rfl⟩

end Sys2Proof.Machine
end

