-- ==== Sys2Proof/Laws/Frames.lean ====
section
/-! SUPPORT. Digits, packing, checksums and frames: what the framer's pure functions give. -/

namespace Sys2Proof

/-- A checksum is a number 0 to 99 (40_cl_framer.md R100). -/
theorem CkKind.apply_lt (k : CkKind) (b : List Byte) : k.apply b < 100 := by
  cases k
  · exact Nat.mod_lt _ (by decide)
  · exact (Config.documentedCk b).isLt

/-- The character of a digit reads back as it (00_scope.md section 4). -/
theorem dig_digit (n : Nat) (h : n < 10) : dig (BitVec.ofNat 8 (0x30 + n)) = some n := by
  interval_cases n <;> rfl

/-- A byte that reads as a digit is its character. -/
theorem dig_some (b : Byte) (n : Nat) (h : dig b = some n) : b = BitVec.ofNat 8 (0x30 + n) ∧ n < 10 := by
  unfold dig at h
  split at h
  · next hb =>
    injection h with h
    subst h
    refine ⟨BitVec.eq_of_toNat_eq ?_, by omega⟩
    simp
    omega
  · simp at h

/-- A packed field fills its width (30_encoding.md R73). -/
theorem Field.pack_length (f : Field) (h : f.wf = true) : f.pack.length = f.width := by
  simp [Field.wf] at h
  simp [Field.pack]
  omega

theorem Template.pack_length {t : Template} (h : Template.wf t = true) : ∀ f ∈ t, f.pack.length = f.width :=
  fun f hf => f.pack_length (by simp [Template.wf] at h; exact h.2 f hf)

/-- A body has eight bytes (40_cl_framer.md R104). -/
theorem Template.body_length (t : Template) (h : Template.wf t = true) : t.body.length = 8 := by
  have hs : (t.map Field.width).sum = 8 := by simp [Template.wf] at h; exact h.1.2
  rw [← hs]
  simp only [Template.body, List.length_flatten, List.map_map, Function.comp_def]
  congr 1
  exact List.map_congr_left fun f hf => Template.pack_length h f hf

/-- A frame is six bytes longer than its body (40_cl_framer.md R103). -/
theorem frameOf_length (k : CkKind) (b : List Byte) : (frameOf k b).length = b.length + 6 := by
  simp [frameOf, ckDigits]

/-- A command's frame has fourteen bytes. -/
theorem cmdFrame_length (p : Straps) (c : CmdId) (h : Template.wf (p.cmdTable.get c) = true) :
    (cmdFrame p c).length = 14 := by
  simp [cmdFrame, frameOf_length, Template.body_length _ h]

/-- The `i`-th part of a cut by widths (40_cl_framer.md R105). -/
theorem splitWidths_getD (ws : List Nat) (bs : List Byte) (i : Nat) (w : Nat) (h : ws[i]? = some w) :
    (splitWidths ws bs).getD i [] = (bs.drop (ws.take i).sum).take w := by
  induction ws generalizing bs i with
  | nil => simp at h
  | cons x xs ih =>
    cases i with
    | zero => simp at h; simp [splitWidths, h]
    | succ i =>
      simp at h; simp [splitWidths]
      simpa [List.drop_drop] using ih (bs.drop x) i h

/-- Cutting packed fields by their widths gives the fields (40_cl_framer.md R106). -/
theorem flatten_pack_drop (t : Template) (i : Nat) (f : Field) (hw : ∀ g ∈ t, g.pack.length = g.width)
    (h : t[i]? = some f) (r : List Byte) :
    (((t.map Field.pack).flatten ++ r).drop ((t.take i).map Field.width).sum).take f.width = f.pack := by
  induction t generalizing i with
  | nil => simp at h
  | cons g t ih =>
    cases i with
    | zero => simp at h; subst h; simp [← hw g (by simp)]
    | succ i =>
      simp at h
      have := ih i (fun g hg => hw g (by simp [hg])) h
      simp [← hw g (by simp), List.append_assoc]
      simpa using this

namespace Machine

/-- `CL.RENDER` and the sequencers load exactly the command's frame. -/
theorem Cl.loadFrame_txbuf (p : Straps) (i : CmdId) (c : Cl) (h : Template.wf (p.cmdTable.get i) = true) :
    (c.loadFrame p i).txbuf.toList = cmdFrame p i := by
  have hl := cmdFrame_length p i h
  simp only [Cl.loadFrame, Vector.toList_ofFn]
  apply List.ext_getElem
  · simp [hl]
  · intro j h1 h2; rw [List.getElem_ofFn]; simp [byteAt, List.getElem?_eq_getElem h2]

end Machine

end Sys2Proof
end

