-- ==== Sys2Proof/Laws/Lines.lean ====
section
/-! SUPPORT. Exact outcomes on a quiet line, one whose next turns are idle: the primitives, the transmission of a
frame, and the reception of a line. A silent line is quiet for as long as one likes. -/

namespace Sys2Proof.Machine

open Host

/-- The line is unbroken and its next `n` turns make no move; where fewer turns are scripted, it is silent after
them (log 4). -/
abbrev Port.Quiet (p : Port) (n : Nat) : Prop := p.broken = false ∧ ∀ t ∈ p.turns.take n, t = Turn.idle

theorem Port.Silent.quiet {p : Port} (h : p.Silent) (n : Nat) : p.Quiet n := ⟨h.1, by simp [h.2.1]⟩

theorem Port.Quiet.mono {p : Port} {n m : Nat} (h : p.Quiet n) (hm : m ≤ n) : p.Quiet m :=
  ⟨h.1, fun t ht => h.2 t (by
    rw [← Nat.min_eq_left hm, ← List.take_take] at ht
    exact List.mem_of_mem_take ht)⟩

/-- What is left after some of the quiet turns is still quiet. -/
theorem Port.Quiet.drop {p q : Port} {n m : Nat} (h : p.Quiet (n + m)) (hb : q.broken = p.broken)
    (ht : q.turns = p.turns.drop n) : q.Quiet m := by
  refine ⟨hb.trans h.1, fun t hm => h.2 t ?_⟩
  rw [ht, List.take_drop] at hm
  exact List.mem_of_mem_drop hm

theorem Port.quiet_turn {p : Port} {n : Nat} (h : p.Quiet (n + 1)) :
    p.turn = (.proceed, { p with turns := p.turns.drop 1 }) := by
  obtain ⟨rxq, txq, broken, hist, turns, wire⟩ := p
  cases turns with
  | nil => rfl
  | cons t ts =>
    have ht : t = Turn.idle := h.2 t (by simp)
    subst ht
    rfl

/-- A primitive on a quiet line. -/
theorem Port.quiet_primitive {p : Port} {n : Nat} (h : p.Quiet (n + 1)) (w : Option Wait) (act : Port → Port) :
    p.primitive w act = (.ok, act { p with turns := p.turns.drop 1 }) := by
  simp only [Port.primitive, Port.quiet_turn h]
  simp [linkFails, h.1]

/-- `RxNext` on a quiet line with a byte queued. -/
theorem Port.quiet_rxNext_cons {p : Port} {n : Nat} (h : p.Quiet (n + 1)) (t : TimeoutClass) (b : Byte)
    (r : List Byte) (hq : p.rxq = b :: r) :
    p.rxNext t = (.byte b, Port.record { p with rxq := r, turns := p.turns.drop 1 } (.rx t b)) := by
  simp only [Port.rxNext, Port.feed_of_queued p (by simp [hq]), Port.quiet_turn h]
  simp [linkFails, h.1, hq]

/-- `RxNext` on a quiet line with nothing queued, before any endless stream. -/
theorem Port.quiet_rxNext_nil {p : Port} {n : Nat} (h : p.Quiet (n + 1)) (t : TimeoutClass) (hq : p.rxq = [])
    (hs : p.stream = [] ∨ p.turns ≠ []) :
    p.rxNext t = (.timeout, Port.record { p with turns := p.turns.drop 1 } (.timeout t)) := by
  have hf : p.feed = p := hs.elim (Port.feed_of_noStream p) (Port.feed_of_turn p)
  simp only [Port.rxNext, hf, Port.quiet_turn h]
  simp [linkFails, h.1, hq]

/-! ### Transmission -/

theorem Cl.quiet_flush {c : Cl} {n : Nat} (h : c.port.Quiet (n + 1)) :
    c.flush = .done (c.setPort { c.port with
      rxq := [], txq := [], hist := c.port.hist ++ [.flush], turns := c.port.turns.drop 1 }) := by
  simp only [Cl.flush, Port.flush, Port.quiet_primitive h, Cl.afterAck, Port.record]

theorem Cl.quiet_settle {c : Cl} {n : Nat} (h : c.port.Quiet (n + 1)) (k : SettleClass) :
    c.settle k = .done (c.setPort { c.port with
      hist := c.port.hist ++ [.settle k], turns := c.port.turns.drop 1 }) := by
  simp only [Cl.settle, Port.settle, Port.quiet_primitive h, Cl.afterAck, Port.record]

theorem Cl.quiet_txBytes (bs : List Byte) {c : Cl} {n : Nat} (h : c.port.Quiet (bs.length + n)) :
    Cl.txBytes bs c = .done (c.setPort { c.port with
      txq := c.port.txq ++ bs, hist := c.port.hist ++ bs.map Event.tx, turns := c.port.turns.drop bs.length }) := by
  induction bs generalizing c with
  | nil => simp [Cl.txBytes, Cl.setPort]
  | cons b bs ih =>
    have h1 : c.port.Quiet (bs.length + n + 1) := by
      have e : (b :: bs).length + n = bs.length + n + 1 := by simp only [List.length_cons]; omega
      rwa [e] at h
    have h2 : (Port.record { c.port with txq := c.port.txq ++ [b], turns := c.port.turns.drop 1 } (.tx b)).Quiet
        (bs.length + n) := Port.Quiet.drop (n := 1) (p := c.port) (by rwa [Nat.add_comm 1]) rfl rfl
    simp only [Cl.txBytes, Port.txByte, Port.quiet_primitive h1, Cl.afterAck, Res.bind_done]
    rw [ih (c := c.setPort (Port.record { c.port with txq := c.port.txq ++ [b], turns := c.port.turns.drop 1 } (.tx b)))
      h2]
    simp [Cl.setPort, Port.record, Nat.add_comm]

/-- A frame sent over a quiet line: fifteen primitives (40_cl_framer.md R110). -/
theorem Cl.quiet_transmit (k : SettleClass) {c : Cl} {n : Nat} (h : c.port.Quiet (15 + n)) :
    c.transmit k = .done (c.setPort { c.port with
      txq := c.port.txq ++ c.txbuf.toList
      hist := c.port.hist ++ c.txbuf.toList.map Event.tx ++ [.settle k]
      turns := c.port.turns.drop 15 }) := by
  have hl : c.txbuf.toList.length = 14 := by simp
  have h1 : c.port.Quiet (c.txbuf.toList.length + (n + 1)) := by
    rw [hl]
    exact (show 15 + n = 14 + (n + 1) by omega) ▸ h
  rw [Cl.transmit, Cl.quiet_txBytes _ h1, Res.bind_done]
  have h2 : Port.Quiet { c.port with
      txq := c.port.txq ++ c.txbuf.toList, hist := c.port.hist ++ c.txbuf.toList.map Event.tx
      turns := c.port.turns.drop c.txbuf.toList.length } (n + 1) := Port.Quiet.drop h1 rfl rfl
  refine (Cl.quiet_settle (c := c.setPort _) h2 k).trans ?_
  simp [Cl.setPort, List.drop_drop]

/-- `send(c, cls)` over a quiet line. -/
theorem Cl.quiet_send (p : Straps) (i : CmdId) {c : Cl} {n : Nat} (h : c.port.Quiet (15 + n))
    (hw : Template.wf (p.cmdTable.get i) = true) :
    c.send p i = .done { c with
      txbuf := (c.loadFrame p i).txbuf
      txlen := 14
      port := { c.port with
        txq := c.port.txq ++ cmdFrame p i
        hist := c.port.hist ++ Event.sent p i
        turns := c.port.turns.drop 15 } } := by
  rw [Cl.send, Cl.quiet_transmit (n := n) _ (show (c.loadFrame p i).port.Quiet (15 + n) from h),
    Cl.loadFrame_txbuf p i c hw]
  simp [Cl.setPort, Cl.loadFrame, Event.sent]

/-! ### Reception -/

/-- A channel that has received the bytes of a line so far (40_cl_framer.md R112, R113). -/
def Cl.received (cap : Nat) (l : List Byte) (c : Cl) : Cl :=
  { c with
    rxlen := min l.length cap
    rxline := l.take cap ++ c.rxline.drop l.length
    warn := { c.warn with overrun := decide (cap < l.length) } }

/-- Before the first byte (the first assignments of 40_cl_framer.md R112). -/
theorem Cl.received_nil (cap : Nat) (c : Cl) : (c.rxStart.received cap []).setPort c.port = c.rxStart := by
  simp [Cl.received, Cl.rxStart, Cl.setPort]

/-- One more byte received. -/
theorem Cl.received_storeRx (cap : Nat) (b : Byte) (l : List Byte) (c : Cl) (q : Port) (hl : c.rxline.length = cap) :
    (((c.received cap l).setPort q).storeRx cap b) = (c.received cap (l ++ [b])).setPort q := by
  unfold Cl.storeRx
  split
  · next hlt =>
    have hlt : l.length < cap := by simp [Cl.received, Cl.setPort] at hlt; omega
    simp only [Cl.received, Cl.setPort]
    congr 1
    · congr 1; simp; omega
    · rw [Nat.min_eq_left (by omega), List.take_of_length_le (by omega), List.take_of_length_le (by simp; omega)]
      rw [List.set_append_right _ _ (le_refl _)]
      simp
      have hh : l.length < c.rxline.length := by omega
      rw [List.drop_eq_getElem_cons hh, List.set_cons_zero]
    · simp; omega
  · next hge =>
    have hge : cap ≤ l.length := by simp [Cl.received, Cl.setPort] at hge; omega
    simp only [Cl.received, Cl.setPort]
    congr 1
    · congr 1; simp; omega
    · rw [List.take_append_of_le_length (by omega), List.drop_eq_nil_of_le (by omega),
        List.drop_eq_nil_of_le (by simp; omega)]
    · simp; omega

theorem IsLine.tail {b : Byte} {l : List Byte} (h : IsLine (b :: l)) (hb : b ≠ lf) : IsLine l := by
  have hne : l ≠ [] := by
    rintro rfl
    exact hb (by simpa using h.2.1)
  refine ⟨hne, ?_, ?_⟩
  · have := h.2.1
    rw [List.getLast?_cons] at this
    simpa [List.getLast?_eq_getLast_of_ne_nil hne, List.getLastD_eq_getLast?] using this
  · have := h.2.2
    rw [List.dropLast_cons_of_ne_nil hne] at this
    simp at this
    exact this.2

theorem IsLine.single {l : List Byte} (h : IsLine (lf :: l)) : l = [] := by
  by_contra hne
  have := h.2.2
  rw [List.dropLast_cons_of_ne_nil hne] at this
  simp at this

/-- The receive loop over a queued terminated line. -/
theorem Cl.quiet_rxLoop_line (cap : Nat) (c : Cl) (hl : c.rxline.length = cap) (line : List Byte) :
    ∀ (fuel : Nat) (got rest : List Byte) (p : Port), p.Quiet line.length → p.rxq = line ++ rest → IsLine line →
      line.length ≤ fuel →
      Cl.rxLoop cap fuel ((c.received cap got).setPort p) = .done { c.received cap (got ++ line) with
        rxstat := .line
        port := { p with
          rxq := rest, hist := p.hist ++ Event.received line, turns := p.turns.drop line.length } } := by
  induction line with
  | nil => intro _ _ _ _ _ _ h; exact absurd rfl h.1
  | cons b line ih =>
    intro fuel got rest p hs hq hline hf
    obtain ⟨fuel, rfl⟩ : ∃ n, fuel = n + 1 := ⟨fuel - 1, by simp at hf; omega⟩
    have hst : ∀ q : Port, (((c.received cap got).setPort p).setPort q).storeRx cap b =
        (c.received cap (got ++ [b])).setPort q := fun q => Cl.received_storeRx cap b got c q hl
    simp only [Cl.rxLoop, Cl.setPort_port, Port.quiet_rxNext_cons hs _ _ _ hq, hst]
    split
    · next hb =>
      subst hb
      obtain rfl := hline.single
      simp [Cl.setPort, Port.record, Event.received]
    · next hb =>
      have hq2 : (Port.record { p with rxq := line ++ rest, turns := p.turns.drop 1 } (.rx .clRead b)).Quiet
          line.length := Port.Quiet.drop (n := 1) (p := p) (by rw [Nat.add_comm]; exact hs) rfl rfl
      refine (ih fuel (got ++ [b]) rest _ hq2 rfl (hline.tail hb) (by simp at hf; omega)).trans ?_
      simp [Port.record, Event.received, Nat.add_comm]

/-- The receive loop over queued bytes without `LF`, up to the timeout. -/
theorem Cl.quiet_rxLoop_timeout (cap : Nat) (hc : 0 < cap) (c : Cl) (hl : c.rxline.length = cap) (line : List Byte) :
    ∀ (fuel : Nat) (got : List Byte) (p : Port), p.Quiet (line.length + 1) →
      (p.stream = [] ∨ line.length < p.turns.length) → p.rxq = line → lf ∉ line → line.length < fuel →
      Cl.rxLoop cap fuel ((c.received cap got).setPort p) = .done { c.received cap (got ++ line) with
        rxstat := if got ++ line = [] then .empty else .partialLine
        port := { p with
          rxq := [], hist := p.hist ++ Event.received line ++ [.timeout .clRead]
          turns := p.turns.drop (line.length + 1) } } := by
  induction line with
  | nil =>
    intro fuel got p hs hst hq hline hf
    obtain ⟨fuel, rfl⟩ : ∃ n, fuel = n + 1 := ⟨fuel - 1, by simp at hf; omega⟩
    have h0 : (c.received cap got).rxlen = 0 ↔ got = [] := by simp [Cl.received]; omega
    simp only [Cl.rxLoop, Cl.setPort_port, Port.quiet_rxNext_nil hs _ hq (hst.imp id List.ne_nil_of_length_pos)]
    simp [Cl.setPort, Port.record, Event.received, h0, hq]
  | cons b line ih =>
    intro fuel got p hs hst hq hline hf
    obtain ⟨fuel, rfl⟩ : ∃ n, fuel = n + 1 := ⟨fuel - 1, by simp at hf; omega⟩
    have hstore : ∀ q : Port, (((c.received cap got).setPort p).setPort q).storeRx cap b =
        (c.received cap (got ++ [b])).setPort q := fun q => Cl.received_storeRx cap b got c q hl
    simp only [List.mem_cons, not_or] at hline
    simp only [Cl.rxLoop, Cl.setPort_port, Port.quiet_rxNext_cons hs _ _ _ hq, hstore]
    rw [if_neg (fun h => hline.1 h.symm)]
    have hq2 : (Port.record { p with rxq := line, turns := p.turns.drop 1 } (.rx .clRead b)).Quiet
        (line.length + 1) := Port.Quiet.drop (n := 1) (p := p)
          (by rw [Nat.add_comm]; simpa only [List.length_cons] using hs) rfl rfl
    refine (ih fuel (got ++ [b]) _ hq2 (hst.imp id fun h => by simp at h ⊢; omega) rfl hline.2 (by simp at hf; omega)).trans ?_
    simp [Port.record, Event.received, Nat.add_comm]

/-- `rxline()` over a queued terminated line (40_cl_framer.md R112). -/
theorem Cl.quiet_rxlineOp (p : Straps) (c : Cl) (line rest : List Byte) (hl : c.rxline.length = p.rxlineCap)
    (hs : c.port.Quiet line.length) (hq : c.port.rxq = line ++ rest) (hline : IsLine line) :
    c.rxlineOp p = .done { c.received p.rxlineCap line with
      rxstat := .line
      port := { c.port with
        rxq := rest, hist := c.port.hist ++ Event.received line, turns := c.port.turns.drop line.length } } := by
  have h := Cl.quiet_rxLoop_line p.rxlineCap c.rxStart hl line
    (c.port.supply + c.port.stream.length + 1) [] rest c.port hs hq hline
    (by simp [Port.supply, hq]; omega)
  rw [Cl.received_nil] at h
  rw [Cl.rxlineOp]
  exact h

/-- `rxline()` over queued bytes without `LF` (40_cl_framer.md R112). -/
theorem Cl.quiet_rxlineOp_timeout (p : Straps) (hc : 0 < p.rxlineCap) (c : Cl) (line : List Byte)
    (hl : c.rxline.length = p.rxlineCap) (hs : c.port.Quiet (line.length + 1))
    (hst : c.port.stream = [] ∨ line.length < c.port.turns.length) (hq : c.port.rxq = line) (hline : lf ∉ line) :
    c.rxlineOp p = .done { c.received p.rxlineCap line with
      rxstat := if line = [] then .empty else .partialLine
      port := { c.port with
        rxq := [], hist := c.port.hist ++ Event.received line ++ [.timeout .clRead]
        turns := c.port.turns.drop (line.length + 1) } } := by
  have h := Cl.quiet_rxLoop_timeout p.rxlineCap hc c.rxStart hl line
    (c.port.supply + c.port.stream.length + 1) [] c.port hs hst hq hline (by simp [Port.supply, hq]; omega)
  rw [Cl.received_nil] at h
  rw [Cl.rxlineOp]
  exact h

/-- A line that delivers at a primitive might as well have delivered before it. -/
theorem Port.turn_deliver (p : Port) (bs : List Byte) (ts : List Turn) (h : p.turns = Turn.deliver bs :: ts) :
    p.turn = Port.turn { p with rxq := p.rxq ++ bs, turns := Turn.idle :: ts } := by
  rw [Port.turn_cons p _ _ h, Port.turn_cons { p with rxq := p.rxq ++ bs, turns := Turn.idle :: ts } _ _ rfl]
  simp [Turn.deliver, Turn.idle, Port.moves_deliver]

/-- `rxline()` where the line arrives as the read begins. -/
theorem Cl.rxlineOp_delivered (p : Straps) (c : Cl) (line : List Byte) (ts : List Turn)
    (h : c.port.turns = Turn.deliver line :: ts) :
    c.rxlineOp p = (c.setPort { c.port with rxq := c.port.rxq ++ line, turns := Turn.idle :: ts }).rxlineOp p := by
  have ht := Port.turn_deliver c.port line ts h
  have hs : c.port.supply = Port.supply { c.port with rxq := c.port.rxq ++ line, turns := Turn.idle :: ts } := by
    rw [← Port.turn_supply c.port, ht, Port.turn_supply]
  have hn : c.port.rxNext .clRead =
      Port.rxNext { c.port with rxq := c.port.rxq ++ line, turns := Turn.idle :: ts } .clRead := by
    simp only [Port.rxNext, Port.feed_of_turn c.port (by simp [h]),
      Port.feed_of_turn { c.port with rxq := c.port.rxq ++ line, turns := Turn.idle :: ts } (by simp), ht]
  simp only [Cl.rxlineOp, Cl.setPort_port, ← hs]
  simp only [Cl.rxLoop, Cl.rxStart, Cl.setPort_port, hn]
  rfl

/-- `rxline()` of an exchange that is answered by a terminated line: it arrives as the read begins, and its later reads
are quiet (42_cl_sequencer.md R150). -/
theorem Cl.rxlineOp_exchange (p : Straps) (c : Cl) (line : List Byte) (ts : List Turn)
    (h : c.port.turns = Turn.deliver line :: ts) (hq : c.port.rxq = []) (hb : c.port.broken = false)
    (hts : ∀ t ∈ ts.take (line.length - 1), t = Turn.idle) (hl : c.rxline.length = p.rxlineCap)
    (hline : IsLine line) :
    c.rxlineOp p = .done { c.received p.rxlineCap line with
      rxstat := .line
      port := { c.port with
        rxq := [], hist := c.port.hist ++ Event.received line, turns := ts.drop (line.length - 1) } } := by
  obtain ⟨n, hn⟩ : ∃ n, line.length = n + 1 :=
    ⟨line.length - 1, by have := List.length_pos_of_ne_nil hline.1; omega⟩
  rw [Cl.rxlineOp_delivered p c line ts h]
  have hqt : Port.Quiet { c.port with rxq := c.port.rxq ++ line, turns := Turn.idle :: ts } line.length := by
    refine ⟨hb, fun t ht => ?_⟩
    rw [hn] at hts
    simp only [hn, List.take_succ_cons, List.mem_cons] at ht
    exact ht.elim id fun ht => hts t (by simpa using ht)
  refine (Cl.quiet_rxlineOp p (c.setPort { c.port with rxq := c.port.rxq ++ line, turns := Turn.idle :: ts }) line []
    hl hqt (by simp [hq]) hline).trans ?_
  simp [Cl.received, Cl.setPort, hn]

/-- The last line received is the line, as far as the buffer reaches. -/
theorem Cl.line_received (cap : Nat) (l : List Byte) (c : Cl) : (c.received cap l).line = l.take cap := by
  simp only [Cl.line, Cl.received]
  rw [List.take_append_of_le_length (by simp), List.take_of_length_le (by simp)]

/-- `rxline()` of one exchange that is answered: the response arrives as the read begins, and the later reads are quiet
(40_cl_framer.md R112; 42_cl_sequencer.md R141, R144, R150). -/
theorem Cl.rxlineOp_response (p : Straps) (hc : 0 < p.rxlineCap) (c : Cl) (l : List Byte) (ts : List Turn)
    (h : c.port.turns = Turn.deliver l ::
      (List.replicate (if l.getLast? = some lf then l.length - 1 else l.length) Turn.idle ++ ts))
    (hq : c.port.rxq = []) (hb : c.port.broken = false) (hl : c.rxline.length = p.rxlineCap) (hr : IsResponse l) :
    c.rxlineOp p = .done { c.received p.rxlineCap l with
      rxstat := RxStat.ofResponse l
      port := { c.port with rxq := [], hist := c.port.hist ++ Event.response l, turns := ts } } := by
  by_cases hlf : l.getLast? = some lf
  · rw [if_pos hlf] at h
    rw [Cl.rxlineOp_exchange p c l _ h hq hb (by simp) hl ⟨by rintro rfl; simp at hlf, hlf, hr⟩]
    simp only [RxStat.ofResponse, Event.response, if_pos hlf]
    simp
  · have hno : lf ∉ l := by
      rcases List.eq_nil_or_concat l with rfl | ⟨l', b, rfl⟩
      · simp
      · simp only [List.concat_eq_append, IsResponse, List.dropLast_concat, List.getLast?_concat,
          Option.some.injEq] at hr hlf
        simpa using ⟨hr, fun h => hlf h.symm⟩
    rw [Cl.rxlineOp_delivered p c l _ h, if_neg hlf]
    generalize hd : ({ c.port with rxq := _, turns := _ } : Port) = d
    refine (Cl.quiet_rxlineOp_timeout p hc (c.setPort d) l hl ⟨hd ▸ hb, ?_⟩ (Or.inr (by simp [← hd]))
      (by simp [← hd, hq]) hno).trans ?_
    · simp [← hd]
    · simp only [RxStat.ofResponse, Event.response, if_neg hlf]
      simp [← hd, Cl.received, Cl.setPort]

/-! ### Lines that never stop -/

/-- A read on a line with an endless stream answers a byte, of the queue or of the stream, and the line still has one
(20_memory.md R54, R57). -/
theorem Port.rxNext_endless (p : Port) (t : TimeoutClass) (hb : p.broken = false) (he : p.Endless) :
    ∃ b q, p.rxNext t = (.byte b, q) ∧ q.broken = false ∧ q.Endless ∧
      (∀ x, x ∈ q.stream ↔ x ∈ p.stream) ∧ (b ∈ p.rxq ∨ b ∈ p.stream) ∧ ∀ x ∈ q.rxq, x ∈ p.rxq := by
  obtain ⟨ht, hs⟩ := he
  cases hq : p.rxq with
  | cons b r =>
    refine ⟨b, Port.record { p with rxq := r } (.rx t b), ?_, hb, ⟨ht, hs⟩, fun x => Iff.rfl, .inl (by simp), fun x hx =>
      List.mem_cons_of_mem _ hx⟩
    rw [Port.rxNext, Port.feed_of_queued _ (by simp [hq]), Port.turn_nil _ ht]
    simp [linkFails, hb, hq]
  | nil =>
    obtain ⟨b, bs, hst⟩ := List.exists_cons_of_ne_nil hs
    have hf : p.feed = { p with rxq := [b], stream := bs ++ [b] } := by simp [Port.feed, ht, hq, hst]
    refine ⟨b, Port.record { p with rxq := [], stream := bs ++ [b] } (.rx t b), ?_, hb,
      ⟨ht, by simp [Port.record]⟩, fun x => by simp [Port.record, hst, or_comm], .inr (by simp [hst]), by simp [Port.record]⟩
    rw [Port.rxNext, hf, Port.turn_nil _ (show Port.turns { p with rxq := [b], stream := bs ++ [b] } = [] from ht)]
    simp [linkFails, hb]

/-- A receive over bytes without `LF` that never stop does not end (40_cl_framer.md R113 (e)). -/
theorem Cl.rxLoop_endless (cap fuel : Nat) (c : Cl) (hb : c.port.broken = false) (he : c.port.EndlessNoLf)
    (hl : lf ∉ c.port.rxq) : ∃ d, Cl.rxLoop cap fuel c = .stuck d := by
  induction fuel generalizing c with
  | zero => exact ⟨c, rfl⟩
  | succ n ih =>
    obtain ⟨b, q, h, hqb, hqe, hqs, hbm, hqr⟩ := Port.rxNext_endless c.port .clRead hb he.1
    have hne : b ≠ lf := fun e => hbm.elim (fun h => hl (e ▸ h)) fun h => he.2 (e ▸ h)
    simp only [Cl.rxLoop, h, if_neg hne]
    exact ih _ (by simpa using hqb) (by simpa using ⟨hqe, fun h => he.2 ((hqs _).1 h)⟩)
      (by simpa using fun h => hl (hqr _ h))

/-- `rxline()` over such bytes, where nothing queued ends it. -/
theorem Cl.rxlineOp_endless (p : Straps) (c : Cl) (hb : c.port.broken = false) (he : c.port.EndlessNoLf)
    (hl : lf ∉ c.port.rxq) : ∃ d, c.rxlineOp p = .stuck d := Cl.rxLoop_endless _ _ c.rxStart hb he hl

end Sys2Proof.Machine
end

