-- ==== Sys2Proof/Laws/PerInstr.lean ====
section
/-! SUPPORT. A statement for every instruction: where its bits stand. It is about the instruction as written, not
about what it does. -/

namespace Sys2Proof.Laws

open Sys2Proof

/-- A host operation has a word, with its opcode in bits 15 to 8, its argument in bits 7 to 0 and the number of its
channel in bits 15 to 12 (30_encoding.md R94, R96); a wire command has the frame of its template, which has
fourteen bytes when the template is well formed (R71, R80). -/
def Encoding.Statement (i : Instr) : Prop :=
  ∀ (k : CkKind) (t : CmdTable),
    (∃ o w, i.opcode = some o ∧ i.wireCmd = none ∧ encode k t i = .host w ∧ opcodeOf w = o ∧
      argOf w = i.argument ∧ channelOf w = i.channel ∧ channelOf w ≠ none) ∨
    (∃ c, i = c.instr ∧ i.opcode = none ∧ i.wireCmd = some c ∧ i.channel = none ∧
      encode k t i = .wire (frameOf k (t.get c).body) ∧
      (i.wf t = true → (frameOf k (t.get c).body).length = 14))

/-- A word made of an opcode and an argument carries both. -/
theorem Encoding.word (o : Nat) (a : Byte) (ho : o < 256) :
    opcodeOf (hostWordOf o a) = o ∧ argOf (hostWordOf o a) = a := by
  have h1 : (hostWordOf o a).extractLsb' 8 8 = BitVec.ofNat 8 o := by
    apply BitVec.eq_of_getLsbD_eq
    intro i hi
    rw [BitVec.getLsbD_extractLsb', hostWordOf, BitVec.getLsbD_append]
    simp [hi]
  have h2 : (hostWordOf o a).extractLsb' 0 8 = a := by
    apply BitVec.eq_of_getLsbD_eq
    intro i hi
    rw [BitVec.getLsbD_extractLsb', hostWordOf, BitVec.getLsbD_append]
    simp [hi]
  refine ⟨?_, h2⟩
  rw [opcodeOf, h1, BitVec.toNat_ofNat]
  omega

/-- The host operations, one and all. -/
theorem Encoding.host (i : Instr) (o : Nat) (ho : i.opcode = some o) (hw : i.wireCmd = none) (hl : o < 256)
    (hc : o / 16 = 1 ∨ o / 16 = 2) : Encoding.Statement i := by
  intro k t
  have hword := Encoding.word o i.argument hl
  refine .inl ⟨o, hostWordOf o i.argument, ho, hw, by simp [encode, ho], hword.1, hword.2, ?_⟩
  rcases hc with h | h <;> simp [channelOf, hword.1, Instr.channel, ho, h]

/-- The wire commands, one and all. -/
theorem Encoding.wire (c : CmdId) (ho : c.instr.opcode = none) (hw : c.instr.wireCmd = some c) :
    Encoding.Statement c.instr := by
  intro k t
  refine .inr ⟨c, rfl, ho, hw, by simp [Instr.channel, ho], by simp [encode, ho, hw], fun h => ?_⟩
  have ht : Template.wf (t.get c) = true := by simp [Instr.wf, Instr.templateWf, hw] at h; exact h.2
  simp [frameOf_length, Template.body_length _ ht]

theorem Encoding.clRender (c : CmdId) : Encoding.Statement (.clRender c) :=
  Encoding.host _ _ rfl rfl (by decide) (by decide)
theorem Encoding.clUnframe (c : CmdId) : Encoding.Statement (.clUnframe c) :=
  Encoding.host _ _ rfl rfl (by decide) (by decide)
theorem Encoding.clCkval (b : BufSel) : Encoding.Statement (.clCkval b) :=
  Encoding.host _ _ rfl rfl (by decide) (by decide)
theorem Encoding.clFlush : Encoding.Statement .clFlush :=
  Encoding.host _ _ rfl rfl (by decide) (by decide)
theorem Encoding.clSend (c : SettleClass) : Encoding.Statement (.clSend c) :=
  Encoding.host _ _ rfl rfl (by decide) (by decide)
theorem Encoding.clRxline : Encoding.Statement .clRxline :=
  Encoding.host _ _ rfl rfl (by decide) (by decide)
theorem Encoding.clCheck : Encoding.Statement .clCheck :=
  Encoding.host _ _ rfl rfl (by decide) (by decide)
theorem Encoding.clPval : Encoding.Statement .clPval :=
  Encoding.host _ _ rfl rfl (by decide) (by decide)
theorem Encoding.clPsec : Encoding.Statement .clPsec :=
  Encoding.host _ _ rfl rfl (by decide) (by decide)
theorem Encoding.clCct : Encoding.Statement .clCct :=
  Encoding.host _ _ rfl rfl (by decide) (by decide)
theorem Encoding.clInit : Encoding.Statement .clInit :=
  Encoding.host _ _ rfl rfl (by decide) (by decide)
theorem Encoding.clMeas (c : CmdId) : Encoding.Statement (.clMeas c) :=
  Encoding.host _ _ rfl rfl (by decide) (by decide)
theorem Encoding.clStatus : Encoding.Statement .clStatus :=
  Encoding.host _ _ rfl rfl (by decide) (by decide)
theorem Encoding.utListen : Encoding.Statement .utListen :=
  Encoding.host _ _ rfl rfl (by decide) (by decide)
theorem Encoding.utRead33 : Encoding.Statement .utRead33 :=
  Encoding.host _ _ rfl rfl (by decide) (by decide)
theorem Encoding.utDecraw : Encoding.Statement .utDecraw :=
  Encoding.host _ _ rfl rfl (by decide) (by decide)
theorem Encoding.utSync : Encoding.Statement .utSync :=
  Encoding.host _ _ rfl rfl (by decide) (by decide)
theorem Encoding.utSummary : Encoding.Statement .utSummary :=
  Encoding.host _ _ rfl rfl (by decide) (by decide)
theorem Encoding.utLux : Encoding.Statement .utLux :=
  Encoding.host _ _ rfl rfl (by decide) (by decide)
theorem Encoding.utMon : Encoding.Statement .utMon :=
  Encoding.host _ _ rfl rfl (by decide) (by decide)
theorem Encoding.utAvg : Encoding.Statement .utAvg :=
  Encoding.host _ _ rfl rfl (by decide) (by decide)
theorem Encoding.utStatus : Encoding.Statement .utStatus :=
  Encoding.host _ _ rfl rfl (by decide) (by decide)
theorem Encoding.utStart (d : BitVec 8) : Encoding.Statement (.utStart d) :=
  Encoding.host _ _ rfl rfl (by decide) (by decide)
theorem Encoding.command01 : Encoding.Statement .command01 := Encoding.wire .c01 rfl rfl
theorem Encoding.command02 : Encoding.Statement .command02 := Encoding.wire .c02 rfl rfl
theorem Encoding.command08 : Encoding.Statement .command08 := Encoding.wire .c08 rfl rfl
theorem Encoding.command40 : Encoding.Statement .command40 := Encoding.wire .c40 rfl rfl
theorem Encoding.command40r : Encoding.Statement .command40r := Encoding.wire .c40r rfl rfl
theorem Encoding.command54 : Encoding.Statement .command54 := Encoding.wire .c54 rfl rfl
theorem Encoding.command54r : Encoding.Statement .command54r := Encoding.wire .c54r rfl rfl
theorem Encoding.command55 : Encoding.Statement .command55 := Encoding.wire .c55 rfl rfl

end Sys2Proof.Laws
end

