-- ==== Sys2Proof/Laws/Scan.lean ====
section
/-! SUPPORT. Exact outcomes of the `UT` receive loops on a silent line. -/

namespace Sys2Proof.Machine

open Host

/-- A block with some bytes written over its head (10_state.md R38). -/
def rawOver (l : List Byte) (v : Vector Byte 33) : Vector Byte 33 :=
  Vector.ofFn fun i => if i.val < l.length then byteAt l i.val else v[i]

theorem rawOver_getElem (l : List Byte) (v : Vector Byte 33) (i : Nat) (hi : i < 33) :
    (rawOver l v)[i] = if i < l.length then byteAt l i else v[i] := by
  simp only [rawOver, Vector.getElem_ofFn]; rfl

theorem rawOver_nil (v : Vector Byte 33) : rawOver [] v = v := by
  ext i hi : 1
  rw [rawOver_getElem]; simp

theorem rawOver_set (l : List Byte) (b : Byte) (v : Vector Byte 33) :
    (if l.length < 33 then (rawOver l v).setIfInBounds l.length b else rawOver l v) = rawOver (l ++ [b]) v := by
  have hb : ∀ i, i < l.length → byteAt (l ++ [b]) i = byteAt l i := by
    intro i hi; simp [byteAt, List.getElem?_append, hi]
  have hbl : byteAt (l ++ [b]) l.length = b := by simp [byteAt]
  ext i hi : 1
  rw [rawOver_getElem]
  by_cases h : l.length < 33
  · rw [if_pos h, Vector.getElem_setIfInBounds, rawOver_getElem]
    by_cases e : l.length = i
    · subst e
      rw [if_pos rfl, if_pos (by simp), hbl]
    · rw [if_neg e]
      by_cases h2 : i < l.length
      · rw [if_pos h2, if_pos (by simp; omega), hb _ h2]
      · rw [if_neg h2, if_neg (by simp; omega)]
  · rw [if_neg h, rawOver_getElem, if_pos (by omega), if_pos (by simp; omega), hb _ (by omega)]

/-- The bytes of such a block. -/
theorem rawOver_toList (l : List Byte) (v : Vector Byte 33) :
    (rawOver l v).toList = l.take 33 ++ v.toList.drop l.length := by
  apply List.ext_getElem
  · simp; omega
  · intro i h1 h2
    simp at h1
    rw [Vector.getElem_toList, rawOver_getElem _ _ _ h1, List.getElem_append]
    by_cases h : i < l.length
    · rw [if_pos h, dif_pos (by simp; omega)]; simp [byteAt, h]
    · rw [if_neg h, dif_neg (by simp; omega)]; simp; congr 1; omega

/-- A channel that has received some bytes into an empty chunk. -/
def Ut.rawd (l : List Byte) (u : Ut) : Ut := { u with raw := rawOver l u.raw, rawcnt := min l.length 34 }

theorem Ut.rawd_store (l : List Byte) (b : Byte) (u : Ut) : (Ut.rawd l u).storeRaw b = Ut.rawd (l ++ [b]) u := by
  have h1 := rawOver_set l b u.raw
  have e2 : min (min l.length 34 + 1) 34 = min (l ++ [b]).length 34 := by simp; omega
  have hc : (Ut.rawd l u).rawcnt = min l.length 34 := rfl
  have h3 : (if (Ut.rawd l u).rawcnt < 33 then (Ut.rawd l u).raw.setIfInBounds (Ut.rawd l u).rawcnt b else (Ut.rawd l u).raw) = rawOver (l ++ [b]) u.raw := by
    by_cases h : l.length < 33
    · rw [if_pos h] at h1
      rw [if_pos (by omega), hc, Nat.min_eq_left (by omega)]
      exact h1
    · rw [if_neg h] at h1
      rw [if_neg (by omega)]
      exact h1
  unfold Ut.storeRaw
  rw [h3, hc, e2]
  simp only [Ut.rawd]

theorem Ut.setPort_setPort (u : Ut) (p q : Port) : (u.setPort p).setPort q = u.setPort q := rfl
theorem Ut.storeRaw_setPort (b : Byte) (u : Ut) (p : Port) : (u.setPort p).storeRaw b = (u.storeRaw b).setPort p := rfl

/-- The read loop on a silent line takes what is queued, up to its count (43_ut_frame.md R163). -/
theorem Ut.readLoop_silent (left : Nat) (pre : List Byte) (u : Ut) (p : Port) (hs : p.Silent) :
  Ut.readLoop left ((Ut.rawd pre u).setPort p) = .done ((Ut.rawd (pre ++ p.rxq.take left) u).setPort
     { p with rxq := p.rxq.drop left, hist := p.hist ++ (p.rxq.take left).map (Event.rx .lock) ++ (if left ≤ p.rxq.length then [] else [.timeout .lock]) }) := by
  induction left generalizing pre p with
  | zero => simp [Ut.readLoop]
  | succ left ih =>
    cases hq : p.rxq with
    | nil =>
      simp [Ut.readLoop, Port.rxNext_silent_nil _ _ hs hq, Ut.setPort, Port.record, hq]
    | cons b q =>
      obtain ⟨q', hq', h1⟩ : ∃ q', q' = Port.record { p with rxq := q } (.rx .lock b) ∧ p.rxNext .lock = (.byte b, q') :=
        ⟨_, rfl, Port.rxNext_silent_cons _ _ _ _ hs hq⟩
      have hs' : q'.Silent := by rw [hq']; exact hs
      have e : (((Ut.rawd pre u).setPort p).setPort q').storeRaw b = (Ut.rawd (pre ++ [b]) u).setPort q' := by
        rw [Ut.setPort_setPort, Ut.storeRaw_setPort, Ut.rawd_store]
      simp only [Ut.readLoop, Ut.setPort_port, h1]
      rw [e, ih (pre ++ [b]) q' hs', hq']
      clear ih e h1 hs' hq'
      simp [Port.record, Ut.setPort]
      by_cases hh : left ≤ q.length <;> simp [hh]

theorem Ut.rawd_nil (u : Ut) (h : u.rawcnt = 0) : Ut.rawd [] u = u := by
  simp only [Ut.rawd, rawOver_nil, List.length_nil, Nat.zero_min]
  rw [← h]

/-- `read33()` on a silent line (43_ut_frame.md R163). -/
theorem Ut.read33_silent (u : Ut) (hs : u.port.Silent) :
   u.read33 = .done { u with
     raw := rawOver (u.port.rxq.take 33) u.raw, rawcnt := min u.port.rxq.length 33
     closed := true, status := if 33 ≤ u.port.rxq.length then .ok else .short
     port := { u.port with rxq := u.port.rxq.drop 33, hist := u.port.hist ++ (u.port.rxq.take 33).map (Event.rx .lock) ++ (if 33 ≤ u.port.rxq.length then [] else [Event.timeout .lock]) } } := by
  have h0 := Ut.rawd_nil { u with rawcnt := 0, closed := false } rfl
  have := Ut.readLoop_silent 33 [] { u with rawcnt := 0, closed := false } u.port hs
  rw [h0] at this
  have e : ({ u with rawcnt := 0, closed := false } : Ut).setPort u.port = { u with rawcnt := 0, closed := false } := rfl
  rw [e] at this
  simp only [Ut.read33, this, Res.bind_done]
  have hc : min (u.port.rxq.take 33).length 34 = min u.port.rxq.length 33 := by simp; omega
  have hc2 : min u.port.rxq.length 33 = 33 ↔ 33 ≤ u.port.rxq.length := by omega
  simp only [List.nil_append, Ut.readEnd, Ut.setPort, Ut.rawd, Ut.setStatus, hc, hc2]

/-- A whole block written over another. -/
theorem rawOver_full (l : List Byte) (v w : Vector Byte 33) (h : w.toList = l) : rawOver l v = w := by
  apply Vector.toList_inj.1
  have : l.length = 33 := by rw [← h]; simp
  rw [rawOver_toList, List.take_of_length_le (by omega), List.drop_eq_nil_of_le (by simp; omega), h]; simp

theorem Ut.listenTimeout_chunk (n : Nat) (u : Ut) (h : 0 < u.rawcnt) : u.listenTimeout n = { u.setStatus .chunk with closed := true } := by
  rw [Ut.listenTimeout, if_pos h]

/-- The byte scan on a silent line with a byte received or queued takes all of it and ends with the chunk
(43_ut_frame.md R168). -/
theorem Ut.scan_silent (p : Straps) (fuel : Nat) (pre l : List Byte) (u : Ut) (q : Port) (hs : q.Silent) (hq : q.rxq = l) (hf : l.length < fuel)
   (hcl : u.closed = false) (hne : pre ++ l ≠ []) :
  Ut.scan p fuel ((Ut.rawd pre u).setPort q) = .done ({ (Ut.rawd (pre ++ l) u) with
    idle := if l = [] then u.idle else 0, hint := if l = [] then u.hint else false, closed := true, status := .chunk, port := { q with rxq := [], hist := q.hist ++ l.map (Event.rx .scan) ++ [.timeout .scan] } }) := by
  induction l generalizing pre q fuel u with
  | nil =>
    obtain ⟨fuel, rfl⟩ : ∃ n, fuel = n + 1 := ⟨fuel - 1, by simp at hf; omega⟩
    have hst : ((Ut.rawd pre u).setPort q).listenStart = (Ut.rawd pre u).setPort q := by
      rw [Ut.listenStart, if_neg (by simp [Ut.rawd, hcl])]
    have hc : 0 < (Ut.rawd pre u).rawcnt := by
      have : 0 < pre.length := List.length_pos_of_ne_nil (by simpa using hne)
      show 0 < min pre.length 34; omega
    have h1 : ((Ut.rawd pre u).setPort q).listen p = .done ({ (Ut.rawd pre u) with closed := true, status := .chunk, port := { q with hist := q.hist ++ [.timeout .scan] } }) := by
      rw [Ut.listen, hst]
      simp only [Ut.setPort_port, Port.rxNext_silent_nil _ _ hs hq, Ut.setPort_setPort]
      rw [Ut.listenTimeout_chunk]
      swap
      · exact hc
      simp [Ut.setPort, Ut.setStatus, Port.record]
    rw [Ut.scan, h1]
    simp [Ut.rawd, hq]
  | cons b l ih =>
    obtain ⟨fuel, rfl⟩ : ∃ n, fuel = n + 1 := ⟨fuel - 1, by simp at hf; omega⟩
    have hst : ((Ut.rawd pre u).setPort q).listenStart = (Ut.rawd pre u).setPort q := by
      rw [Ut.listenStart, if_neg (by simp [Ut.rawd, hcl])]
    obtain ⟨q', hq', h1⟩ : ∃ q', q' = Port.record { q with rxq := l } (.rx .scan b) ∧ q.rxNext .scan = (.byte b, q') :=
      ⟨_, rfl, Port.rxNext_silent_cons _ _ _ _ hs hq⟩
    have hs' : q'.Silent := by rw [hq']; exact hs
    have hql : q'.rxq = l := by rw [hq']; rfl
    let u' : Ut := { u with idle := 0, hint := false, status := .accum }
    have e : ((Ut.rawd pre u).setPort q).listen p = .done ((Ut.rawd (pre ++ [b]) u').setPort q') := by
      rw [Ut.listen, hst]
      simp only [Ut.setPort_port, h1, Ut.setPort_setPort, Ut.listenByte, Ut.storeRaw_setPort, Ut.rawd_store]
      simp only [Ut.rawd, Ut.setPort, Ut.setStatus, u']
    rw [Ut.scan, e]
    simp only [Res.bind_done]
    rw [if_pos (by rfl), ih fuel (pre ++ [b]) u' q' hs' hql (by simp at hf; omega) hcl (by simp), hq']
    simp [Port.record, Ut.rawd, u']

/-- Bytes written over the same bytes leave a block as it is: an open chunk is what it has received. -/
theorem rawOver_self (l : List Byte) (v : Vector Byte 33)
    (h : ∀ i, i < 33 → i < l.length → byteAt l i = v.toList.getD i 0) : rawOver l v = v := by
  ext i hi : 1
  rw [rawOver_getElem]
  split
  · rw [h i hi ‹_›]; simp [List.getD, hi]
  · rfl

/-- A scan begins as its first `listen()` does, by starting a new chunk after a closed one (43_ut_frame.md R161). -/
theorem Ut.scan_listenStart (p : Straps) (u : Ut) (fuel : Nat) (hf : 0 < fuel) :
    Ut.scan p fuel u = Ut.scan p fuel u.listenStart := by
  obtain ⟨n, rfl⟩ : ∃ n, fuel = n + 1 := ⟨fuel - 1, by omega⟩
  have e : u.listenStart.listenStart = u.listenStart := by unfold Ut.listenStart; split <;> simp_all
  rw [Ut.scan, Ut.scan, Ut.listen, Ut.listen, e]

/-- A scan over bytes that never pause does not end (43_ut_frame.md R177 (d)). -/
theorem Ut.scan_endless (p : Straps) (fuel : Nat) (u : Ut) (hb : u.port.broken = false) (he : u.port.Endless) :
    ∃ d, Ut.scan p fuel u = .stuck d := by
  induction fuel generalizing u with
  | zero => exact ⟨u, rfl⟩
  | succ n ih =>
    obtain ⟨b, q, h, hqb, hqe, _⟩ := Port.rxNext_endless u.port .scan hb he
    have hl : u.listen p = .done ((u.listenStart.setPort q).listenByte b) := by
      rw [Ut.listen, Ut.listenStart_port, h]
    rw [Ut.scan, hl, Res.bind_done, if_pos (by rfl)]
    exact ih _ hqb hqe

/-- Nor does a synchronizer that scans. -/
theorem Ut.sync_endless (p : Straps) (u : Ut) (hm : u.mode = .resync) (hb : u.port.broken = false)
    (he : u.port.Endless) : ∃ d, u.sync p = .stuck d := by
  obtain ⟨d, h⟩ := Ut.scan_endless p (u.port.supply + 1) u hb he
  exact ⟨d, by simp only [Ut.sync, hm, h, Res.bind_stuck]⟩

end Sys2Proof.Machine
end

