-- ==== Sys2Proof/Laws/Sequence.lean ====
section
/-! SUPPORT. The exchanges of the sequencer over a quiet line, up to the read. -/

namespace Sys2Proof.Machine

open Host

/-- A measurement up to its read, over a quiet line: 31 primitives (42_cl_sequencer.md R147, R150). -/
theorem Cl.quiet_measure (p : Straps) (i : CmdId) (c : Cl) (n : Nat) (h : c.port.Quiet (31 + n))
   (hr : Template.wf (p.cmdTable.get .c40r) = true) (hw : Template.wf (p.cmdTable.get i) = true) :
   c.measure p i = (({ c.clearRangeWarnings.clearNres with
      txbuf := (Cl.loadFrame p i c).txbuf, txlen := 14
      port := { c.port with rxq := [], txq := cmdFrame p .c40r ++ cmdFrame p i, hist := c.port.hist ++ (.flush :: Event.sent p .c40r ++ Event.sent p i), turns := c.port.turns.drop 31 } } : Cl).rxlineOp p).bind fun c => c.measParse p i := by
  have h0 : c.clearRangeWarnings.clearNres.port.Quiet (30 + n + 1) := by
    have : 31 + n = 30 + n + 1 := by omega
    rw [this] at h; exact h
  rw [Cl.measure, Cl.quiet_flush h0, Res.bind_done]
  have h1 : Port.Quiet { c.port with rxq := [], txq := [], hist := c.port.hist ++ [.flush], turns := c.port.turns.drop 1 } (15 + (15 + n)) :=
    Port.Quiet.drop (n := 1) (p := c.port) (by have : 31 + n = 1 + (15 + (15 + n)) := by omega
                                               rw [this] at h; exact h) rfl rfl
  rw [Cl.quiet_send (n := 15 + n) _ _ h1 hr, Res.bind_done]
  have h2 : Port.Quiet { c.port with rxq := [], txq := [] ++ cmdFrame p .c40r, hist := c.port.hist ++ [.flush] ++ Event.sent p .c40r, turns := (c.port.turns.drop 1).drop 15 } (15 + n) :=
    Port.Quiet.drop (n := 15) h1 rfl rfl
  rw [Cl.quiet_send (n := n) _ _ h2 hw, Res.bind_done]
  simp [Cl.setPort, List.drop_drop, Cl.clearNres, Cl.setRes, Cl.clearRangeWarnings, Cl.loadFrame]

/-- `hold()` over a quiet line: sixteen primitives (42_cl_sequencer.md R143). -/
theorem Cl.quiet_hold (p : Straps) (c : Cl) (n : Nat) (h : c.port.Quiet (16 + n))
    (hw : Template.wf (p.cmdTable.get .c55) = true) :
    c.hold p = .done { c with
      hs := .held
      txbuf := (c.loadFrame p .c55).txbuf
      txlen := 14
      port := { c.port with
        rxq := []
        txq := cmdFrame p .c55
        hist := c.port.hist ++ .flush :: Event.sent p .c55
        turns := c.port.turns.drop 16 } } := by
  have h0 : c.port.Quiet (15 + n + 1) := (show 16 + n = 15 + n + 1 by omega) ▸ h
  have h1 : Port.Quiet { c.port with rxq := [], txq := [], hist := c.port.hist ++ [.flush]
                                     turns := c.port.turns.drop 1 } (15 + n) :=
    Port.Quiet.drop (n := 1) (p := c.port) ((show 16 + n = 1 + (15 + n) by omega) ▸ h) rfl rfl
  rw [Cl.hold, Cl.quiet_flush h0, Res.bind_done, Cl.quiet_send (n := n) _ _ h1 hw, Res.bind_done]
  simp [Cl.setPort, Cl.setHs, Cl.loadFrame]

/-- One attempt of `command_54` over a quiet line, up to its read (42_cl_sequencer.md R141). -/
theorem Cl.quiet_attempt54 (p : Straps) (c : Cl) (n : Nat) (h : c.port.Quiet (16 + n))
    (hw : Template.wf (p.cmdTable.get .c54) = true) :
    c.attempt54 p = Cl.rxlineOp p { c with
      pcTry := c.pcTry + 1
      txbuf := (c.loadFrame p .c54).txbuf
      txlen := 14
      port := { c.port with
        rxq := []
        txq := cmdFrame p .c54
        hist := c.port.hist ++ .flush :: Event.sent p .c54
        turns := c.port.turns.drop 16 } } := by
  have h0 : Port.Quiet (Cl.port { c with pcTry := c.pcTry + 1 }) (15 + n + 1) :=
    (show 16 + n = 15 + n + 1 by omega) ▸ h
  have h1 : Port.Quiet { c.port with rxq := [], txq := [], hist := c.port.hist ++ [.flush]
                                     turns := c.port.turns.drop 1 } (15 + n) :=
    Port.Quiet.drop (n := 1) (p := c.port) ((show 16 + n = 1 + (15 + n) by omega) ▸ h) rfl rfl
  rw [Cl.attempt54, Cl.quiet_flush h0, Res.bind_done, Cl.quiet_send (n := n) _ _ h1 hw, Res.bind_done]
  simp [Cl.setPort, Cl.loadFrame]

/-- One attempt of `command_40` over a quiet line, up to its read (42_cl_sequencer.md R144). -/
theorem Cl.quiet_attempt40 (p : Straps) (c : Cl) (n : Nat) (h : c.port.Quiet (16 + n))
    (hw : Template.wf (p.cmdTable.get .c40) = true) :
    c.attempt40 p = Cl.rxlineOp p { c with
      hs := .extMode
      extTry := c.extTry + 1
      txbuf := (c.loadFrame p .c40).txbuf
      txlen := 14
      port := { c.port with
        rxq := []
        txq := cmdFrame p .c40
        hist := c.port.hist ++ .flush :: Event.sent p .c40
        turns := c.port.turns.drop 16 } } := by
  have h0 : Port.Quiet (Cl.port { c with extTry := c.extTry + 1 }) (15 + n + 1) :=
    (show 16 + n = 15 + n + 1 by omega) ▸ h
  have h1 : Port.Quiet { c.port with rxq := [], txq := [], hist := c.port.hist ++ [.flush]
                                     turns := c.port.turns.drop 1 } (15 + n) :=
    Port.Quiet.drop (n := 1) (p := c.port) ((show 16 + n = 1 + (15 + n) by omega) ▸ h) rfl rfl
  rw [Cl.attempt40, Cl.quiet_flush h0, Res.bind_done, Cl.quiet_send (n := n) _ _ h1 hw, Res.bind_done]
  simp [Cl.setPort, Cl.setHs, Cl.loadFrame]

/-! ### Exchanges that are answered -/

/-- One attempt of `command_54` that is answered by a response (42_cl_sequencer.md R141). -/
theorem Cl.attempt54_response (p : Straps) (hc : 0 < p.rxlineCap) (c : Cl) (l : List Byte) (ts : List Turn)
    (h : c.port.turns = Turn.exchange l ++ ts) (hb : c.port.broken = false) (hl : c.rxline.length = p.rxlineCap)
    (hr : IsResponse l) (hw : Template.wf (p.cmdTable.get .c54) = true) :
    c.attempt54 p = .done { c.received p.rxlineCap l with
      pcTry := c.pcTry + 1
      txbuf := (c.loadFrame p .c54).txbuf
      txlen := 14
      rxstat := RxStat.ofResponse l
      port := { c.port with
        rxq := []
        txq := cmdFrame p .c54
        hist := c.port.hist ++ Event.exchange p .c54 l
        turns := ts } } := by
  have hq : c.port.Quiet (16 + 0) := ⟨hb, by simp [h, Turn.exchange, Turn.send]⟩
  rw [Cl.quiet_attempt54 p c 0 hq hw,
    Cl.rxlineOp_response p hc _ l ts (by simp [h, Turn.exchange, Turn.send]) rfl (by exact hb) (by exact hl) hr]
  simp [Cl.received, Event.exchange]

/-- One attempt of `command_40` that is answered by a response (42_cl_sequencer.md R144). -/
theorem Cl.attempt40_response (p : Straps) (hc : 0 < p.rxlineCap) (c : Cl) (l : List Byte) (ts : List Turn)
    (h : c.port.turns = Turn.exchange l ++ ts) (hb : c.port.broken = false) (hl : c.rxline.length = p.rxlineCap)
    (hr : IsResponse l) (hw : Template.wf (p.cmdTable.get .c40) = true) :
    c.attempt40 p = .done { c.received p.rxlineCap l with
      hs := .extMode
      extTry := c.extTry + 1
      txbuf := (c.loadFrame p .c40).txbuf
      txlen := 14
      rxstat := RxStat.ofResponse l
      port := { c.port with
        rxq := []
        txq := cmdFrame p .c40
        hist := c.port.hist ++ Event.exchange p .c40 l
        turns := ts } } := by
  have hq : c.port.Quiet (16 + 0) := ⟨hb, by simp [h, Turn.exchange, Turn.send]⟩
  rw [Cl.quiet_attempt40 p c 0 hq hw,
    Cl.rxlineOp_response p hc _ l ts (by simp [h, Turn.exchange, Turn.send]) rfl (by exact hb) (by exact hl) hr]
  simp [Cl.received, Event.exchange]

/-- A measurement up to its parsing, on a line that answers it (42_cl_sequencer.md R147, R149 (b), R150). -/
theorem Cl.measure_response (p : Straps) (hc : 0 < p.rxlineCap) (i : CmdId) (c : Cl) (l : List Byte) (ts : List Turn)
    (h : c.port.turns = Turn.measurement l ++ ts) (hb : c.port.broken = false) (hl : c.rxline.length = p.rxlineCap)
    (hr : IsResponse l) (hw : Template.wf (p.cmdTable.get .c40r) = true)
    (hi : Template.wf (p.cmdTable.get i) = true) :
    c.measure p i = Cl.measParse p i { (c.clearRangeWarnings.clearNres).received p.rxlineCap l with
      txbuf := (c.loadFrame p i).txbuf
      txlen := 14
      rxstat := RxStat.ofResponse l
      port := { c.port with
        rxq := []
        txq := cmdFrame p .c40r ++ cmdFrame p i
        hist := c.port.hist ++ (.flush :: Event.sent p .c40r ++ Event.sent p i ++ Event.response l)
        turns := ts } } := by
  have hq : c.port.Quiet (31 + 0) := ⟨hb, by simp [h, Turn.measurement, Turn.exchange, Turn.send]⟩
  rw [Cl.quiet_measure p i c 0 hq hw hi, Cl.rxlineOp_response p hc _ l ts
    (by simp [h, Turn.measurement, Turn.exchange, Turn.send]) rfl (by exact hb) (by exact hl) hr, Res.bind_done]
  simp [Cl.received]

/-! ### Lines that never stop -/

/-- A measurement on a line of bytes without `LF` that never stop does not end (70_reset_and_hazards.md R246). -/
theorem Cl.measure_endless (p : Straps) (i : CmdId) (c : Cl) (hb : c.port.broken = false) (he : c.port.EndlessNoLf)
    (hw : Template.wf (p.cmdTable.get .c40r) = true) (hi : Template.wf (p.cmdTable.get i) = true) :
    ∃ d, c.measure p i = .stuck d := by
  have hq : c.port.Quiet (31 + 0) := ⟨hb, by simp [he.1.1]⟩
  rw [Cl.quiet_measure p i c 0 hq hw hi]
  generalize hd : ({ c.clearRangeWarnings.clearNres with txbuf := _, txlen := 14, port := _ } : Cl) = d
  obtain ⟨e, h⟩ := Cl.rxlineOp_endless p d (by rw [← hd]; exact hb)
    (by rw [← hd]; exact ⟨⟨by simp [he.1.1], he.1.2⟩, he.2⟩) (by rw [← hd]; simp)
  exact ⟨e, by rw [h]; rfl⟩

/-- The same of an attempt of `command_54`, and of one of `command_40`. -/
theorem Cl.attempt54_endless (p : Straps) (c : Cl) (hb : c.port.broken = false) (he : c.port.EndlessNoLf)
    (hw : Template.wf (p.cmdTable.get .c54) = true) : ∃ d, c.attempt54 p = .stuck d := by
  rw [Cl.quiet_attempt54 p c 0 ⟨hb, by simp [he.1.1]⟩ hw]
  exact Cl.rxlineOp_endless p _ (by exact hb) ⟨⟨by simp [he.1.1], he.1.2⟩, he.2⟩ (by simp)

theorem Cl.attempt40_endless (p : Straps) (c : Cl) (hb : c.port.broken = false) (he : c.port.EndlessNoLf)
    (hw : Template.wf (p.cmdTable.get .c40) = true) : ∃ d, c.attempt40 p = .stuck d := by
  rw [Cl.quiet_attempt40 p c 0 ⟨hb, by simp [he.1.1]⟩ hw]
  exact Cl.rxlineOp_endless p _ (by exact hb) ⟨⟨by simp [he.1.1], he.1.2⟩, he.2⟩ (by simp)

/-- A handshake that reads at all does not end on such a line. -/
theorem Cl.handshake_endless (p : Straps) (c : Cl) (hb : c.port.broken = false) (he : c.port.EndlessNoLf)
    (h54 : Template.wf (p.cmdTable.get .c54) = true) (h55 : Template.wf (p.cmdTable.get .c55) = true)
    (h40 : Template.wf (p.cmdTable.get .c40) = true) (hr : 1 ≤ p.pcAttempts ∨ p.hsStrict = false) :
    ∃ d, c.handshake p = .stuck d := by
  rw [Cl.handshake]
  cases hn : p.pcAttempts with
  | succ n =>
    obtain ⟨d, h⟩ := Cl.attempt54_endless p c.initStart hb he h54
    exact ⟨d, by rw [Cl.step1, h]; rfl⟩
  | zero =>
    have hs : p.hsStrict = false := hr.resolve_left (by omega)
    simp only [Cl.step1, Cl.exhausted54, hs, Bool.false_eq_true, if_false, Res.bind_done]
    generalize hc : Cl.setHs _ .pcConnected = c'
    have hb' : c'.port.broken = false := by rw [← hc]; exact hb
    have he' : c'.port.EndlessNoLf := by rw [← hc]; exact he
    rw [Cl.quiet_hold p c' 0 ⟨hb', by simp [he'.1.1]⟩ h55, Res.bind_done]
    generalize hd : ({ c' with hs := .held, txbuf := _, txlen := 14, port := _ } : Cl) = d
    obtain ⟨e, h⟩ := Cl.attempt40_endless p d (by rw [← hd]; exact hb')
      (by rw [← hd]; exact ⟨⟨by simp [he'.1.1], he'.1.2⟩, he'.2⟩) h40
    refine ⟨e, ?_⟩
    cases p.extAttempts - 1 <;> rw [Cl.step3, h] <;> rfl

end Sys2Proof.Machine
end

