-- ==== Sys2Proof/Tests/Slice0.lean ====
section
/-! SUPPORT. Tests. Expected values are those of 95_test_vectors.md (named V and P) and of the encoding tables, worked
out by hand; none is the model's own answer. The theorems named `witness_` show states that meet the premises of the
statements of Certificates/Slice0/Obligations.lean. -/

namespace Sys2Proof.Tests

set_option Elab.async false

open Sys2Proof Sys2Proof.Machine Host

/-! ### Small states -/

/-- The digit codes of the fixture table (95_test_vectors.md). -/
def digitCodes : List (Byte × Token) :=
  [(0, .blank), (0x3F, .digit 0), (0x06, .digit 1), (0x5B, .digit 2), (0x4F, .digit 3), (0x66, .digit 4),
    (0x6D, .digit 5), (0x7D, .digit 6), (0x07, .digit 7), (0x7F, .digit 8), (0x6F, .digit 9), (0x38, .letterL)]

/-- `lux`, as bytes. -/
def luxUnit : Token := .unit [0x6C, 0x75, 0x78]
/-- `fc`, as bytes. -/
def fcUnit : Token := .unit [0x66, 0x63]

/-- The fixture segment table (95_test_vectors.md). -/
def lcd : LcdTable :=
  [[⟨.big1000, 0x7F, .scalar, digitCodes⟩], [⟨.big100, 0x7F, .scalar, digitCodes⟩],
    [⟨.big10, 0x7F, .scalar, digitCodes⟩], [⟨.big1, 0x7F, .scalar, digitCodes⟩],
    [⟨.other [1], 0x0F, .multi, [(1, .tenths), (2, .hundredths), (4, .thousandths), (8, .x10)]⟩],
    [⟨.other [2], 0x03, .multi, [(1, .lowbat), (2, .menu)]⟩],
    [⟨.unit, 3, .scalar, [(1, luxUnit), (2, fcUnit)]⟩]] ++ List.replicate 8 []

/-- The reference command table with another frame for `command_54r`, so that all eight frames differ. -/
def table8 : CmdTable := { cmdTableRef with t54r := refTemplate 0x30 0x30 0x35 0x34 0x32 0x20 0x20 0x20 }

/-- The straps of the vectors (95_test_vectors.md, 92_eei_decisions.md). -/
def straps : Straps where
  ck := .mod100
  cmdTable := cmdTableRef
  lcdTable := lcd
  hsStrict := false
  faultStyle := .refuse
  ack54 := ⟨false, [[]]⟩
  extExhaust := .fault
  pcAttempts := 2
  extAttempts := 2
  rxlineCap := 64
  roundTie := .halfEven
  utRateHz := 8
  waitLimit := 10
  cctFmt := .exact
  times := ⟨500, 125, 0, 20, 200, 1000⟩

/-- The machine after reset under those straps. -/
def base : State := State.resetWith straps

/-- Another strap setting. -/
def under (f : Straps → Straps) (s : State) : State := { s with straps := f s.straps }

/-- With a received line in the buffer. -/
def withLine (l : List Byte) (stat : RxStat) : State :=
  base.setCl { base.cl with
    rxline := l ++ List.replicate (64 - l.length) 0, rxlen := l.length, rxstat := stat, hs := .ready }

/-- With a frame loaded. -/
def loaded (c : CmdId) : State := base.setCl (base.cl.loadFrame straps c)

/-- With bytes queued for `CL`. -/
def clQueue (s : State) (rx tx : List Byte) : State :=
  s.setCl (s.cl.setPort { s.cl.port with rxq := rx, txq := tx })

/-- With a script for the line of `CL`. -/
def clTurns (s : State) (ts : List Turn) : State := s.setCl (s.cl.setPort { s.cl.port with turns := ts })

/-- With a line that delivers some bytes over and over. -/
def endless (s : State) (bs : List Byte) : State :=
  (s.setCl (s.cl.setPort { s.cl.port with stream := bs })).setUt (s.ut.setPort { s.ut.port with stream := bs })

/-- Channel `CL` inside an operation that does not end. -/
def hung : State := base.setCl base.cl.hang

/-- A channel that has been through the handshake. -/
def ready : State := base.setCl { base.cl with hs := .ready, pcTry := 1, extTry := 1, status := .ok }

/-- A channel stopped by a low battery. -/
def faulted : State :=
  base.setCl { base.cl with hs := .faulted, fault := .deviceErrorBattery, status := .deviceErrorBattery }

/-- With values for the correlated colour temperature. -/
def withXyz (x y z : Rat) : State := base.setCl (base.cl.setRes { base.cl.res with xyz := (x, y, z), xyzv := true })

/-- A raw block of bytes. -/
def block (l : List Byte) : Vector Byte 33 := Vector.ofFn fun k => byteAt l k.val

/-- With a raw block of some count. -/
def withRaw (l : List Byte) (n : Nat) : State := base.setUt { base.ut with raw := block l, rawcnt := n, closed := true }

/-- A locked channel with bytes queued. -/
def locked (rx : List Byte) : State :=
  base.setUt { base.ut with mode := .steady, port := { base.ut.port with rxq := rx } }

/-- An unlocked channel with bytes queued. -/
def unlocked (rx : List Byte) : State := base.setUt { base.ut with port := { base.ut.port with rxq := rx } }

/-- A dead channel `UT`. -/
def dead : State := base.setUt { base.ut with dead := true, fault := .transportError, status := .transportError }

/-- A channel whose summary is that of a payload. -/
def summed (f : List Byte) : State :=
  base.setUt { base.ut with
    payload := payloadOf f 33, pvalid := true, svalid := true
    summary := summarize lcd (payloadOf f 33).toList }

/-- A next state, and what holds of it. -/
def gives (o : Outcome State Fault Refusal) (holds : State → Bool) : Bool :=
  match o with
  | .next t => holds t
  | .fault _ => false
  | .refused _ => false

/-- One step that issues a host word, and what holds of the state after it. -/
def issues (s : State) (w : HostWord) (holds : State → Bool) : Bool := gives (step (s.setAgenda [.host w])) holds

/-- A step that faults. -/
def faults (o : Outcome State Fault Refusal) (f : Fault) : Bool :=
  match o with
  | .fault g => g = f
  | .next _ => false
  | .refused _ => false

/-- A refused step. -/
def refuses (o : Outcome State Fault Refusal) (r : Refusal) : Bool :=
  match o with
  | .refused q => q = r
  | .next _ => false
  | .fault _ => false

/-! ### Response lines and raw frames of the vectors -/
/-- A lux response (V12, V20). -/
def lineLux : List Byte :=
  [0x02, 0x30, 0x30, 0x30, 0x32, 0x31, 0x30, 0x30, 0x30, 0x2B, 0x30, 0x35, 0x32, 0x33, 0x36, 0x03,
    0x38, 0x36, 0x0D, 0x0A]
/-- An XYZ response (V44a). -/
def lineXyz : List Byte :=
  [0x02, 0x30, 0x30, 0x30, 0x31, 0x31, 0x30, 0x30, 0x30, 0x2B, 0x30, 0x39, 0x35, 0x30, 0x33, 0x2B,
    0x31, 0x30, 0x30, 0x30, 0x34, 0x2B, 0x31, 0x30, 0x38, 0x39, 0x34, 0x03, 0x37, 0x39, 0x0D, 0x0A]
/-- An EV response with the range digit (V29). -/
def lineEv : List Byte :=
  [0x02, 0x30, 0x30, 0x30, 0x38, 0x31, 0x35, 0x30, 0x30, 0x2D, 0x30, 0x31, 0x32, 0x35, 0x30, 0x2B,
    0x30, 0x36, 0x35, 0x30, 0x34, 0x2B, 0x30, 0x30, 0x31, 0x32, 0x34, 0x03, 0x37, 0x39, 0x0D, 0x0A]
/-- Range digit and low battery (V43). -/
def lineRangeBattery : List Byte :=
  [0x02, 0x30, 0x30, 0x30, 0x32, 0x31, 0x35, 0x30, 0x31, 0x2B, 0x30, 0x35, 0x32, 0x33, 0x36, 0x03,
    0x39, 0x32, 0x0D, 0x0A]
/-- EXT mode entered (V50). -/
def lineExt : List Byte :=
  [0x02, 0x30, 0x30, 0x34, 0x30, 0x31, 0x30, 0x30, 0x30, 0x20, 0x20, 0x20, 0x20, 0x20, 0x20, 0x03,
    0x38, 0x31, 0x0D, 0x0A]
/-- EXT mode not entered (V54). -/
def lineNotExt : List Byte :=
  [0x02, 0x30, 0x30, 0x34, 0x30, 0x31, 0x34, 0x30, 0x30, 0x20, 0x20, 0x20, 0x20, 0x20, 0x20, 0x03,
    0x38, 0x35, 0x0D, 0x0A]
/-- An acknowledgement of `command_54` (V50). -/
def line54 : List Byte :=
  [0x02, 0x30, 0x30, 0x35, 0x34, 0x31, 0x30, 0x30, 0x30, 0x20, 0x20, 0x20, 0x20, 0x20, 0x20, 0x03,
    0x38, 0x36, 0x0D, 0x0A]
/-- 52.3 lux, one decimal (V60, V80). -/
def frame1 : List Byte :=
  [0x30, 0x30, 0x3D, 0x36, 0x3B, 0x35, 0x3F, 0x34, 0x31, 0x30, 0x30, 0x30, 0x31, 0x30, 0x30, 0x30,
    0x30, 0x30, 0x30, 0x30, 0x30, 0x30, 0x30, 0x30, 0x30, 0x30, 0x30, 0x30, 0x30, 0x30, 0x0D, 0x0A,
    0x00]
/-- 12340 lux (V81). -/
def frame3 : List Byte :=
  [0x36, 0x30, 0x3B, 0x35, 0x3F, 0x34, 0x36, 0x36, 0x38, 0x30, 0x30, 0x30, 0x31, 0x30, 0x30, 0x30,
    0x30, 0x30, 0x30, 0x30, 0x30, 0x30, 0x30, 0x30, 0x30, 0x30, 0x30, 0x30, 0x30, 0x30, 0x0D, 0x0A,
    0x00]
/-- 0.523 fc (V84, V94). -/
def frame4 : List Byte :=
  [0x3F, 0x33, 0x3D, 0x36, 0x3B, 0x35, 0x3F, 0x34, 0x34, 0x30, 0x31, 0x30, 0x32, 0x30, 0x30, 0x30,
    0x30, 0x30, 0x30, 0x30, 0x30, 0x30, 0x30, 0x30, 0x30, 0x30, 0x30, 0x30, 0x30, 0x30, 0x0D, 0x0A,
    0x00]
/-- A letter L among the digits (V85). -/
def frame6 : List Byte :=
  [0x30, 0x30, 0x30, 0x30, 0x38, 0x33, 0x30, 0x30, 0x30, 0x30, 0x30, 0x30, 0x31, 0x30, 0x30, 0x30,
    0x30, 0x30, 0x30, 0x30, 0x30, 0x30, 0x30, 0x30, 0x30, 0x30, 0x30, 0x30, 0x30, 0x30, 0x0D, 0x0A,
    0x00]
/-- 52.4 lux (V95). -/
def frame7 : List Byte :=
  [0x30, 0x30, 0x3D, 0x36, 0x3B, 0x35, 0x36, 0x36, 0x31, 0x30, 0x30, 0x30, 0x31, 0x30, 0x30, 0x30,
    0x30, 0x30, 0x30, 0x30, 0x30, 0x30, 0x30, 0x30, 0x30, 0x30, 0x30, 0x30, 0x30, 0x30, 0x0D, 0x0A,
    0x00]
/-- Low battery and menu (V90). -/
def frame13 : List Byte :=
  [0x30, 0x30, 0x3D, 0x36, 0x3B, 0x35, 0x3F, 0x34, 0x3F, 0x30, 0x33, 0x30, 0x33, 0x30, 0x30, 0x30,
    0x30, 0x30, 0x30, 0x30, 0x30, 0x30, 0x30, 0x30, 0x30, 0x30, 0x30, 0x30, 0x30, 0x30, 0x0D, 0x0A,
    0x00]
/-! ### Well-formedness -/

theorem test_wf_read : (Instr.clMeas .c02).wf cmdTableRef = true := by decide
theorem test_illFormed_read : (Instr.clMeas .c40).wf cmdTableRef = false := by decide
theorem test_illFormed_width : Instr.command01.wf { cmdTableRef with t01 := [⟨[0x30], 7⟩] } = false := by decide
theorem test_illFormed_empty : Instr.command01.wf { cmdTableRef with t01 := [] } = false := by decide
theorem test_illFormed_tooLong : Instr.command01.wf { cmdTableRef with t01 := [⟨[0x30, 0x30, 0x30], 2⟩, ⟨[], 6⟩] } = false := by
  decide
theorem test_illFormed_noWidth : Instr.command01.wf { cmdTableRef with t01 := [⟨[], 0⟩, ⟨[], 8⟩] } = false := by decide
theorem test_illFormed_byte : Instr.command01.wf { cmdTableRef with t01 := [⟨[0x7F], 8⟩] } = false := by decide
theorem test_wf_lcd : LcdTable.wf lcd = true := by decide +kernel
theorem test_illFormed_lcd : LcdTable.wf (lcd.drop 1) = false := by decide +kernel
theorem test_illFormed_lcdTwice : LcdTable.wf ([] :: [⟨.big1, 1, .scalar, []⟩] :: lcd.drop 2) = false := by decide +kernel

/-! ### Decoding: words from 30_encoding.md R94 and R95, frames from V6 -/
theorem test_decode_clRender : decodeTableWord 16 0x1001 = some (.clRender .c02) := by decide
theorem test_decode_clUnframe : decodeTableWord 16 0x1107 = some (.clUnframe .c55) := by decide
theorem test_decode_clCkval : decodeTableWord 16 0x1201 = some (.clCkval .rxline) := by decide
theorem test_decode_clFlush : decodeTableWord 16 0x1300 = some .clFlush := by decide
theorem test_decode_clSend : decodeTableWord 16 0x1402 = some (.clSend .mode) := by decide
theorem test_decode_clRxline : decodeTableWord 16 0x1500 = some .clRxline := by decide
theorem test_decode_clCheck : decodeTableWord 16 0x1800 = some .clCheck := by decide
theorem test_decode_clPval : decodeTableWord 16 0x1900 = some .clPval := by decide
theorem test_decode_clPsec : decodeTableWord 16 0x1A00 = some .clPsec := by decide
theorem test_decode_clCct : decodeTableWord 16 0x1B00 = some .clCct := by decide
theorem test_decode_clInit : decodeTableWord 16 0x1C00 = some .clInit := by decide
theorem test_decode_clMeas : decodeTableWord 16 0x1D02 = some (.clMeas .c08) := by decide
theorem test_decode_clStatus : decodeTableWord 16 0x1E00 = some .clStatus := by decide
theorem test_decode_utListen : decodeTableWord 16 0x2000 = some .utListen := by decide
theorem test_decode_utRead33 : decodeTableWord 16 0x2100 = some .utRead33 := by decide
theorem test_decode_utDecraw : decodeTableWord 16 0x2200 = some .utDecraw := by decide
theorem test_decode_utSync : decodeTableWord 16 0x2300 = some .utSync := by decide
theorem test_decode_utSummary : decodeTableWord 16 0x2400 = some .utSummary := by decide
theorem test_decode_utLux : decodeTableWord 16 0x2500 = some .utLux := by decide
theorem test_decode_utMon : decodeTableWord 16 0x2600 = some .utMon := by decide
theorem test_decode_utAvg : decodeTableWord 16 0x2700 = some .utAvg := by decide
theorem test_decode_utStatus : decodeTableWord 16 0x2800 = some .utStatus := by decide
theorem test_decode_utStart : decodeTableWord 16 0x29A5 = some (.utStart 0xA5) := by decide
theorem test_decode_command01 : decodeTableWord 112 0x0230303031313230300338380D0A = some .command01 := by decide +kernel
theorem test_decode_command02 : decodeTableWord 112 0x0230303032313230300338390D0A = some .command02 := by decide +kernel
theorem test_decode_command08 : decodeTableWord 112 0x0230303038313230300339350D0A = some .command08 := by decide +kernel
theorem test_decode_command40 : decodeTableWord 112 0x0230303430313020200335370D0A = some .command40 := by decide +kernel
theorem test_decode_command40r : decodeTableWord 112 0x0239393430323120200337370D0A = some .command40r := by decide +kernel
theorem test_decode_command54 : decodeTableWord 112 0x0230303534312020200334360D0A = some .command54 := by decide +kernel
theorem test_decode_command55 : decodeTableWord 112 0x0239393535312020300338310D0A = some .command55 := by decide +kernel
/-- `command_54r` has its own frame only where the table gives it one: the reference table does not (log 12). -/
theorem test_decode_command54r : decode .mod100 table8 (.wire
    [0x02, 0x30, 0x30, 0x35, 0x34, 0x32, 0x20, 0x20, 0x20, 0x03, 0x34, 0x37, 0x0D, 0x0A]) = .ok .command54r := by
  decide +kernel
theorem test_decode_badArgument : decodeHost 0x1008 = .error .illegalArgument := by decide
theorem test_decode_badOpcode : decodeHost 0x2A00 = .error .illegalOpcode := by decide
theorem test_decode_notZero : decodeHost 0x1301 = .error .illegalArgument := by decide
theorem test_decode_badChecksum : decodeTableWord 112 0x0230303534312020200334370D0A = none := by decide +kernel

/-! ### Running what the opcode table's words say -/

theorem test_fetch_host : step (base.withFetchWord 16 0x1E00) = exec .clStatus base := by rfl
theorem test_fetch_wire : gives (step (base.withFetchWord 112 0x0230303534312020200334360D0A))
    (fun t => t.cl.port.txq = [] ∧ t.cl.port.wire.length = 14) = true := by decide +kernel

/-! ### One step of each instruction -/
/-- V6. -/
theorem test_render_frame : issues base 0x1001 (fun t => t.cl.txbuf.toList = [0x02, 0x30, 0x30, 0x30, 0x32, 0x31, 0x32, 0x30, 0x30, 0x03, 0x38, 0x39, 0x0D, 0x0A] ∧ t.cl.txlen = 14) = true := by
  decide +kernel
/-- V9. -/
theorem test_render_pads : issues (under (fun p => { p with cmdTable := { cmdTableRef with t01 := [Field.ofNat 7 2, ⟨[0x35], 2⟩, ⟨[0x41, 0x42], 4⟩] } }) base) 0x1000 (fun t => (t.cl.txbuf.toList.drop 1).take 8 = [0x30, 0x37, 0x30, 0x35, 0x30, 0x30, 0x41, 0x42]) = true := by
  decide +kernel
/-- V8. -/
theorem test_unframe_fields : issues (loaded .c40r) 0x1104 (fun t => t.cl.res.fld.toList.take 3 = [[0x39, 0x39], [0x34, 0x30], [0x32, 0x31, 0x20, 0x20]] ∧ t.cl.res.nfld = 3) = true := by
  decide +kernel
/-- V10. -/
theorem test_unframe_noFrame : issues base 0x1101 (fun t => t.cl.status = .noFrame) = true := by
  decide +kernel
/-- V12. -/
theorem test_ckval_good : issues (withLine lineLux .line) 0x1201 (fun t => t.cl.res.ckok = true) = true := by
  decide +kernel
/-- V13: one digit changed. -/
theorem test_ckval_flipped : issues (withLine (lineLux.set 13 0x34) .line) 0x1201 (fun t => t.cl.res.ckok = false ∧ t.cl.status = .ok) = true := by
  decide +kernel
/-- V19f. -/
theorem test_flush_empties : issues (clQueue base [0x31, 0x32, 0x0A] [0x33]) 0x1300 (fun t => t.cl.port.rxq = [] ∧ t.cl.port.txq = [] ∧ t.cl.port.hist = [.flush]) = true := by
  decide +kernel
/-- V19g. -/
theorem test_flush_linkErr : issues (clTurns base [Turn.linkErr]) 0x1300 (fun t => t.cl.hs = .faulted ∧ t.cl.status = .transportError) = true := by
  decide +kernel
/-- V17. -/
theorem test_send_frame : issues (loaded .c54) 0x1402 (fun t => t.cl.port.txq = [0x02, 0x30, 0x30, 0x35, 0x34, 0x31, 0x20, 0x20, 0x20, 0x03, 0x34, 0x36, 0x0D, 0x0A] ∧ t.cl.port.hist = t.cl.port.txq.map Event.tx ++ [.settle .mode]) = true := by
  decide +kernel
/-- V18. -/
theorem test_send_linkErr : issues (clTurns (loaded .c54) (List.replicate 3 Turn.idle ++ [Turn.linkErr])) 0x1402 (fun t => t.cl.port.hist = [.tx 0x02, .tx 0x30, .tx 0x30, .linkErr none] ∧ t.cl.fault = .transportError) = true := by
  decide +kernel
/-- V19a. -/
theorem test_rxline_line : issues (clQueue base [0x30, 0x31, 0x0D, 0x0A, 0x39] []) 0x1500 (fun t => t.cl.line = [0x30, 0x31, 0x0D, 0x0A] ∧ t.cl.rxstat = .line ∧ t.cl.port.rxq = [0x39]) = true := by
  decide +kernel
/-- V19d. -/
theorem test_rxline_overrun : issues (clQueue base (List.replicate 70 0x41 ++ [0x0A, 7]) []) 0x1500 (fun t => t.cl.line = List.replicate 64 0x41 ∧ t.cl.warn.overrun = true ∧ t.cl.port.rxq = [7]) = true := by
  decide +kernel
/-- V43. -/
theorem test_check_rangeThenBattery : issues (withLine lineRangeBattery .line) 0x1800 (fun t => t.cl.fault = .deviceErrorBattery ∧ t.cl.warn.range = true) = true := by
  decide +kernel
/-- V39. -/
theorem test_check_short : issues (withLine (lineLux.take 8) .partialLine) 0x1800 (fun t => t.cl.status = .malformedFrame ∧ t.cl.hs = .ready) = true := by
  decide +kernel
/-- V20. -/
theorem test_pval_value : issues (withLine lineLux .line) 0x1900 (fun t => t.cl.res.v4 = 523000000 ∧ t.cl.res.v3 = 52300000) = true := by
  decide +kernel
/-- V29: −12.5 goes to the even neighbour. -/
theorem test_pval_negativeTie : issues (withLine lineEv .line) 0x1900 (fun t => t.cl.res.v4 = -125 ∧ t.cl.res.v3 = -12) = true := by
  decide +kernel
/-- V44a. -/
theorem test_psec_values : issues (withLine lineXyz .line) 0x1A00 (fun t => t.cl.res.s1 = 1000 ∧ t.cl.res.s2 = 1089) = true := by
  decide +kernel
/-- V44d. -/
theorem test_psec_short : issues (withLine (lineXyz.take 25) .partialLine) 0x1A00 (fun t => t.cl.status = .malformedFrame) = true := by
  decide +kernel
/-- V45. -/
theorem test_cct_value : issues (withXyz (3 / 10) (3 / 10) (4 / 10)) 0x1B00 (fun t => t.cl.res.cct = 1439439338247 / 186169411) = true := by
  decide +kernel
/-- V48. -/
theorem test_cct_divide : issues (withXyz (4142 / 100) (1858 / 100) 40) 0x1B00 (fun t => t.cl.status = .cctDivide ∧ t.cl.hs = .disconnected) = true := by
  decide +kernel
/-- V50. -/
theorem test_init_ready : issues (clTurns base (Turn.handshake [line54] [] lineExt)) 0x1C00 (fun t => t.cl.statusWord = 0x0005000C ∧ t.cl.port.hist.length = 88) = true := by
  decide +kernel
/-- V59g. -/
theorem test_meas_ev : issues (clTurns ready (Turn.measurement lineEv)) 0x1D02 (fun t => t.cl.statusWord = 0x0005001C ∧ t.cl.res.v3 = -12 ∧ t.cl.res.s1 = 650 ∧ t.cl.res.s2 = 12 ∧ t.cl.res.nres = 3) = true := by
  decide +kernel
/-- V59c. -/
theorem test_meas_noData : issues ready 0x1D01 (fun t => t.cl.statusWord = 0x0105000C ∧ t.cl.res.nres = 0) = true := by
  decide +kernel
/-- V59i. -/
theorem test_status_cl : issues base 0x1E00 (fun t => t.cl.out = [0x00000008]) = true := by
  decide +kernel
/-- V72: the tenth empty gap. -/
theorem test_listen_waits : issues (base.setUt { base.ut with idle := 9 }) 0x2000 (fun t => t.ut.statusWord = 0x020A0000) = true := by
  decide +kernel
/-- V72: past the limit. -/
theorem test_listen_hints : issues (base.setUt { base.ut with idle := 10 }) 0x2000 (fun t => t.ut.statusWord = 0x030A0004) = true := by
  decide +kernel
/-- V75. -/
theorem test_read33_full : issues (unlocked (List.replicate 40 7)) 0x2100 (fun t => t.ut.rawcnt = 33 ∧ t.ut.port.rxq.length = 7 ∧ t.ut.status = .ok) = true := by
  decide +kernel
/-- V76. -/
theorem test_read33_short : issues (unlocked (List.replicate 5 7)) 0x2100 (fun t => t.ut.rawcnt = 5 ∧ t.ut.status = .short) = true := by
  decide +kernel
/-- V60. -/
theorem test_decraw_payload : issues (withRaw frame1 33) 0x2200 (fun t => t.ut.payload.toList.take 7 = [0x00, 0x6D, 0x5B, 0x4F, 0x01, 0x00, 0x01] ∧ t.ut.malformed = false) = true := by
  decide +kernel
/-- V68. -/
theorem test_decraw_short : issues (withRaw frame1 10) 0x2200 (fun t => t.ut.payload.toList.take 5 = [0x00, 0x6D, 0x5B, 0x4F, 0x01] ∧ t.ut.malformed = true ∧ t.ut.pvalid = false) = true := by
  decide +kernel
/-- V77. -/
theorem test_sync_locks : issues (unlocked frame1) 0x2300 (fun t => t.ut.mode = .steady ∧ t.ut.status = .ok) = true := by
  decide +kernel
/-- V79. -/
theorem test_sync_drops : issues (locked []) 0x2300 (fun t => t.ut.mode = .resync ∧ t.ut.status = .dropped) = true := by
  decide +kernel
/-- V80: the fields of frame 1. -/
theorem test_summary_fields : issues (base.setUt { base.ut with payload := payloadOf frame1 33, pvalid := true }) 0x2400 (fun t => t.ut.summary.lookup .big100 = some (.scalar (.digit 5)) ∧ t.ut.summary.lookup (.other [1]) = some (.list [.tenths]) ∧ t.ut.summary.lookup .unit = some (.scalar luxUnit)) = true := by
  decide +kernel
/-- V92. -/
theorem test_summary_noPayload : issues base 0x2400 (fun t => t.ut.status = .noPayload) = true := by
  decide +kernel
/-- V81. -/
theorem test_lux_times10 : issues (summed frame3) 0x2500 (fun t => t.ut.reading = ⟨some (1234, 1), .tok luxUnit⟩) = true := by
  decide +kernel
/-- V85. -/
theorem test_lux_letter : issues (summed frame6) 0x2500 (fun t => t.ut.status = .lcdNotNumeric ∧ t.ut.dead = false) = true := by
  decide +kernel
/-- V94. -/
theorem test_mon_reading : issues (locked frame4) 0x2600 (fun t => t.ut.statusWord = 0x000000D1 ∧ t.ut.reading = ⟨some (523, -3), .tok fcUnit⟩) = true := by
  decide +kernel
/-- V90. -/
theorem test_mon_menu : issues (locked frame13) 0x2600 (fun t => t.ut.warn.lowBat = true ∧ t.ut.status = .skip) = true := by
  decide +kernel
/-- V95, the last of sixteen readings, 837600000 in all. -/
theorem test_avg_emits : issues ((locked frame7).setUt { (locked frame7).ut with dur := 2, wcnt := 15, wsum := 837600000 - 52400000 }) 0x2700 (fun t => t.ut.avg = (837600000, 16) ∧ t.ut.wcnt = 0 ∧ t.ut.wsum = 0 ∧ t.ut.status = .ok) = true := by
  decide +kernel
/-- V97. -/
theorem test_avg_noWindow : issues base 0x2700 (fun t => t.ut.statusWord = 0x27000000) = true := by
  decide +kernel
/-- V114: a dead channel still answers. -/
theorem test_status_ut : issues dead 0x2800 (fun t => t.ut.out = [0x10001002]) = true := by
  decide +kernel
/-- 44_ut_lcd.md R192. -/
theorem test_start_window : issues (locked [7]) 0x2902 (fun t => t.ut.mode = .resync ∧ t.ut.dur = 2 ∧ t.ut.port.rxq = [7]) = true := by
  decide +kernel
/-- V113. -/
theorem test_start_dead : issues dead 0x2903 (fun t => t.ut.status = .dead ∧ t.ut.dur = 0) = true := by
  decide +kernel
/-! ### The wire commands: the frame of V6 goes from the queue to the wire, or is not there -/
theorem test_command01 : gives (exec .command01 (clQueue base [] ([0x02, 0x30, 0x30, 0x30, 0x31, 0x31, 0x32, 0x30, 0x30, 0x03, 0x38, 0x38, 0x0D, 0x0A] ++ [7])))
    (fun t => t = base.setCl (base.cl.setPort { base.cl.port with txq := [7], wire := [0x02, 0x30, 0x30, 0x30, 0x31, 0x31, 0x32, 0x30, 0x30, 0x03, 0x38, 0x38, 0x0D, 0x0A] })) = true := by
  decide +kernel
theorem test_command02 : gives (exec .command02 (clQueue base [] ([0x02, 0x30, 0x30, 0x30, 0x32, 0x31, 0x32, 0x30, 0x30, 0x03, 0x38, 0x39, 0x0D, 0x0A] ++ [7])))
    (fun t => t = base.setCl (base.cl.setPort { base.cl.port with txq := [7], wire := [0x02, 0x30, 0x30, 0x30, 0x32, 0x31, 0x32, 0x30, 0x30, 0x03, 0x38, 0x39, 0x0D, 0x0A] })) = true := by
  decide +kernel
theorem test_command08 : gives (exec .command08 (clQueue base [] ([0x02, 0x30, 0x30, 0x30, 0x38, 0x31, 0x32, 0x30, 0x30, 0x03, 0x39, 0x35, 0x0D, 0x0A] ++ [7])))
    (fun t => t = base.setCl (base.cl.setPort { base.cl.port with txq := [7], wire := [0x02, 0x30, 0x30, 0x30, 0x38, 0x31, 0x32, 0x30, 0x30, 0x03, 0x39, 0x35, 0x0D, 0x0A] })) = true := by
  decide +kernel
theorem test_command40 : gives (exec .command40 (clQueue base [] ([0x02, 0x30, 0x30, 0x34, 0x30, 0x31, 0x30, 0x20, 0x20, 0x03, 0x35, 0x37, 0x0D, 0x0A] ++ [7])))
    (fun t => t = base.setCl (base.cl.setPort { base.cl.port with txq := [7], wire := [0x02, 0x30, 0x30, 0x34, 0x30, 0x31, 0x30, 0x20, 0x20, 0x03, 0x35, 0x37, 0x0D, 0x0A] })) = true := by
  decide +kernel
theorem test_command40r : gives (exec .command40r (clQueue base [] ([0x02, 0x39, 0x39, 0x34, 0x30, 0x32, 0x31, 0x20, 0x20, 0x03, 0x37, 0x37, 0x0D, 0x0A] ++ [7])))
    (fun t => t = base.setCl (base.cl.setPort { base.cl.port with txq := [7], wire := [0x02, 0x39, 0x39, 0x34, 0x30, 0x32, 0x31, 0x20, 0x20, 0x03, 0x37, 0x37, 0x0D, 0x0A] })) = true := by
  decide +kernel
theorem test_command54 : gives (exec .command54 (clQueue base [] ([0x02, 0x30, 0x30, 0x35, 0x34, 0x31, 0x20, 0x20, 0x20, 0x03, 0x34, 0x36, 0x0D, 0x0A] ++ [7])))
    (fun t => t = base.setCl (base.cl.setPort { base.cl.port with txq := [7], wire := [0x02, 0x30, 0x30, 0x35, 0x34, 0x31, 0x20, 0x20, 0x20, 0x03, 0x34, 0x36, 0x0D, 0x0A] })) = true := by
  decide +kernel
theorem test_command54r : gives (exec .command54r (clQueue base [] ([0x02, 0x30, 0x30, 0x35, 0x34, 0x31, 0x20, 0x20, 0x20, 0x03, 0x34, 0x36, 0x0D, 0x0A] ++ [7])))
    (fun t => t = base.setCl (base.cl.setPort { base.cl.port with txq := [7], wire := [0x02, 0x30, 0x30, 0x35, 0x34, 0x31, 0x20, 0x20, 0x20, 0x03, 0x34, 0x36, 0x0D, 0x0A] })) = true := by
  decide +kernel
theorem test_command55 : gives (exec .command55 (clQueue base [] ([0x02, 0x39, 0x39, 0x35, 0x35, 0x31, 0x20, 0x20, 0x30, 0x03, 0x38, 0x31, 0x0D, 0x0A] ++ [7])))
    (fun t => t = base.setCl (base.cl.setPort { base.cl.port with txq := [7], wire := [0x02, 0x39, 0x39, 0x35, 0x35, 0x31, 0x20, 0x20, 0x30, 0x03, 0x38, 0x31, 0x0D, 0x0A] })) = true := by
  decide +kernel
theorem test_command_notQueued : refuses (exec .command55 (clQueue base [] [7])) .frameNotQueued = true := by decide +kernel
/-! ### Refusals and illegal words -/

theorem test_badOp_cl : issues base 0x1600 (fun t => t = base.setCl { base.cl with status := .badOp }) = true := by
  decide +kernel
theorem test_badOp_none : issues base 0xFFFF (fun t => t = base) = true := by decide +kernel
theorem test_dead_badOp : issues faulted 0x1008 (fun t => t.cl.status = .badOp) = true := by decide +kernel
theorem test_dead_empty : issues (under (fun p => { p with faultStyle := .empty }) faulted) 0x1D01
    (fun t => t.cl.status = .deadEmpty ∧ t.cl.res.nres = 0) = true := by decide +kernel

/-! ### Operations that do not end -/

/-- A `Flush` that the line never answers (70_reset_and_hazards.md R246). -/
theorem test_never : issues (clTurns base [⟨[], .never⟩]) 0x1300 (fun t => t.cl.busy ∧ t.cl.status = .ok) = true := by
  decide +kernel
/-- The class of a wait is in the history whether or not it is answered (20_memory.md R54, R56,
70_reset_and_hazards.md R247). -/
theorem test_waits :
    issues (clTurns (loaded .c54) (List.replicate 14 Turn.idle ++ [⟨[], .never⟩])) 0x1402
      (fun t => t.cl.busy ∧ t.cl.port.hist.getLast? = some (.settle .mode)) = true ∧
    issues (clTurns base [⟨[], .never⟩]) 0x1500 (fun t => t.cl.busy ∧ t.cl.port.hist = [.waits .clRead]) = true ∧
    issues (clTurns base [Turn.linkErr]) 0x1500 (fun t => t.cl.port.hist = [.linkErr (some (.read .clRead))]) = true ∧
    issues (clTurns (loaded .c54) [⟨[.breakLink], .proceed⟩]) 0x1402
      (fun t => t.cl.port.hist = [.linkErr none]) = true := by
  decide +kernel
/-- Bytes without `LF` for ever, and bytes that never pause (40_cl_framer.md R113, 43_ut_frame.md R177); with an `LF`
among them the line ends there. -/
theorem test_endless : issues (endless base [0x41, 0x42]) 0x1500 (fun t => t.cl.busy) = true ∧
    issues (endless base [0x30]) 0x2300 (fun t => t.ut.busy) = true ∧
    issues (endless base [0x41, 0x0A]) 0x1500 (fun t => t.cl.busy = false ∧ t.cl.line = [0x41, 0x0A]) = true := by
  decide +kernel
/-- Only the busy channel takes no further operation (70_reset_and_hazards.md R243; log 5). -/
theorem test_busy : faults (step (hung.setAgenda [.host 0x1300])) (.busy .cl) = true ∧
    issues hung 0x1600 (fun t => t.cl.busy ∧ t.cl.status = .badOp) = true ∧
    issues hung 0x2300 (fun t => t.ut.status = .waiting) = true ∧
    gives (step (hung.setAgenda [.reset])) (fun t => t.cl.busy = false) = true := by decide +kernel

/-! ### States that meet the premises of the statements -/

/-- What a step gives is a next state. -/
theorem gives_next {o : Outcome State Fault Refusal} {f : State → Bool} (h : gives o f = true) :
    ∃ t, o = .next t ∧ f t = true := by
  cases o with
  | next t => exact ⟨t, rfl, h⟩
  | fault _ => exact Bool.noConfusion h
  | refused _ => exact Bool.noConfusion h

theorem witness_DecodeInvertsEncode : (Instr.clMeas .c02).wf table8 = true ∧ Instr.command54.wf table8 = true ∧
    ∀ c ∈ CmdId.all, ∀ c' ∈ CmdId.all, Instr.command54 = c.instr → Template.wf (table8.get c') = true →
      (table8.get c').body = (table8.get c).body → c' = c := by decide +kernel

theorem witness_DecodedIsItsEncoding : decode .mod100 table8 (.host 0x1D02) = .ok (.clMeas .c08) ∧
    decode .mod100 table8 (.wire (frameOf .mod100 (table8.get .c54).body)) = .ok .command54 := by decide +kernel

theorem witness_IllegalHostWordRefused : ∀ w ∈ ([0x1008, 0x2A00, 0x0000] : List HostWord),
    (base.setAgenda [.host w]).agenda = [.host w] ∧
      ∀ (i : Instr) (o : Nat), i.operandsWf = true → i.opcode = some o → hostWordOf o i.argument ≠ w := by
  have h : ∀ (i : Instr) (o : Nat), i.operandsWf = true → i.opcode = some o →
      hostWordOf o i.argument ≠ 0x1008 ∧ hostWordOf o i.argument ≠ 0x2A00 ∧ hostWordOf o i.argument ≠ 0x0000 := by
    intro i o hi ho
    cases i with
    | utStart d => simp [Instr.opcode] at ho; subst ho; revert d; decide
    | clRender c => simp [Instr.opcode] at ho; subst ho; cases c <;> decide
    | clUnframe c => simp [Instr.opcode] at ho; subst ho; cases c <;> decide
    | clCkval b => simp [Instr.opcode] at ho; subst ho; cases b <;> decide
    | clSend k => simp [Instr.opcode] at ho; subst ho; cases k <;> decide
    | clMeas c => simp [Instr.opcode] at ho; subst ho; cases c <;> decide
    | _ => simp [Instr.opcode] at ho <;> subst ho <;> decide
  intro w hw
  refine ⟨rfl, fun i o hi ho => ?_⟩
  simp only [List.mem_cons, List.not_mem_nil, or_false] at hw
  have := h i o hi ho
  rcases hw with rfl | rfl | rfl
  · exact this.1
  · exact this.2.1
  · exact this.2.2

theorem witness_StepRunsTheDecodedInstruction :
    decode straps.ck straps.cmdTable (.host 0x1300) = .ok .clFlush ∧
    (base.setAgenda [.host 0x1300]).agenda = [.host 0x1300] ∧
    decode straps.ck straps.cmdTable
      (.wire ((clQueue base [] (cmdFrame straps .c55)).cl.port.txq.take 14)) = .ok .command55 ∧
    ((clQueue base [] (cmdFrame straps .c55)).setAgenda [.wireFrame]).agenda = [.wireFrame] ∧ base.agenda = [] ∧
    (∀ ch, Instr.clFlush.channel = some ch → (base.setAgenda [.host 0x1300]).busyOn ch = false) ∧
    (hung.setAgenda [.host 0x1300]).agenda = [.host 0x1300] ∧ Instr.clFlush.channel = some .cl ∧
    (hung.setAgenda [.host 0x1300]).busyOn .cl = true := by
  refine ⟨by decide +kernel, rfl, by decide +kernel, rfl, rfl, fun ch h => ?_, rfl, rfl, rfl⟩
  cases ch <;> rfl

theorem witness_ResetRestoresBothChannels : (faulted.setAgenda [.reset]).agenda = [.reset] := rfl

theorem witness_LineMovesBetweenOperations : ∀ m ∈ [LineMove.deliver 7, .wire, .breakLink],
    (base.setAgenda [.line .cl m]).agenda = [.line .cl m] ∧ (base.setAgenda [.line .ut m]).agenda = [.line .ut m] ∧
      (base.portOf .cl).txq = [] ∧ (base.portOf .ut).txq = [] ∧ ((clQueue base [] [5]).portOf .cl).txq = [5] := by
  decide +kernel

theorem witness_ChecksumIsSumModHundred : ([1, 2] : List Byte).Perm [2, 1] := List.Perm.swap 2 1 []

theorem witness_FrameIsInjective : (cmdTableRef.get .c01).body.length = 8 ∧ (cmdTableRef.get .c02).body.length = 8 := by
  decide +kernel

/-- A frame of the least length, one of 14 bytes, and a response. -/
theorem witness_WellframedIsBeingAFrame : (frameOf .mod100 []).length = 6 ∧ (cmdFrame straps .c01).length = 14 ∧
    wellframed .mod100 (frameOf .mod100 []) = true ∧ wellframed .mod100 lineLux = true := by decide +kernel

theorem witness_RenderWritesTheFrame : base.cl.hs ≠ .faulted ∧ Template.wf (base.straps.cmdTable.get .c40) = true := by
  decide +kernel

theorem witness_UnframeCutsByWidths : (loaded .c40r).cl.hs ≠ .faulted ∧ (loaded .c40r).cl.txlen ≠ 0 ∧
    Template.wf ((loaded .c40r).straps.cmdTable.get .c40r) = true ∧
    (base.straps.cmdTable.get .c40r)[0]? = some ⟨[0x39, 0x39], 2⟩ ∧ (base.straps.cmdTable.get .c40r).length ≤ 3 := by
  decide +kernel

theorem witness_RenderUnframeRoundTrip : base.cl.hs ≠ .faulted ∧ Template.wf (base.straps.cmdTable.get .c55) = true ∧
    (base.straps.cmdTable.get .c55)[2]? = some ⟨[0x31, 0x20, 0x20, 0x30], 4⟩ := by decide +kernel

theorem witness_CkvalJudgesTheBuffer : (loaded .c40r).cl.hs ≠ .faulted ∧ (loaded .c40r).cl.txlen ≠ 0 ∧
    (loaded .c40r).cl.rxline.take (loaded .c40r).cl.rxlen = [] ∧
    (∀ l ∈ [[], lineLux], (withLine l .line).cl.hs ≠ .faulted ∧ (withLine l .line).cl.rxstat ≠ .none ∧
      l = (withLine l .line).cl.rxline.take (withLine l .line).cl.rxlen) := by decide +kernel

theorem witness_FlushEmptiesTheQueues : (clTurns base [Turn.deliver [7], ⟨[.wire], .proceed⟩]).cl.hs ≠ .faulted ∧
    (clTurns base [Turn.deliver [7], ⟨[.wire], .proceed⟩]).cl.port.Answers := by decide +kernel

theorem witness_SendTransmitsTheFrame : (clTurns (loaded .c54) [Turn.deliver [7]]).cl.hs ≠ .faulted ∧
    (clTurns (loaded .c54) [Turn.deliver [7]]).cl.txlen ≠ 0 ∧
    (clTurns (loaded .c54) [Turn.deliver [7]]).cl.port.Answers := by decide +kernel

theorem witness_SendStopsAtLinkError : ∀ i ∈ [0, 13], i < 14 ∧
    (clTurns (loaded .c54) (List.replicate i Turn.idle ++ [Turn.linkErr])).cl.hs ≠ .faulted ∧
    (clTurns (loaded .c54) (List.replicate i Turn.idle ++ [Turn.linkErr])).cl.txlen ≠ 0 ∧
    (clTurns (loaded .c54) (List.replicate i Turn.idle ++ [Turn.linkErr])).cl.port.broken = false ∧
    (clTurns (loaded .c54) (List.replicate i Turn.idle ++ [Turn.linkErr])).cl.port.turns =
      List.replicate i Turn.idle ++ Turn.linkErr :: [] := by decide +kernel

/-- Lines of 64 and 65 bytes: the buffer is filled, and overrun by one. -/
theorem witness_RxlineReadsOneLine : ∀ n ∈ [0, 63, 64], IsLine (List.replicate n 0x41 ++ [lf]) ∧
    (clQueue base (List.replicate n 0x41 ++ [lf] ++ [7]) []).cl.hs ≠ .faulted ∧
    (clQueue base (List.replicate n 0x41 ++ [lf] ++ [7]) []).cl.port.Silent ∧
    (clQueue base (List.replicate n 0x41 ++ [lf] ++ [7]) []).cl.port.rxq = List.replicate n 0x41 ++ [lf] ++ [7] ∧
    base.cl.rxline.length = base.straps.rxlineCap ∧ 27 ≤ base.straps.rxlineCap := by decide +kernel

theorem witness_RxlineEndsAtTimeout : ∀ n ∈ [0, 1, 65], lf ∉ List.replicate n (0x41 : Byte) ∧
    (clQueue base (List.replicate n 0x41) []).cl.hs ≠ .faulted ∧
    (clQueue base (List.replicate n 0x41) []).cl.port.Silent ∧
    (clQueue base (List.replicate n 0x41) []).cl.port.rxq = List.replicate n 0x41 ∧
    base.cl.rxline.length = base.straps.rxlineCap ∧ 27 ≤ base.straps.rxlineCap := by decide +kernel

/-- One line for each of the seven clauses, at the lengths where they meet. -/
theorem witness_CheckJudgesInOrder :
    (∀ l ∈ [[], lineLux.take 1, lineLux.take 6, (lineLux.set 6 ch3).take 7, lineLux.take 7, lineLux.take 8,
        lineLux.take 9, lineRangeBattery.take 9],
      (withLine l .line).cl.hs ≠ .faulted ∧ (withLine l .line).cl.rxstat ≠ .none ∧
        (withLine l .line).cl.rxlen ≤ (withLine l .line).cl.rxline.length) ∧
    (withLine [] .line).cl.rxlen = 0 ∧
    9 ≤ (withLine (lineLux.take 9) .line).cl.rxlen ∧ byteAt (lineLux.take 9) 6 ∉ [ch1, ch2, ch3] ∧
    byteAt (lineLux.take 9) 8 ≠ ch1 ∧
    0 < (withLine (lineLux.take 1) .line).cl.rxlen ∧ (withLine (lineLux.take 6) .line).cl.rxlen < 7 ∧
    7 ≤ (withLine ((lineLux.set 6 ch3).take 7) .line).cl.rxlen ∧
    byteAt ((lineLux.set 6 ch3).take 7) 6 ∈ [ch1, ch2, ch3] ∧
    7 ≤ (withLine (lineLux.take 7) .line).cl.rxlen ∧ (withLine (lineLux.take 8) .line).cl.rxlen < 9 ∧
    byteAt (lineLux.take 7) 6 ∉ [ch1, ch2, ch3] ∧ byteAt (lineLux.take 8) 6 ∉ [ch1, ch2, ch3] ∧
    9 ≤ (withLine (lineRangeBattery.take 9) .line).cl.rxlen ∧
    byteAt (lineRangeBattery.take 9) 6 ∉ [ch1, ch2, ch3] ∧ byteAt (lineRangeBattery.take 9) 8 = ch1 := by
  decide +kernel

/-- A positive value of fifteen bytes and a negative one. -/
theorem witness_PvalDerivesTheValue : ∀ l ∈ [lineLux.take 15, (lineLux.set 9 0x2D).take 15],
    (withLine l .line).cl.hs ≠ .faulted ∧ (withLine l .line).cl.rxstat ≠ .none ∧ 15 ≤ (withLine l .line).cl.rxlen ∧
    (withLine l .line).cl.rxlen ≤ (withLine l .line).cl.rxline.length ∧
    byteAt (withLine l .line).cl.rxline 10 = BitVec.ofNat 8 (0x30 + 0) ∧
    byteAt (withLine l .line).cl.rxline 11 = BitVec.ofNat 8 (0x30 + 5) ∧
    byteAt (withLine l .line).cl.rxline 12 = BitVec.ofNat 8 (0x30 + 2) ∧
    byteAt (withLine l .line).cl.rxline 13 = BitVec.ofNat 8 (0x30 + 3) ∧
    byteAt (withLine l .line).cl.rxline 14 = BitVec.ofNat 8 (0x30 + 6) := by decide +kernel

theorem witness_PsecDerivesTheValues : (withLine (lineXyz.take 26) .line).cl.hs ≠ .faulted ∧
    (withLine (lineXyz.take 26) .line).cl.rxstat ≠ .none ∧ 26 ≤ (withLine (lineXyz.take 26) .line).cl.rxlen ∧
    (withLine (lineXyz.take 26) .line).cl.rxlen ≤ (withLine (lineXyz.take 26) .line).cl.rxline.length ∧
    slice (withLine (lineXyz.take 26) .line).cl.rxline 16 20 =
      [1, 0, 0, 0].map (fun n => BitVec.ofNat 8 (0x30 + n)) ∧
    slice (withLine (lineXyz.take 26) .line).cl.rxline 22 26 =
      [1, 0, 8, 9].map (fun n => BitVec.ofNat 8 (0x30 + n)) := by decide +kernel

/-- Too short by one byte, and a bad byte at the first and the last offset of each field. -/
theorem witness_ValueFieldFaults : (withLine lineXyz .line).cl.hs ≠ .faulted ∧
    (withLine lineXyz .line).cl.rxstat ≠ .none ∧
    (withLine (lineXyz.take 14) .line).cl.rxlen < 15 ∧ (withLine (lineXyz.take 25) .line).cl.rxlen < 26 ∧
    ∀ j ∈ [10, 14, 16, 19, 22, 25], dig (byteAt (withLine (lineXyz.set j 0x20) .line).cl.line j) = none := by
  decide +kernel

theorem witness_RoundThreeIsNearest : (0 : Int) ≤ 0 ∧ (1 : Nat) ≤ 1 ∧ (primaryValue true 15 0).natAbs % 10 = 5 := by decide

theorem witness_CctEvaluatesThePolynomial :
    (∀ v ∈ [((0 : Rat), (1 : Rat), (1 : Rat)), (1, 0, 1), (1, 1, 0), (1, 1, 1), (-2, 1, 1), (4142, 1858, 4000)],
      (withXyz v.1 v.2.1 v.2.2).cl.hs ≠ .faulted ∧ (withXyz v.1 v.2.1 v.2.2).cl.res.xyzv = true ∧
        (withXyz v.1 v.2.1 v.2.2).cl.res.xyz = (v.1, v.2.1, v.2.2)) ∧
    ((1 : Rat) + 1 + 1 ≠ 0 ∧
      (-20 / 2213 : Rat) * (1858 / 10000 * (1 + 1 + 1) - 1) = 1 - 3320 / 10000 * (1 + 1 + 1) ∧
      1858 / 10000 * ((1 : Rat) + 1 + 1) ≠ 1) ∧
    (-2 : Rat) + 1 + 1 = 0 ∧ 1858 / 10000 * ((4142 : Rat) + 1858 + 4000) = 1858 := by decide +kernel

/-- The premises of `InitFollowsTheResponses`. -/
abbrev Follows (s : State) (fails : List (List Byte)) (ack : Option (List Byte)) (fours : List (List Byte))
    (l40 : List Byte) (rest : List Turn) : Prop :=
  s.cl.hs = .disconnected ∧ (∀ c ∈ [CmdId.c54, .c55, .c40], Template.wf (s.straps.cmdTable.get c) = true) ∧
    s.straps.Wf ∧ s.cl.rxline.length = s.straps.rxlineCap ∧ s.cl.port.broken = false ∧
    s.cl.port.turns = Turn.handshake (fails ++ ack.toList) fours l40 ++ rest ∧
    (∀ l ∈ fails, IsResponse l ∧ s.straps.ack54.accepts (l.take s.straps.rxlineCap) = false) ∧
    (∀ l ∈ ack, IsResponse l ∧ s.straps.ack54.accepts (l.take s.straps.rxlineCap) = true ∧
      fails.length < s.straps.pcAttempts) ∧
    (ack = none → fails.length = s.straps.pcAttempts ∧ s.straps.hsStrict = false) ∧
    (∀ l ∈ fours, IsResponse l ∧ 7 ≤ l.length ∧ byteAt l 6 = ch4) ∧ fours.length < s.straps.extAttempts ∧
    IsResponse l40

/-- A channel whose line follows a script of responses. -/
def follows (fails : List (List Byte)) (ack : Option (List Byte)) (fours : List (List Byte)) (l40 : List Byte) : State :=
  clTurns base (Turn.handshake (fails ++ ack.toList) fours l40 ++ [Turn.idle])

/-- The first attempt acknowledged, then each end of step 3: `Ready`; cut off at six bytes, and at seven; an error digit;
`'4'` on the last attempt, under both settings of `EXT_EXHAUST`; `'4'` on the first attempt only. Then the second
attempt of step 1 acknowledged, and none of them. -/
theorem witness_InitFollowsTheResponses :
    (∀ l ∈ [lineExt, lineExt.take 6, lineExt.take 7, lineExt.set 6 ch1],
      Follows (follows [] (some line54) [] l) [] (some line54) [] l [Turn.idle]) ∧
    Follows (follows [] (some line54) [lineNotExt] lineNotExt) [] (some line54) [lineNotExt] lineNotExt [Turn.idle] ∧
    Follows (under (fun p => { p with extExhaust := .ready }) (follows [] (some line54) [lineNotExt] lineNotExt))
      [] (some line54) [lineNotExt] lineNotExt [Turn.idle] ∧
    Follows (follows [] (some line54) [lineNotExt] lineExt) [] (some line54) [lineNotExt] lineExt [Turn.idle] ∧
    Follows (follows [[]] (some line54) [] lineExt) [[]] (some line54) [] lineExt [Turn.idle] ∧
    Follows (follows [[], []] none [] lineExt) [[], []] none [] lineExt [Turn.idle] ∧
    byteAt lineExt 6 ∉ [ch1, ch2, ch3, ch4] ∧ byteAt lineNotExt 6 = ch4 :=
  ⟨by decide +kernel, by decide +kernel, by decide +kernel, by decide +kernel, by decide +kernel, by decide +kernel,
    by decide +kernel, by decide +kernel⟩

/-- The status word after each end of `CL.INIT` (V52 to V57). -/
theorem test_init_ends :
    ∀ e ∈ [(under (fun p => { p with hsStrict := true }) base, 0x14021407#32),
        (follows [[]] (some line54) [] lineExt, 0x0006000C#32),
        (follows [] (some line54) [lineNotExt] lineExt, 0x0009000C#32),
        (follows [] (some line54) [lineNotExt] lineNotExt, 0x15091507#32),
        (under (fun p => { p with extExhaust := .ready }) (follows [] (some line54) [lineNotExt] lineNotExt),
          0x0009000C#32),
        (follows [] (some line54) [] (lineExt.set 6 ch1), 0x11051107#32)],
      gives (exec .clInit e.1) (fun t => t.cl.statusWord = e.2) = true := by decide +kernel

/-- Strict and lenient. -/
theorem witness_InitWithoutAnAcknowledgement : ∀ s ∈ [base, under (fun p => { p with hsStrict := true }) base],
    s.cl.hs = .disconnected ∧ s.cl.port.Silent ∧ s.straps.Wf ∧
    (∀ c ∈ [CmdId.c54, .c55, .c40], Template.wf (s.straps.cmdTable.get c) = true) ∧
    s.straps.ack54.accepts [] = false ∧ base.straps.hsStrict = false ∧
    (under (fun p => { p with hsStrict := true }) base).straps.hsStrict = true := by decide +kernel

/-- Two lines that `ACK54` rejects, one of them cut off (42_cl_sequencer.md R142). -/
theorem witness_InitWithoutAnAcknowledgement_rejected :
    ∃ fails, fails = [lineLux, lineLux.take 3] ∧
    ∃ s, s = under (fun p => { p with hsStrict := true, ack54 := ⟨true, [line54]⟩ })
      (clTurns base (fails.flatMap Turn.exchange)) ∧
    s.cl.hs = .disconnected ∧ (∀ c ∈ [CmdId.c54, .c55, .c40], Template.wf (s.straps.cmdTable.get c) = true) ∧
    s.straps.Wf ∧ s.cl.rxline.length = s.straps.rxlineCap ∧ s.cl.port.broken = false ∧ s.straps.hsStrict = true ∧
    s.cl.port.turns = fails.flatMap Turn.exchange ++ [] ∧ fails.length = s.straps.pcAttempts ∧
    (∀ l ∈ fails, IsResponse l ∧ s.straps.ack54.accepts (l.take s.straps.rxlineCap) = false) ∧
    gives (exec .clInit s) (fun t => t.cl.status = .handshakeFail ∧ t.cl.line = lineLux.take 3) = true :=
  ⟨_, rfl, _, rfl, by decide +kernel⟩

/-- The premises a measurement's statements share. -/
abbrev Measures (s : State) (c : CmdId) (line : List Byte) : Prop :=
  s.cl.hs = .ready ∧ c.isRead = true ∧ Template.wf (s.straps.cmdTable.get .c40r) = true ∧
    Template.wf (s.straps.cmdTable.get c) = true ∧ s.straps.Wf ∧ s.cl.rxline.length = s.straps.rxlineCap ∧
    s.cl.port.broken = false ∧ s.cl.port.turns = Turn.measurement line ++ [] ∧ IsResponse line ∧ line ≠ []

/-- A lux measurement, the two that have secondary values, and a lux line cut off after its last digit
(42_cl_sequencer.md R149 (b)). -/
theorem witness_MeasDeliversTheValues :
    (Measures (clTurns ready (Turn.measurement lineLux)) .c02 lineLux ∧
      Measures (clTurns ready (Turn.measurement lineXyz)) .c01 lineXyz ∧
      Measures (clTurns ready (Turn.measurement lineEv)) .c08 lineEv ∧
      Measures (clTurns ready (Turn.measurement (lineLux.take 15))) .c02 (lineLux.take 15)) ∧
    (∀ l ∈ [lineLux, lineXyz, lineEv, lineLux.take 15], 15 ≤ l.length ∧ byteAt l 6 ∉ [ch1, ch2, ch3] ∧ byteAt l 8 ≠ ch1) ∧
    (∀ l ∈ [lineLux, lineLux.take 15], dec4 (slice l 10 14) = some 523 ∧ dig (byteAt l 14) = some 6) ∧
    (dec4 (slice lineXyz 10 14) = some 950 ∧ dig (byteAt lineXyz 14) = some 3 ∧ 26 ≤ lineXyz.length ∧
      dec4 (slice lineXyz 16 20) = some 1000 ∧ dec4 (slice lineXyz 22 26) = some 1089) ∧
    (dec4 (slice lineEv 10 14) = some 125 ∧ dig (byteAt lineEv 14) = some 0 ∧ 26 ≤ lineEv.length ∧
      dec4 (slice lineEv 16 20) = some 650 ∧ dec4 (slice lineEv 22 26) = some 12) :=
  ⟨⟨by decide +kernel, by decide +kernel, by decide +kernel, by decide +kernel⟩, by decide +kernel, by decide +kernel,
    by decide +kernel, by decide +kernel⟩

theorem witness_MeasHistoryIsExact : ready.cl.hs = .ready ∧ CmdId.c02.isRead = true ∧
    Template.wf (ready.straps.cmdTable.get .c40r) = true ∧ Template.wf (ready.straps.cmdTable.get .c02) = true ∧
    ∃ t evs, exec (.clMeas .c02) ready = .next t ∧ t.cl.busy = false ∧ t.cl.port.hist = ready.cl.port.hist ++ evs ∧
      ∀ w, Event.linkErr w ∉ evs := by
  obtain ⟨t, ht, hf⟩ := gives_next (o := exec (.clMeas .c02) ready) (f := fun t =>
    t.cl.busy = false ∧ t.cl.port.hist = ready.cl.port.hist ++ t.cl.port.hist ∧ t.cl.port.hist.all (fun e => match e with | .linkErr _ => false | _ => true)) (by decide +kernel)
  simp only [decide_eq_true_eq] at hf
  exact ⟨rfl, rfl, by decide +kernel, by decide +kernel, t, _, ht, hf.1, hf.2.1, fun w hw => by
    simpa using List.all_eq_true.1 hf.2.2 _ hw⟩

theorem witness_MeasWithoutAnAnswer : ready.cl.hs = .ready ∧ CmdId.c08.isRead = true ∧ ready.cl.port.Silent ∧
    Template.wf (ready.straps.cmdTable.get .c40r) = true ∧ Template.wf (ready.straps.cmdTable.get .c08) = true := by
  decide +kernel

/-- A line for each check, at the lengths where they meet: six bytes; an error digit at seven; eight bytes; a low battery
at nine; a value field short by a byte, and with a bad byte at its first and last offset; the same for the secondary
fields, under `command_01` and `command_08` (V59e). -/
theorem witness_MeasFaultsAreSurfaced :
    (∀ l ∈ [lineLux.take 5 ++ [lf], lineLux.set 6 ch2 |>.take 7 |>.concat lf, lineLux.take 6 ++ [lf], lineLux.take 7 ++ [lf],
        lineRangeBattery.take 9 ++ [lf], lineLux.take 13 ++ [lf], lineLux.set 10 0x20, lineLux.set 14 0x20,
        lineLux.take 1, lineLux.take 14],
      Measures (clTurns ready (Turn.measurement l)) .c02 l) ∧
    ((lineLux.take 5 ++ [lf]).length < 7 ∧
      (7 ≤ (lineLux.set 6 ch2 |>.take 7 |>.concat lf).length ∧
        byteAt (lineLux.set 6 ch2 |>.take 7 |>.concat lf) 6 ∈ [ch1, ch2, ch3]) ∧
      (7 ≤ (lineLux.take 6 ++ [lf]).length ∧ byteAt (lineLux.take 6 ++ [lf]) 6 ∉ [ch1, ch2, ch3] ∧
        (lineLux.take 7 ++ [lf]).length < 9 ∧ byteAt (lineLux.take 7 ++ [lf]) 6 ∉ [ch1, ch2, ch3]) ∧
      (9 ≤ (lineRangeBattery.take 9 ++ [lf]).length ∧ byteAt (lineRangeBattery.take 9 ++ [lf]) 6 ∉ [ch1, ch2, ch3] ∧
        byteAt (lineRangeBattery.take 9 ++ [lf]) 8 = ch1) ∧
      (byteAt (lineLux.take 13 ++ [lf]) 8 ≠ ch1 ∧ (lineLux.take 13 ++ [lf]).length < 15) ∧
      dec4 (slice (lineLux.set 10 0x20) 10 14) = none ∧ dig (byteAt (lineLux.set 14 0x20) 14) = none) ∧
    (∀ l ∈ [lineXyz.take 24 ++ [lf], lineXyz.set 16 0x20, lineXyz.set 25 0x20],
      Measures (clTurns ready (Turn.measurement l)) .c01 l ∧ Measures (clTurns ready (Turn.measurement l)) .c08 l ∧
        7 ≤ l.length ∧ byteAt l 6 ∉ [ch1, ch2, ch3] ∧ byteAt l 8 ≠ ch1) ∧
    (lineXyz.take 24 ++ [lf]).length < 26 ∧ dec4 (slice (lineXyz.set 16 0x20) 16 20) = none ∧
    (dec4 (slice (lineXyz.set 25 0x20) 22 26) = none ∧ CmdId.c01 ≠ .c02 ∧ CmdId.c08 ≠ .c02) :=
  ⟨by decide +kernel, by decide +kernel, by decide +kernel, by decide +kernel, by decide +kernel, by decide +kernel⟩

/-- A step that keeps the state, one that reaches `Ready`, one that faults, and one that does not end. -/
theorem witness_HandshakeTransitions : base.cl.HandshakeWf ∧
    (∀ s ∈ [follows [] (some line54) [] lineExt, base, clTurns base [⟨[], .never⟩],
        clTurns base (List.replicate 16 Turn.idle ++ Turn.deliver line54 ::
          (List.replicate (line54.length - 1) Turn.idle ++ [⟨[], .never⟩]))],
      s.cl.HandshakeWf ∧ gives (exec .clInit s) (fun _ => true) = true) ∧
    gives (exec .clFlush base) (fun _ => true) = true := by decide +kernel

theorem witness_ListenTakesOneByte : (unlocked [7]).ut.dead = false ∧ (unlocked [7]).ut.port.Silent ∧
    (unlocked [7]).ut.port.rxq = [7] ∧ base.ut.dead = false ∧ base.ut.port.Silent ∧ base.ut.port.rxq = [] ∧
    (if base.ut.closed = true then 0 else base.ut.rawcnt) = 0 := by decide +kernel

theorem witness_ReadTakesThirtyThree : (unlocked frame1).ut.dead = false ∧ (unlocked frame1).ut.port.Silent := by
  decide +kernel

theorem witness_DecrawDetectsFlippedPrefix : (withRaw frame1 33).ut.dead = false ∧ (withRaw frame1 33).ut.rawcnt = 33 ∧
    WellFormedRaw (withRaw frame1 33).ut.raw.toList ∧ ((0x2F : Byte).extractLsb' 4 4 ≠ 0x3) ∧ 29 < 30 := by
  decide +kernel

theorem witness_DecrawPairsNibbles : (withRaw frame1 10).ut.dead = false ∧
    2 * 4 + 1 < min (withRaw frame1 10).ut.rawcnt 33 := by decide +kernel

theorem witness_PayloadSurvivesTheWire : (payloadOf frame1 33).toList.length = 15 := by decide +kernel

theorem witness_MisalignedWindowIsWeird : WellFormedRaw frame1 ∧ WellFormedRaw frame7 ∧
    ∀ o ∈ [1, 32], 1 ≤ o ∧ o ≤ 32 := by decide +kernel

/-- A frame before more bytes, and the last one; nothing queued, a frame short of one byte, and one with a bad
prefix. -/
theorem witness_SyncTakesTheFrame :
    ((locked (frame7 ++ [9])).ut.FrameWaiting (payloadOf frame7 33) (block frame7) 0 [9] ∧
      (locked frame1).ut.FrameWaiting (payloadOf frame1 33) (block frame1) 0 []) ∧
    ∀ l ∈ [[], frame1.take 32, frame1.set 29 0x41 ++ [9]], (locked l).ut.dead = false ∧ (locked l).ut.mode = .steady ∧
      (locked l).ut.port.Silent ∧ ¬ WellFormedRaw ((locked l).ut.port.rxq.take 33) := by decide +kernel

theorem witness_SyncScansToTheGap : (unlocked frame1).ut.dead = false ∧ (unlocked frame1).ut.mode = .resync ∧
    (unlocked frame1).ut.rawcnt = 0 ∧ (unlocked frame1).ut.port.Silent ∧
    (block frame1).toList = rawFrameOf (payloadOf frame1 33).toList 0 ∧
    (unlocked frame1).ut.port.rxq = (block frame1).toList := by decide +kernel

/-- Nothing at all; one byte; one byte too few and too many; an open chunk with nothing more to come, and one that saturates
(10_state.md R38). -/
theorem witness_SyncScansToTheGap_any : ∀ e ∈ [(unlocked [], Code.waiting, 0), (unlocked [7], .dropped, 1),
      (unlocked (frame1.take 32), .dropped, 32), (unlocked (frame1 ++ [9]), .dropped, 34),
      ((unlocked []).setUt { (unlocked []).ut with rawcnt := 33, raw := block frame1 }, .ok, 33),
      ((unlocked [9]).setUt { (unlocked [9]).ut with rawcnt := 34 }, .dropped, 34)],
    e.1.ut.dead = false ∧ e.1.ut.mode = .resync ∧ e.1.ut.port.Silent ∧ e.1.ut.closed = false ∧ e.1.ut.rawcnt ≤ 34 ∧
    gives (exec .utSync e.1) (fun t => t.ut.status = e.2.1 ∧ t.ut.rawcnt = e.2.2) = true := by decide +kernel

/-- One state for each of the four ends. -/
theorem witness_SyncPhaseTable : ∀ s ∈ [base, locked [], locked frame1,
      (locked []).setUt ((locked []).ut.setPort { (locked []).ut.port with turns := [Turn.linkErr] })],
    s.ut.dead = false ∧ gives (exec .utSync s) (fun t => t.ut.busy = false) = true := by decide +kernel

theorem witness_SummaryMapsEveryField : (summed frame1).ut.dead = false ∧ (summed frame1).ut.pvalid = true ∧
    LcdTable.wf (summed frame1).straps.lcdTable = true ∧
    lcd[6]? = some [⟨.unit, 3, .scalar, [(1, luxUnit), (2, fcUnit)]⟩] := by decide +kernel

theorem witness_FieldMeanings : ∀ f ∈ [(⟨.unit, 3, .scalar, [(1, luxUnit), (2, fcUnit)]⟩ : FieldSpec)],
    f.kind = .scalar ∧ List.lookup ((0xF1 : Byte) &&& f.mask) f.lookup = some luxUnit ∧
    (∀ e ∈ f.lookup, e.1 ≠ (0xF3 : Byte) &&& f.mask) ∧
    (⟨.other [2], 0x03, .multi, [(1, .lowbat)]⟩ : FieldSpec).kind = .multi := by decide +kernel

/-- The blank pattern, four digits, a letter. -/
theorem witness_LuxReadsTheDigits :
    (∀ p ∈ [[0x00, 0x3F, 0x38, 0x00], [0x00, 0x6D, 0x5B, 0x4F], [0x00, 0x00, 0x38, 0x00]],
      (base.setUt { base.ut with svalid := true, summary := summarize lcd p }).ut.dead = false ∧
        (base.setUt { base.ut with svalid := true, summary := summarize lcd p }).ut.svalid = true) ∧
    (Summary.dg (summarize lcd [0x00, 0x3F, 0x38, 0x00]) .big1000 = .tok .blank ∧
      Summary.dg (summarize lcd [0x00, 0x3F, 0x38, 0x00]) .big100 = .tok (.digit 0) ∧
      Summary.dg (summarize lcd [0x00, 0x3F, 0x38, 0x00]) .big10 = .tok .letterL ∧
      Summary.dg (summarize lcd [0x00, 0x3F, 0x38, 0x00]) .big1 = .tok .blank) ∧
    ((Summary.dg (summarize lcd [0x00, 0x6D, 0x5B, 0x4F]) .big1000).val = some 0 ∧
      (Summary.dg (summarize lcd [0x00, 0x6D, 0x5B, 0x4F]) .big100).val = some 5 ∧
      (Summary.dg (summarize lcd [0x00, 0x6D, 0x5B, 0x4F]) .big10).val = some 2 ∧
      (Summary.dg (summarize lcd [0x00, 0x6D, 0x5B, 0x4F]) .big1).val = some 3) ∧
    Summary.dg (summarize lcd [0x00, 0x00, 0x38, 0x00]) .big10 = .tok .letterL ∧
    Summary.dg (summarize lcd [0x00, 0x00, 0x38, 0x00]) .big100 ≠ .tok (.digit 0) ∧
    Summary.dg (summarize lcd [0x00, 0x01, 0x00, 0x00]) .big100 = .unmapped := by decide +kernel

/-- A menu frame, a frame with a reading, a frame without one. -/
theorem witness_MonReadsTheFrame : LcdTable.wf straps.lcdTable = true ∧
    ((locked frame13).ut.FrameWaiting (payloadOf frame13 33) (block frame13) 0 [] ∧
      Summary.has (summarize lcd (payloadOf frame13 33).toList) .menu = true) ∧
    ((locked frame4).ut.FrameWaiting (payloadOf frame4 33) (block frame4) 0 [] ∧
      Summary.has (summarize lcd (payloadOf frame4 33).toList) .menu = false ∧
      Summary.reading (summarize lcd (payloadOf frame4 33).toList) = some ⟨some (523, -3), .tok fcUnit⟩) ∧
    ((locked frame6).ut.FrameWaiting (payloadOf frame6 33) (block frame6) 0 [] ∧
      Summary.has (summarize lcd (payloadOf frame6 33).toList) .menu = false ∧
      Summary.reading (summarize lcd (payloadOf frame6 33).toList) = none) := by decide +kernel

/-- No frame; a menu frame; a frame whose digits are no number. -/
theorem witness_MonPassesSyncThrough : ∀ q ∈ [[], frame13, frame6],
    (∀ s ∈ [(locked q).setUt { (locked q).ut with dur := 1 }],
      s.ut.dead = false ∧ LcdTable.wf s.straps.lcdTable = true ∧ s.ut.dur ≠ 0 ∧
      gives (exec .utMon s) (fun t => t.ut.status ≠ .ok) = true) ∧
    gives (exec .utSync (locked [])) (fun t => t.ut.status ≠ .ok) = true := by decide +kernel

/-- A reading that fills no window, one that fills it, and the blank pattern. -/
theorem witness_AvgAddsTheReading :
    (∀ n ∈ [0, 15],
      ((locked frame7).setUt { (locked frame7).ut with dur := 2, wcnt := n }).ut.FrameWaiting
        (payloadOf frame7 33) (block frame7) 0 [] ∧
      ((locked frame7).setUt { (locked frame7).ut with dur := 2, wcnt := n }).ut.dur ≠ 0) ∧
    LcdTable.wf straps.lcdTable = true ∧ Summary.has (summarize lcd (payloadOf frame7 33).toList) .menu = false ∧
    Summary.reading (summarize lcd (payloadOf frame7 33).toList) = some ⟨some (524, -1), .tok luxUnit⟩ ∧
    0 + 1 ≠ (2 : BitVec 8).toNat * straps.utRateHz ∧ 15 + 1 = (2 : BitVec 8).toNat * straps.utRateHz ∧
    Summary.reading (summarize lcd [0x00, 0x3F, 0x38, 0x00]) = some ⟨none, .unmapped⟩ ∧
    ((locked (rawFrameOf ([0x00, 0x3F, 0x38, 0x00] ++ List.replicate 11 0) 0)).setUt
        { (locked (rawFrameOf ([0x00, 0x3F, 0x38, 0x00] ++ List.replicate 11 0) 0)).ut with dur := 1 }).ut.FrameWaiting
      ⟨#[0x00, 0x3F, 0x38, 0x00, 0, 0, 0, 0, 0, 0, 0, 0, 0, 0, 0], rfl⟩
      (block (rawFrameOf ([0x00, 0x3F, 0x38, 0x00] ++ List.replicate 11 0) 0)) 0 [] := by decide +kernel

/-- Two readings at one a second over two seconds. -/
theorem witness_AvgEmitsTheMeanOfTheWindow :
    (∀ s ∈ [under (fun p => { p with utRateHz := 1 })
        ((locked (frame7 ++ frame1 ++ [9])).setUt { (locked (frame7 ++ frame1 ++ [9])).ut with dur := 2 })],
      s.ut.dead = false ∧ s.ut.mode = .steady ∧ s.ut.port.Silent ∧ s.ut.wcnt = 0 ∧ s.ut.wsum = 0 ∧ s.ut.dur ≠ 0 ∧
      1 ≤ s.straps.utRateHz ∧ LcdTable.wf s.straps.lcdTable = true ∧
      [payloadOf frame7 33, payloadOf frame1 33].length = s.ut.dur.toNat * s.straps.utRateHz ∧
      s.ut.port.rxq = ([payloadOf frame7 33, payloadOf frame1 33].map fun f =>
        rawFrameOf f.toList 0).flatten ++ [9]) ∧
    List.Forall₂ (fun f v => Summary.has (summarize lcd f.toList) .menu = false ∧
      ∃ n e unit, Summary.reading (summarize lcd f.toList) = some ⟨some (n, e), unit⟩ ∧ v = n * 10 ^ (e + 6).toNat)
      [payloadOf frame7 33, payloadOf frame1 33] [52400000, 52300000] :=
  ⟨by decide +kernel, .cons ⟨by decide +kernel, 524, -1, .tok luxUnit, by decide +kernel, by decide⟩
    (.cons ⟨by decide +kernel, 523, -1, .tok luxUnit, by decide +kernel, by decide⟩ .nil)⟩

theorem witness_StartEmptiesTheWindow : (locked [7]).ut.dead = false := rfl

theorem witness_WireCommandCarriesItsFrame : Template.wf (base.straps.cmdTable.get .c08) = true ∧
    (clQueue base [] (cmdFrame straps .c08 ++ [7])).cl.port.txq = cmdFrame straps .c08 ++ [7] ∧
    ∀ rest, base.cl.port.txq ≠ cmdFrame straps .c08 ++ rest := by
  refine ⟨by decide +kernel, rfl, fun rest h => ?_⟩
  have := congrArg List.length h
  simp only [cmdFrame, frameOf, List.length_append, List.length_cons, List.length_nil] at this
  simp only [show base.cl.port.txq = [] from rfl, List.length_nil] at this
  omega

/-- A refusal of each channel. -/
theorem witness_RefusalsInOrder :
    ((Instr.clMeas .c01).operandsWf = true ∧ base.ownRefusal (.clMeas .c01) = some .notReady ∧
      (Instr.clMeas .c01).channel = some .cl ∧ base.cl.hs ≠ .faulted) ∧
    (Instr.utAvg.operandsWf = true ∧ base.ownRefusal .utAvg = some .noWindow ∧ Instr.utAvg.channel = some .ut ∧
      base.ut.dead = false) ∧
    (Instr.utMon.operandsWf = true ∧ (under (fun p => { p with lcdTable := [] }) base).ownRefusal .utMon = some .badTable ∧
      Instr.utMon.channel = some .ut) := by decide +kernel

theorem witness_DeadChannelRefuses :
    ((Instr.clMeas .c01).operandsWf = true ∧ (Instr.clMeas .c01).channel = some .cl ∧ Instr.clMeas .c01 ≠ .clStatus ∧
      faulted.cl.hs = .faulted ∧ faulted.straps.faultStyle = .refuse ∧
      (under (fun p => { p with faultStyle := .empty }) faulted).straps.faultStyle = .empty) ∧
    (Instr.utAvg.operandsWf = true ∧ Instr.utAvg.channel = some .ut ∧ Instr.utAvg ≠ .utStatus ∧
      dead.ut.dead = true) := by decide +kernel

theorem witness_ChannelsAreIndependent : base.straps = (ready.setUt dead.ut).straps ∧
    (∃ t, exec .clFlush base = .next t) ∧ base.cl = (base.setUt dead.ut).cl ∧
    (∃ t, exec .utSync base = .next t) ∧ base.ut = (base.setCl ready.cl).ut := by
  refine ⟨rfl, ?_, rfl, ?_, rfl⟩
  · obtain ⟨t, ht, _⟩ := gives_next (o := exec .clFlush base) (f := fun _ => true) (by decide +kernel)
    exact ⟨t, ht⟩
  · obtain ⟨t, ht, _⟩ := gives_next (o := exec .utSync base) (f := fun _ => true) (by decide +kernel)
    exact ⟨t, ht⟩

/-- The third byte of a send fails. -/
theorem witness_ClLinkErrorEndsTheOperation : ∃ t evs w,
    exec (.clSend .none) (clTurns (loaded .c54) [Turn.idle, Turn.idle, Turn.linkErr]) = .next t ∧
    t.cl.port.hist = (loaded .c54).cl.port.hist ++ evs ∧ Event.linkErr w ∈ evs := by
  obtain ⟨t, ht, hf⟩ := gives_next
    (o := exec (.clSend .none) (clTurns (loaded .c54) [Turn.idle, Turn.idle, Turn.linkErr]))
    (f := fun t => t.cl.port.hist = [.tx 0x02, .tx 0x30, .linkErr none]) (by decide +kernel)
  exact ⟨t, _, none, ht, of_decide_eq_true hf, by decide⟩

/-- A read of a broken link. -/
theorem witness_UtLinkErrorEndsTheOperation : ∃ t evs w,
    exec .utRead33 (base.setUt (base.ut.setPort { base.ut.port with broken := true })) = .next t ∧
    t.ut.port.hist = base.ut.port.hist ++ evs ∧ Event.linkErr w ∈ evs := by
  obtain ⟨t, ht, hf⟩ := gives_next
    (o := exec .utRead33 (base.setUt (base.ut.setPort { base.ut.port with broken := true })))
    (f := fun t => t.ut.port.hist = [.linkErr (some (.read .lock))]) (by decide +kernel)
  exact ⟨t, _, some (.read .lock), ht, of_decide_eq_true hf, by decide⟩

theorem witness_OperationsEndIfAnswered : Instr.clInit.channel = some .cl ∧ Instr.utSync.channel = some .ut ∧
    (∀ e ∈ [(endless base [0x41], Instr.clRxline), (endless base [0x41], .clInit), (endless ready [0x41], .clMeas .c08)],
      Instr.operandsWf e.2 = true ∧ e.1.cl.hs ≠ .faulted ∧ e.1.ownRefusal e.2 = none ∧ e.1.cl.port.broken = false ∧
      e.1.cl.port.EndlessNoLf ∧ lf ∉ e.1.cl.port.rxq ∧ 1 ≤ e.1.straps.pcAttempts) ∧
    (Instr.ReadsLine .clRxline ∧ Instr.ReadsLine .clInit ∧ Instr.ReadsLine (.clMeas .c08)) ∧
    (∀ i ∈ [Instr.utSync, .utMon, .utAvg], ∃ s, s = (endless base [lf]).setUt { (endless base [lf]).ut with dur := 1 } ∧
      i.Scans ∧ s.ut.dead = false ∧ s.ownRefusal i = none ∧ s.ut.mode = .resync ∧ s.ut.port.broken = false ∧
      s.ut.port.Endless) := by
  refine ⟨by decide, by decide, by decide +kernel, ⟨.inl rfl, .inr (.inl rfl), .inr (.inr ⟨_, rfl⟩)⟩, fun i hi => ⟨_, rfl, ?_⟩⟩
  revert i
  decide +kernel

theorem witness_StepKeepsRanges : (ready.setAgenda [.host 0x1D01]).Wf ∧
    ∃ t, step (ready.setAgenda [.host 0x1D01]) = .next t := by
  refine ⟨⟨by decide +kernel, by decide +kernel, by decide +kernel⟩, ?_⟩
  obtain ⟨t, ht, _⟩ := gives_next (o := step (ready.setAgenda [.host 0x1D01])) (f := fun _ => true) (by decide +kernel)
  exact ⟨t, ht⟩

theorem witness_ResetIsInRange : straps.Wf := by decide

end Sys2Proof.Tests
end

section
/-! The raw block's decoding (30_encoding.md R79, 43_ut_frame.md R164). -/

namespace Sys2Proof

/-- The first wire byte gives the low nibble (30_encoding.md R79). -/
theorem pairNibbles_lo (lo hi : Byte) : (pairNibbles lo hi).extractLsb' 0 4 = lo.extractLsb' 0 4 := by
  ext i h4
  interval_cases i <;> simp [pairNibbles]

/-- The second wire byte's low nibble becomes the high nibble (30_encoding.md R79). -/
theorem pairNibbles_hi (lo hi : Byte) : (pairNibbles lo hi).extractLsb' 4 4 = hi.extractLsb' 0 4 := by
  ext i h4
  interval_cases i <;> simp [pairNibbles]

/-- A payload byte whose two wire bytes have been received is their pair (30_encoding.md R79). -/
theorem payloadOf_byteAt (raw : List Byte) (c k : Nat) (hc : 2 * k + 1 < min c 33) (hk : k < 15) :
    byteAt (payloadOf raw c).toList k = pairNibbles (byteAt raw (2 * k)) (byteAt raw (2 * k + 1)) := by
  have hl : k < (payloadOf raw c).toList.length := by simpa using hk
  calc byteAt (payloadOf raw c).toList k
      = (payloadOf raw c)[k]'hk := (List.getD_eq_getElem _ _ hl).trans (Vector.getElem_toList hl)
    _ = pairNibbles (byteAt raw (2 * k)) (byteAt raw (2 * k + 1)) := by
      simp only [payloadOf, Vector.getElem_ofFn, if_pos hc]

namespace Machine

/-- A live `UT` channel runs the body of an operation without primitives once its preconditions hold. -/
theorem State.utPure_done (s : State) (pre : List (Bool × Code)) (body : Ut → Ut)
    (hd : s.ut.dead = false) (hp : firstFailing pre = none) :
    s.utPure pre body = .next (s.setUt (body s.ut)) := by
  simp [State.utPure, hd, hp]

/-- `UT.DECRAW` has no precondition of its own: a live channel decodes its block (43_ut_frame.md R164). -/
theorem exec_utDecraw_live (s : State) (hd : s.ut.dead = false) :
    exec .utDecraw s = .next (s.setUt s.ut.decraw) :=
  s.utPure_done [] Ut.decraw hd rfl

/-- Settles O37: the payload is the model's `payloadOf`, whose bytes with both wire bytes present are nibble pairs. -/
theorem decrawPairsNibbles : Obligations.DecrawPairsNibbles := by
  intro s hd
  refine ⟨payloadOf s.ut.raw.toList s.ut.rawcnt, exec_utDecraw_live s hd, fun k hc hk => ?_⟩
  rw [payloadOf_byteAt _ _ _ hc hk]
  exact ⟨pairNibbles_lo _ _, pairNibbles_hi _ _⟩

end Machine

end Sys2Proof
end

section
/-! The checksum, the frame and the rendering of a command (40_cl_framer.md R100 to R104). -/

namespace Sys2Proof

/-- The mod-100 checksum of a concatenation (40_cl_framer.md R100). -/
theorem ckMod100_append (s t : List Byte) : ckMod100 (s ++ t) = (ckMod100 s + ckMod100 t) % 100 := by
  simp only [ckMod100, List.map_append, List.sum_append]
  exact Nat.add_mod _ _ _

/-- The mod-100 checksum does not see the order of the bytes (40_cl_framer.md R100). -/
theorem ckMod100_perm {s t : List Byte} (h : s.Perm t) : ckMod100 s = ckMod100 t :=
  congrArg (· % 100) (h.map BitVec.toNat).sum_nat

/-- The character of a digit, as a number (00_scope.md section 4). -/
theorem digitChar_toNat (n : Nat) (h : n < 10) : (BitVec.ofNat 8 (0x30 + n)).toNat = 0x30 + n := by
  rw [BitVec.toNat_ofNat]
  exact Nat.mod_eq_of_lt (by omega)

/-- The bytes between the delimiters of a frame are its body (40_cl_framer.md R103, R108). -/
theorem slice_frameOf (k : CkKind) (b : List Byte) : slice (frameOf k b) 1 (b.length + 1) = b := by
  simp [slice, frameOf]

/-- A frame determines its body among those of one length (40_cl_framer.md R103). -/
theorem frameOf_inj (k : CkKind) {b b' : List Byte} (hl : b.length = b'.length)
    (h : frameOf k b = frameOf k b') : b = b' :=
  calc b = slice (frameOf k b) 1 (b.length + 1) := (slice_frameOf k b).symm
    _ = slice (frameOf k b') 1 (b'.length + 1) := by rw [h, hl]
    _ = b' := slice_frameOf k b'

/-- Settles O8: the sum of R100, and the two digits of a number below 100. -/
theorem checksumIsSumModHundred : Obligations.ChecksumIsSumModHundred := by
  refine ⟨fun s => ⟨rfl, CkKind.apply_lt .mod100 s⟩, ckMod100_append, fun _ _ => ckMod100_perm, fun k b => ?_⟩
  have hck := k.apply_lt b
  have htens : k.apply b / 10 < 10 := by omega
  have hunits : k.apply b % 10 < 10 := by omega
  exact ⟨_, _, rfl, digitChar_toNat _ htens, digitChar_toNat _ hunits, dig_digit _ htens, dig_digit _ hunits⟩

/-- Settles O9: the body is the slice of the frame between its delimiters. -/
theorem frameIsInjective : Obligations.FrameIsInjective := by
  intro k b hb
  exact ⟨by rw [frameOf_length, hb], rfl, fun b' hb' h => frameOf_inj k (hb.trans hb'.symm) h⟩

namespace Machine

/-- A live `CL` channel runs the body of an operation without primitives once its preconditions hold. -/
theorem State.clPure_done (s : State) (pre : List (Bool × Code)) (body : Cl → Cl)
    (hd : s.cl.hs ≠ .faulted) (hp : firstFailing pre = none) :
    s.clPure pre body = .next (s.setCl (body s.cl)) := by
  simp [State.clPure, hd, hp]

/-- `CL.RENDER` of a well-formed template on a live channel loads the frame (40_cl_framer.md R102). -/
theorem exec_clRender_live (s : State) (c : CmdId) (hd : s.cl.hs ≠ .faulted)
    (hw : Template.wf (s.straps.cmdTable.get c) = true) :
    exec (.clRender c) s = .next (s.setCl ((s.cl.loadFrame s.straps c).setStatus .ok)) :=
  s.clPure_done [(templateOk s.straps c, .badTemplate)] (fun d => (d.loadFrame s.straps c).setStatus .ok) hd
    ((firstFailing_eq_none _).2 (by simpa [templateOk] using hw))

/-- Settles O11: the buffer `CL.RENDER` loads is the frame of the template's body. -/
theorem renderWritesTheFrame : Obligations.RenderWritesTheFrame := by
  intro s c hd hw
  exact ⟨(s.straps.cmdTable.get c).body, (s.cl.loadFrame s.straps c).txbuf, rfl,
    Template.body_length _ hw, Cl.loadFrame_txbuf s.straps c s.cl hw, exec_clRender_live s c hd hw⟩

end Machine

end Sys2Proof
end

section
/-! Where a `LinkErr` leaves a `CL` operation (40_cl_framer.md R115). -/

namespace Sys2Proof.Machine

/-- The events that lead to a later transport hold no `LinkErr`. -/
theorem Port.Later.linkErr_notMem {p q : Port} {evs : List Event} (h : p.Later q) (he : q.hist = p.hist ++ evs)
    (w : Option Wait) : Event.linkErr w ∉ evs := by
  obtain ⟨⟨evs', he', hn⟩, _⟩ := h
  rw [List.append_cancel_left (he.symm.trans he')]
  exact hn w

/-- A live channel ended by a fatal `TransportError` (60_exceptions.md R208). -/
def Cl.LinkDown (c : Cl) : Prop := c.status = .transportError ∧ c.hs = .faulted ∧ c.fault = .transportError

/-- Of a channel before and after one operation: no primitive answered `LinkErr`; or the last one did, and it alone,
and the link is down (40_cl_framer.md R115). -/
def Cl.EndsAtLinkErr (c d : Cl) : Prop :=
  c.port.Later d.port ∨ d.LinkDown ∧ ∃ q w, c.port.Later q ∧ d.port.hist = q.hist ++ [.linkErr w]

theorem Cl.endsAtLinkErr_of_port {c d : Cl} (h : d.port = c.port) : c.EndsAtLinkErr d :=
  .inl (h ▸ Port.Later.refl c.port)

/-- What the raises of the `CL` operations have in common: the transport is left alone, and a `TransportError` takes
a live channel down. -/
def Cl.EntersFault (onRaise : Code → Cl → Cl) : Prop :=
  (∀ x c, (onRaise x c).port = c.port) ∧ ∀ c : Cl, c.hs ≠ .faulted → (onRaise .transportError c).LinkDown

theorem Cl.raise_entersFault (b : Bool) : Cl.EntersFault (Cl.raise b) := by
  refine ⟨fun x c => by rw [Cl.raise_frame], fun c hc => ⟨by rw [Cl.raise_frame], ?_⟩⟩
  exact Cl.raise_fatal b .transportError c rfl hc

theorem Cl.measRaise_entersFault : Cl.EntersFault Cl.measRaise := by
  obtain ⟨hport, hdown⟩ := Cl.raise_entersFault false
  refine ⟨fun x c => ?_, hdown⟩
  unfold Cl.measRaise
  split
  · exact hport x c
  · exact hport x c

theorem Cl.refuseDead_port (f : FaultStyle) (c : Cl) : (c.refuseDead f).port = c.port := by cases f <;> rfl

/-- A body whose `LinkErr` ends it with `TransportError`, and that raises from live channels only, gives an
operation that ends at its `LinkErr`. -/
theorem State.clOp_endsAtLinkErr {s t : State} {pre : List (Bool × Code)} {onRaise : Code → Cl → Cl}
    {body : Cl → Res Cl} {E : Port → Prop} (hf : Cl.EntersFault onRaise) (hr : (body s.cl).Runs Cl.port E s.cl)
    (hlive : s.cl.hs ≠ .faulted → (body s.cl).Sat (fun _ => True) fun _ c => c.hs ≠ .faulted)
    (h : s.clOp pre onRaise body = .next t) : s.cl.EndsAtLinkErr t.cl := by
  obtain ⟨hport, hdown⟩ := hf
  rcases s.clOp_cases pre onRaise body t h with
    ⟨_, rfl⟩ | ⟨_, x, _, rfl⟩ | ⟨hd, _, ⟨c, hb, rfl⟩ | ⟨x, c, hb, rfl⟩ | ⟨c, hb, rfl⟩⟩
  · exact Cl.endsAtLinkErr_of_port (Cl.refuseDead_port _ _)
  · exact Cl.endsAtLinkErr_of_port rfl
  · rw [hb] at hr; exact .inl hr
  · have hc := hlive hd
    rw [hb] at hr hc
    rcases hr with ⟨_, hl⟩ | ⟨rfl, q, w, hl, hq⟩
    · exact .inl (by simpa [hport] using hl)
    · exact .inr ⟨hdown c hc, q, w, hl, by simpa [hport] using hq⟩
  · rw [hb] at hr; exact .inl hr.1

/-- Where the handshake raises, the channel is still live. -/
theorem Cl.handshake_raises_live (p : Straps) (c : Cl) (hc : c.hs ≠ .faulted) :
    (c.handshake p).Sat (fun _ => True) fun _ d => d.hs ≠ .faulted := by
  refine (Cl.handshake_sat p c).mono (fun _ _ => trivial) (fun x d hx => ?_) fun _ _ => trivial
  obtain ⟨_, _, _, _, _, hs⟩ := hx
  exact hs hc

/-- A body that keeps the handshake state raises from live channels only. -/
theorem Cl.raises_live_of_kept {p : Straps} {c : Cl} {r : Res Cl} (h : r.Kept (Cl.Keeps p) c)
    (hc : c.hs ≠ .faulted) : r.Sat (fun _ => True) fun _ d => d.hs ≠ .faulted := by
  refine Res.Sat.mono h (fun _ _ => trivial) (fun _ d hd => ?_) fun _ _ => trivial
  obtain ⟨hs, _⟩ := hd
  exact hs ▸ hc

/-- `CL` is untouched by a `UT` operation. -/
theorem State.utOp_cl {s t : State} {pre : List (Bool × Code)} {body : Ut → Res Ut}
    (h : s.utOp pre body = .next t) : t.cl = s.cl := by
  obtain ⟨u, hu⟩ := s.utOp_next pre body
  obtain rfl : s.setUt u = t := by simpa using hu.symm.trans h
  rfl

/-- The wire takes a frame without an event of the engine's. -/
theorem State.carry_later {s t : State} {c : CmdId} (h : s.carry c = .next t) : s.cl.port.Later t.cl.port := by
  unfold State.carry at h
  split at h
  · obtain rfl : _ = t := by simpa using h
    exact Port.Later.refl s.cl.port
  · simp at h

/-- Every instruction ends at a `LinkErr` of `CL` (40_cl_framer.md R115). -/
theorem exec_endsAtLinkErr {s t : State} {i : Instr} (h : exec i s = .next t) : s.cl.EndsAtLinkErr t.cl := by
  rcases exec_shape i s with ⟨c, _, he⟩ | ⟨_, _, c, he, _, hport⟩ |
    ⟨_, _, pre, onRaise, body, he, hraise, hruns, hkept⟩ | ⟨_, he⟩ | ⟨_, pre, body, he, _⟩ |
    ⟨_, pre, body, he, _⟩ | ⟨_, he⟩ <;> rw [he] at h
  · -- a wire command
    exact .inl (State.carry_later h)
  · -- a `CL` operation that writes registers only
    obtain rfl : s.setCl c = t := by simpa using h
    exact Cl.endsAtLinkErr_of_port hport
  · -- a `CL` operation with a body of its own
    have hf : Cl.EntersFault onRaise := by
      rcases hraise with rfl | rfl
      · exact Cl.raise_entersFault false
      · exact Cl.measRaise_entersFault
    exact State.clOp_endsAtLinkErr hf hruns (Cl.raises_live_of_kept hkept) h
  · -- `CL.INIT`
    exact State.clOp_endsAtLinkErr (Cl.raise_entersFault true) (Cl.handshake_runs s.straps s.cl)
      (Cl.handshake_raises_live s.straps s.cl) h
  · -- a `UT` operation
    exact Cl.endsAtLinkErr_of_port (by rw [State.utOp_cl h])
  · -- a `UT` operation that writes registers only
    obtain rfl : s.setUt _ = t := by simpa [State.utPure] using h
    exact Cl.endsAtLinkErr_of_port rfl
  · -- `UT.STATUS`
    obtain rfl : s.setUt _ = t := by simpa [execUtStatus] using h
    exact Cl.endsAtLinkErr_of_port rfl

/-- Settles O56: every instruction either sees no `LinkErr` of `CL` or ends at one, with the link down. -/
theorem clLinkErrorEndsTheOperation : Obligations.ClLinkErrorEndsTheOperation := by
  intro s t i evs w h hevs hw
  rcases exec_endsAtLinkErr h with hl | ⟨⟨hstatus, hhs, hfault⟩, q, v, ⟨⟨before, hq, hn⟩, _⟩, hlast⟩
  · exact absurd hw (hl.linkErr_notMem hevs w)
  · refine ⟨hstatus, hhs, hfault, before, ?_, hn⟩
    have hv : evs = before ++ [.linkErr v] :=
      List.append_cancel_left (by rw [← hevs, hlast, hq, List.append_assoc])
    have hwv : w = v := by simpa [hv, hn] using hw
    rw [hv, hwv]

end Sys2Proof.Machine
end

section
/-! Which raw blocks are weird (43_ut_frame.md R165, R167). -/

namespace Sys2Proof

/-- The shifted high nibble and the bit field name the same number (00_scope.md section 4). -/
theorem hiNibble_eq_three_iff (b : Byte) : hiNibble b = 3 ↔ b.extractLsb' 4 4 = 0x3 := by
  have hb : b.toNat < 256 := b.isLt
  have hlow : (b.extractLsb' 4 4).toNat = hiNibble b := by
    rw [BitVec.extractLsb'_toNat, Nat.shiftRight_eq_div_pow, hiNibble]
    omega
  rw [← BitVec.toNat_inj, hlow]
  rfl

/-- `weird` is the disjunction of the violations R165 lists. -/
theorem weird_eq_true_iff (raw : List Byte) (c : Nat) : weird raw c = true ↔
    c ≠ 33 ∨ (∃ i, i < 30 ∧ i < c ∧ (byteAt raw i).extractLsb' 4 4 ≠ 0x3) ∨
      (30 < c ∧ byteAt raw 30 ≠ 0x0D) ∨ (31 < c ∧ byteAt raw 31 ≠ 0x0A) := by
  simp only [weird, Bool.or_eq_true, Bool.and_eq_true, List.any_eq_true, List.mem_range, decide_eq_true_eq,
    ne_eq, hiNibble_eq_three_iff, or_assoc]

/-- `weird` reads the bytes before the last one only (43_ut_frame.md R165). -/
theorem weird_congr {raw raw' : List Byte} (c : Nat) (h : ∀ i < 32, byteAt raw i = byteAt raw' i) :
    weird raw c = weird raw' c := by
  have hprefix : (∃ i, i < 30 ∧ i < c ∧ (byteAt raw i).extractLsb' 4 4 ≠ 0x3) ↔
      ∃ i, i < 30 ∧ i < c ∧ (byteAt raw' i).extractLsb' 4 4 ≠ 0x3 :=
    exists_congr fun i => and_congr_right fun hi => by rw [h i (by omega)]
  rw [Bool.eq_iff_iff, weird_eq_true_iff, weird_eq_true_iff, hprefix, h 30 (by omega), h 31 (by omega)]

/-- A block of 33 bytes is weird exactly when it breaks the layout of 30_encoding.md R78. -/
theorem weird_full_eq_true_iff (raw : List Byte) : weird raw 33 = true ↔
    ¬ ((∀ i, i < 30 → (byteAt raw i).extractLsb' 4 4 = 0x3) ∧ byteAt raw 30 = 0x0D ∧ byteAt raw 31 = 0x0A) := by
  have hprefix : (∃ i, i < 30 ∧ i < 33 ∧ (byteAt raw i).extractLsb' 4 4 ≠ 0x3) ↔
      ¬ ∀ i, i < 30 → (byteAt raw i).extractLsb' 4 4 = 0x3 := by
    push Not
    exact exists_congr fun i => and_congr_right fun hi => and_iff_right (by omega)
  rw [weird_eq_true_iff, hprefix, not_and_or, not_and_or]
  simp

/-- Settles O35: the list of violations, the bytes it reads, and what it says of a full block. -/
theorem weirdIsTheListedViolations : Obligations.WeirdIsTheListedViolations :=
  ⟨weird_eq_true_iff, fun _ _ c h => weird_congr c fun i hi => h i (by omega), weird_full_eq_true_iff⟩

/-- A block of 33 bytes passes the checks of R165 exactly when it keeps the layout of 30_encoding.md R78. -/
theorem weird_eq_false_iff_wellFormedRaw {l : List Byte} (hl : l.length = 33) :
    weird l 33 = false ↔ WellFormedRaw l := by
  rw [← Bool.not_eq_true, weird_full_eq_true_iff, not_not]
  simp only [WellFormedRaw, hl, true_and, hiNibble_eq_three_iff]

/-- The byte just written, in a list that has the place. -/
theorem byteAt_set_self {l : List Byte} {i : Nat} (b : Byte) (hi : i < l.length) : byteAt (l.set i b) i = b := by
  simp [byteAt, hi]

/-- One wrong prefix nibble makes a full block weird, whatever the other bytes are (43_ut_frame.md R165). -/
theorem weird_set_of_prefix {l : List Byte} {i : Nat} {b : Byte} (hi : i < 30) (hl : i < l.length)
    (hb : b.extractLsb' 4 4 ≠ 0x3) : weird (l.set i b) 33 = true := by
  refine (weird_full_eq_true_iff _).2 fun ⟨hprefix, _, _⟩ => hb ?_
  rw [← byteAt_set_self b hl]
  exact hprefix i hi

namespace Machine

/-- `decraw()` reports a block malformed exactly when it is weird (43_ut_frame.md R164). -/
@[simp] theorem Ut.decraw_malformed (u : Ut) : u.decraw.malformed = weird u.raw.toList u.rawcnt := rfl

/-- Settles O36: `UT.DECRAW` reports what `weird` says of the block, before and after the change. -/
theorem decrawDetectsFlippedPrefix : Obligations.DecrawDetectsFlippedPrefix := by
  intro s hd hc hwf
  refine ⟨⟨_, exec_utDecraw_live s hd, ?good⟩, fun i b hi hb => ⟨_, exec_utDecraw_live _ hd, ?bad⟩⟩
  case good =>
    rw [State.setUt_ut, Ut.decraw_malformed, hc]
    exact (weird_eq_false_iff_wellFormedRaw hwf.1).2 hwf
  case bad =>
    have hl : i < s.ut.raw.toList.length := by rw [Vector.length_toList]; omega
    simp only [State.setUt_ut, Ut.decraw_malformed, hc, Vector.toList_setIfInBounds]
    exact weird_set_of_prefix hi hl hb

end Machine

end Sys2Proof
end

section
/-! The decoder and the encoder (30_encoding.md R70 to R96), and the frames of 40_cl_framer.md R108. -/

namespace Sys2Proof

/-! ### Well-framed byte strings (40_cl_framer.md R108) -/

theorem exists_five {l : List Byte} (h : l.length = 5) : ∃ e t u c m, l = [e, t, u, c, m] := by
  match l, h with
  | [e, t, u, c, m], _ => exact ⟨e, t, u, c, m, rfl⟩

/-- A byte string of at least six bytes is one byte, a middle, and five bytes. -/
theorem exists_frame_parts {f : List Byte} (h : 6 ≤ f.length) :
    ∃ (a : Byte) (body : List Byte) (e t u c l : Byte), f = a :: (body ++ [e, t, u, c, l]) := by
  cases f with
  | nil => simp at h
  | cons a g =>
    have hl : (g.drop (g.length - 5)).length = 5 := by simp at h ⊢; omega
    obtain ⟨e, t, u, c, l, hd⟩ := exists_five hl
    exact ⟨a, g.take (g.length - 5), e, t, u, c, l, by rw [← hd, List.take_append_drop]⟩

/-- The checksum test of R108 on two characters: they are the digits of R101. -/
theorem ckMatches_dig_iff (k : CkKind) (body : List Byte) (t u : Byte) :
    ckMatches k body (dig t) (dig u) = true ↔ [t, u] = ckDigits k body := by
  have hck := k.apply_lt body
  constructor
  · intro h
    unfold ckMatches at h
    split at h
    · next a b ha hb =>
      obtain ⟨rfl, ha⟩ := dig_some t a ha
      obtain ⟨rfl, hb⟩ := dig_some u b hb
      have hsum : 10 * a + b = k.apply body := by simpa using h
      have htens : k.apply body / 10 = a := by omega
      have hunits : k.apply body % 10 = b := by omega
      rw [ckDigits, htens, hunits]
    · simp at h
  · intro h
    simp only [ckDigits, List.cons.injEq, and_true] at h
    rw [h.1, h.2, dig_digit _ (by omega), dig_digit _ (by omega)]
    simp only [ckMatches, decide_eq_true_eq]
    omega

/-- `wellframed` of a string given by its parts (R108). -/
theorem wellframed_parts_iff (k : CkKind) (a : Byte) (body : List Byte) (e t u c l : Byte) :
    wellframed k (a :: (body ++ [e, t, u, c, l])) = true ↔
      a = stx ∧ e = etx ∧ c = cr ∧ l = lf ∧ [t, u] = ckDigits k body := by
  have hn : (a :: (body ++ [e, t, u, c, l])).length = body.length + 6 := by simp
  have hat : ∀ j, byteAt (a :: (body ++ [e, t, u, c, l])) (body.length + (j + 1)) = byteAt [e, t, u, c, l] j := by
    intro j
    simp [byteAt, ← Nat.add_assoc, List.getElem?_append_right]
  have hbody : slice (a :: (body ++ [e, t, u, c, l])) 1 (body.length + 6 - 5) = body := by
    simp [slice]
  have hck := ckMatches_dig_iff k body t u
  rw [wellframed, hn, hbody]
  simp only [show body.length + 6 - 5 = body.length + (0 + 1) by omega,
    show body.length + 6 - 4 = body.length + (1 + 1) by omega,
    show body.length + 6 - 3 = body.length + (2 + 1) by omega,
    show body.length + 6 - 2 = body.length + (3 + 1) by omega,
    show body.length + 6 - 1 = body.length + (4 + 1) by omega, hat, Bool.and_eq_true, decide_eq_true_eq]
  simp [byteAt, ← hck, and_assoc]

/-- A frame is `wellframed` (R103, R108). -/
theorem wellframed_frameOf (k : CkKind) (b : List Byte) : wellframed k (frameOf k b) = true := by
  obtain ⟨t, u, hck⟩ : ∃ t u, ckDigits k b = [t, u] := ⟨_, _, rfl⟩
  have h : frameOf k b = stx :: (b ++ [etx, t, u, cr, lf]) := by simp [frameOf, hck]
  rw [h]
  exact (wellframed_parts_iff k stx b etx t u cr lf).2 ⟨rfl, rfl, rfl, rfl, hck.symm⟩

/-- A `wellframed` string is the frame of its bytes from offset 1 up to `ETX` (R108). -/
theorem wellframed_iff_eq_frameOf (k : CkKind) (f : List Byte) :
    wellframed k f = true ↔ f = frameOf k (slice f 1 (f.length - 5)) := by
  refine ⟨fun h => ?_, fun h => h ▸ wellframed_frameOf k _⟩
  have hlen : 6 ≤ f.length := by
    simp only [wellframed, Bool.and_eq_true, decide_eq_true_eq] at h
    omega
  obtain ⟨a, body, e, t, u, c, l, rfl⟩ := exists_frame_parts hlen
  obtain ⟨rfl, rfl, rfl, rfl, hck⟩ := (wellframed_parts_iff k a body e t u c l).1 h
  have hbody : slice (stx :: (body ++ [etx, t, u, cr, lf])) 1
      ((stx :: (body ++ [etx, t, u, cr, lf])).length - 5) = body := by simp [slice]
  rw [hbody, frameOf, ← hck]
  simp

/-- Settles O10: the body of a frame is what stands between its delimiters. -/
theorem wellframedIsBeingAFrame : Obligations.WellframedIsBeingAFrame := by
  intro k f
  refine ⟨⟨fun h => ⟨_, (wellframed_iff_eq_frameOf k f).1 h⟩, ?_⟩, wellframed_iff_eq_frameOf k f, fun hl => ?_⟩
  · rintro ⟨body, rfl⟩
    exact wellframed_frameOf k body
  · rw [wellframed_iff_eq_frameOf, hl]

/-! ### The codes of the arguments (30_encoding.md R95) -/

theorem cmdOfCode_eq_some_iff (n : Nat) (c : CmdId) : cmdOfCode n = some c ↔ n = c.code := by
  constructor
  · intro h
    unfold cmdOfCode at h
    split at h <;> simp_all [CmdId.code]
    all_goals subst h; rfl
  · rintro rfl
    cases c <;> rfl

theorem settleOfCode_eq_some_iff (n : Nat) (k : SettleClass) : settleOfCode n = some k ↔ n = k.code := by
  constructor
  · intro h
    unfold settleOfCode at h
    split at h <;> simp_all [SettleClass.code]
    all_goals subst h; rfl
  · rintro rfl
    cases k <;> rfl

theorem bufOfCode_eq_some_iff (n : Nat) (b : BufSel) : bufOfCode n = some b ↔ n = b.code := by
  constructor
  · intro h
    unfold bufOfCode at h
    split at h <;> simp_all [BufSel.code]
    all_goals subst h; rfl
  · rintro rfl
    cases b <;> rfl

theorem readOfCode_eq_some_iff (n : Nat) (c : CmdId) :
    readOfCode n = some c ↔ n = c.code ∧ c.isRead = true := by
  simp [readOfCode, Option.filter_eq_some_iff, cmdOfCode_eq_some_iff]

/-- Every code of an argument fits its byte (R95). -/
theorem CmdId.code_toNat (c : CmdId) : (BitVec.ofNat 8 c.code).toNat = c.code := by cases c <;> rfl

theorem SettleClass.code_toNat (k : SettleClass) : (BitVec.ofNat 8 k.code).toNat = k.code := by cases k <;> rfl

theorem BufSel.code_toNat (b : BufSel) : (BitVec.ofNat 8 b.code).toNat = b.code := by cases b <;> rfl

theorem eq_code_iff {a : Byte} {n : Nat} (hn : (BitVec.ofNat 8 n).toNat = n) : a.toNat = n ↔ BitVec.ofNat 8 n = a := by
  rw [← BitVec.toNat_inj, hn, eq_comm]

/-! ### The host word (30_encoding.md R94) -/

theorem noArg_eq_ok_iff (i j : Instr) (a : Byte) : noArg i a = .ok j ↔ a = 0 ∧ j = i := by
  unfold noArg
  split
  · next ha => simp [ha, eq_comm]
  · next ha => exact ⟨fun h => by simp at h, fun h => absurd h.1 ha⟩

theorem withArg_eq_ok_iff (o : Option Instr) (j : Instr) : withArg o = .ok j ↔ o = some j := by
  cases o <;> simp [withArg]

/-- The decoder of host words: what decodes is a legal operation whose opcode and argument the word holds
(R94, R95). -/
theorem decodeHost_eq_ok_iff (w : HostWord) (i : Instr) : decodeHost w = .ok i ↔
    i.operandsWf = true ∧ i.opcode = some (opcodeOf w) ∧ i.argument = argOf w := by
  have hcmd := fun c : CmdId => eq_code_iff (a := argOf w) c.code_toNat
  have hset := fun k : SettleClass => eq_code_iff (a := argOf w) k.code_toNat
  have hbuf := fun b : BufSel => eq_code_iff (a := argOf w) b.code_toNat
  constructor
  · intro h
    unfold decodeHost at h
    dsimp only at h
    split at h
    all_goals
      simp only [noArg_eq_ok_iff, withArg_eq_ok_iff, Option.map_eq_some_iff, cmdOfCode_eq_some_iff,
        settleOfCode_eq_some_iff, bufOfCode_eq_some_iff, readOfCode_eq_some_iff, reduceCtorEq, Except.ok.injEq, hcmd,
            hset,
        hbuf] at h
    all_goals
      try obtain ⟨c, hc, rfl⟩ := h
      simp_all [Instr.operandsWf, Instr.opcode, Instr.argument]
  · rintro ⟨hwf, ho, ha⟩
    unfold decodeHost
    cases i
    all_goals
      simp only [Instr.opcode, Option.some.injEq, reduceCtorEq] at ho
    all_goals
      simp only [← ho, noArg_eq_ok_iff, withArg_eq_ok_iff, Option.map_eq_some_iff, cmdOfCode_eq_some_iff,
        settleOfCode_eq_some_iff, bufOfCode_eq_some_iff, readOfCode_eq_some_iff, hcmd, hset, hbuf]
      simp_all [Instr.operandsWf, Instr.argument]

/-- A word is its opcode and its argument. -/
theorem hostWordOf_opcodeOf_argOf (w : HostWord) : hostWordOf (opcodeOf w) (argOf w) = w := by
  rw [hostWordOf, opcodeOf, argOf, BitVec.ofNat_toNat, BitVec.setWidth_eq]
  exact BitVec.extractLsb'_append_extractLsb'_eq_extractLsb' (by omega) |>.trans (by simp)

/-- The opcodes of R94 fill one byte. -/
theorem Instr.opcode_lt {i : Instr} {o : Nat} (h : i.opcode = some o) : o < 256 := by
  cases i
  all_goals
    simp only [Instr.opcode, Option.some.injEq, reduceCtorEq] at h
  all_goals omega

/-- A legal operation decodes from its word (R94, R95). -/
theorem decodeHost_hostWordOf {i : Instr} {o : Nat} (hwf : i.operandsWf = true) (ho : i.opcode = some o) :
    decodeHost (hostWordOf o i.argument) = .ok i := by
  obtain ⟨hop, harg⟩ := Laws.Encoding.word o i.argument (Instr.opcode_lt ho)
  exact (decodeHost_eq_ok_iff _ _).2 ⟨hwf, by rw [hop, ho], harg.symm⟩

/-! ### The wire frame (30_encoding.md R71, R80) -/

@[simp] theorem CmdId.instr_wireCmd (c : CmdId) : c.instr.wireCmd = some c := by cases c <;> rfl
@[simp] theorem CmdId.instr_opcode (c : CmdId) : c.instr.opcode = none := by cases c <;> rfl
@[simp] theorem CmdId.instr_operandsWf (c : CmdId) : c.instr.operandsWf = true := by cases c <;> rfl
@[simp] theorem CmdId.instr_channel (c : CmdId) : c.instr.channel = none := by simp [Instr.channel]
theorem CmdId.mem_all (c : CmdId) : c ∈ CmdId.all := by cases c <;> decide

/-- An instruction is a host operation or the wire command of a command id. -/
theorem Instr.host_or_wire (i : Instr) : (∃ o, i.opcode = some o) ∨ ∃ c : CmdId, i = c.instr := by
  cases i
  case command01 => exact .inr ⟨.c01, rfl⟩
  case command02 => exact .inr ⟨.c02, rfl⟩
  case command08 => exact .inr ⟨.c08, rfl⟩
  case command40 => exact .inr ⟨.c40, rfl⟩
  case command40r => exact .inr ⟨.c40r, rfl⟩
  case command54 => exact .inr ⟨.c54, rfl⟩
  case command54r => exact .inr ⟨.c54r, rfl⟩
  case command55 => exact .inr ⟨.c55, rfl⟩
  all_goals exact .inl ⟨_, rfl⟩

/-- A host operation is no wire command. -/
theorem Instr.wireCmd_of_opcode {i : Instr} {o : Nat} (h : i.opcode = some o) : i.wireCmd = none := by
  cases i
  all_goals
    simp only [Instr.opcode, reduceCtorEq] at h
  all_goals rfl

theorem encode_host {i : Instr} {o : Nat} (k : CkKind) (t : CmdTable) (ho : i.opcode = some o) :
    encode k t i = .host (hostWordOf o i.argument) := by simp [encode, ho]

theorem encode_wire (k : CkKind) (t : CmdTable) (c : CmdId) :
    encode k t c.instr = .wire (frameOf k (t.get c).body) := by simp [encode]

/-- The command read from a frame has a well-formed template, and that frame (R71, R80). -/
theorem cmdOfFrame_spec {k : CkKind} {t : CmdTable} {bs : List Byte} {c : CmdId} (h : cmdOfFrame k t bs = some c) :
    Template.wf (t.get c) = true ∧ frameOf k (t.get c).body = bs := by
  simpa using List.find?_some h

/-- A well-formed command is read from its own frame, or another with the same body is (log 12). -/
theorem cmdOfFrame_frameOf (k : CkKind) (t : CmdTable) (c : CmdId) (hw : Template.wf (t.get c) = true) :
    ∃ c', cmdOfFrame k t (frameOf k (t.get c).body) = some c' ∧ Template.wf (t.get c') = true ∧
      (t.get c').body = (t.get c).body := by
  cases h : cmdOfFrame k t (frameOf k (t.get c).body) with
  | none => exact absurd (List.find?_eq_none.1 h c c.mem_all) (by simp [hw])
  | some c' =>
    obtain ⟨hw', hf⟩ := cmdOfFrame_spec h
    exact ⟨c', rfl, hw', frameOf_inj k (by rw [Template.body_length _ hw', Template.body_length _ hw]) hf⟩

/-- Settles O1: a host word by its opcode and argument, a frame by the first command with its body. -/
theorem decodeInvertsEncode : Obligations.DecodeInvertsEncode := by
  intro k t i hwf hfirst
  simp only [Instr.wf, Bool.and_eq_true] at hwf
  obtain ⟨hops, htemplate⟩ := hwf
  rcases i.host_or_wire with ⟨o, ho⟩ | ⟨c, rfl⟩
  · rw [encode_host k t ho]
    exact decodeHost_hostWordOf hops ho
  · have hw : Template.wf (t.get c) = true := by simpa [Instr.templateWf] using htemplate
    obtain ⟨c', hc', hw', hbody⟩ := cmdOfFrame_frameOf k t c hw
    have hframe : (frameOf k (t.get c).body).length = 14 ∧ wellframed k (frameOf k (t.get c).body) = true :=
      ⟨by rw [frameOf_length, Template.body_length _ hw], wellframed_frameOf k _⟩
    obtain rfl : c' = c := hfirst c c' rfl hw' hbody
    rw [encode_wire]
    simp only [decode, decodeWire, if_pos hframe, hc']

/-- What the wire decoder reads is the command of a well-formed template with that frame. -/
theorem decodeWire_eq_ok {k : CkKind} {t : CmdTable} {bs : List Byte} {i : Instr} (h : decodeWire k t bs = .ok i) :
    ∃ c : CmdId, i = c.instr ∧ Template.wf (t.get c) = true ∧ frameOf k (t.get c).body = bs := by
  unfold decodeWire at h
  split at h
  · split at h
    · next c hc =>
      obtain rfl : c.instr = i := by simpa using h
      exact ⟨c, rfl, cmdOfFrame_spec hc⟩
    · simp at h
  · simp at h

/-- Settles O2: what was decoded carries the opcode and argument of the word, or the frame of its template. -/
theorem decodedIsItsEncoding : Obligations.DecodedIsItsEncoding := by
  intro k t f i h
  cases f with
  | host w =>
    obtain ⟨hwf, ho, ha⟩ := (decodeHost_eq_ok_iff w i).1 h
    refine ⟨?_, by rw [encode_host k t ho, ha, hostWordOf_opcodeOf_argOf]⟩
    simp [Instr.wf, hwf, Instr.templateWf, Instr.wireCmd_of_opcode ho]
  | wire bs =>
    obtain ⟨c, rfl, hw, hf⟩ := decodeWire_eq_ok h
    exact ⟨by simp [Instr.wf, Instr.templateWf, hw], by rw [encode_wire, hf]⟩

/-- Settles O3: each word by the encoder's inverse, the frame by evaluation under the reference table. -/
theorem sampleWordsDecode : Obligations.SampleWordsDecode := by
  refine ⟨?_, ?_, ?_, ?_, ?_, ?_, ?_, by decide +kernel⟩
  all_goals exact (decodeHost_eq_ok_iff _ _).2 ⟨rfl, rfl, rfl⟩

namespace Machine

/-- A host word that encodes no legal operation does not decode (R96). -/
theorem decodeHost_illegal {w : HostWord}
    (h : ∀ (i : Instr) (o : Nat), i.operandsWf = true → i.opcode = some o → hostWordOf o i.argument ≠ w) :
    ∃ e, decodeHost w = .error e := by
  cases hd : decodeHost w with
  | error e => exact ⟨e, rfl⟩
  | ok i =>
    obtain ⟨hwf, ho, ha⟩ := (decodeHost_eq_ok_iff w i).1 hd
    exact absurd (by rw [ha, hostWordOf_opcodeOf_argOf]) (h i _ hwf ho)

/-- The high nibble of the opcode is that of the word (R96). -/
theorem opcodeOf_div (w : HostWord) : opcodeOf w / 16 = w.toNat / 4096 := by
  have hw : w.toNat < 65536 := w.isLt
  rw [opcodeOf, BitVec.extractLsb'_toNat, Nat.shiftRight_eq_div_pow]
  omega

/-- Settles O4: an illegal word does not decode, and its refusal reads the high nibble. -/
theorem illegalHostWordRefused : Obligations.IllegalHostWordRefused := by
  intro s w rest hagenda hillegal
  obtain ⟨e, he⟩ := decodeHost_illegal hillegal
  have hstep : step s = .next ((s.setAgenda rest).refuseIllegal (channelOf w)) := by
    simp only [step, hagenda, State.act, State.issue, he]
  rw [hstep, channelOf, opcodeOf_div]
  congr 1
  split
  all_goals simp_all [State.refuseIllegal]

/-- A step takes the head of the agenda. -/
theorem step_cons {s : State} {a : Action} {rest : List Action} (h : s.agenda = a :: rest) :
    step s = (s.setAgenda rest).act a := by simp only [step, h]

/-- Settles O5: the step's action, whose operation begins where its channel is not busy. -/
theorem stepRunsTheDecodedInstruction : Obligations.StepRunsTheDecodedInstruction := by
  refine ⟨fun s w rest i hagenda hd => ?_, fun s rest i hagenda hd => ?_, fun s hagenda => by simp only [step, hagenda]⟩
  · have hbusy : ∀ ch, (s.setAgenda rest).busyOn ch = s.busyOn ch := fun ch => by cases ch <;> rfl
    have hstep : step s = (s.setAgenda rest).start i := by
      rw [step_cons hagenda]
      simp only [State.act, State.issue, show decodeHost w = .ok i from hd]
    rw [hstep, State.start]
    cases i.channel with
    | none => exact ⟨fun _ => rfl, fun ch hch => by simp at hch⟩
    | some ch =>
      refine ⟨fun hfree => ?_, fun ch' hch hb => ?_⟩
      · simp [hbusy, hfree ch rfl]
      · obtain rfl : ch = ch' := by simpa using hch
        simp [hbusy, hb]
  · rw [step_cons hagenda]
    have hdec : decodeWire (s.setAgenda rest).straps.ck (s.setAgenda rest).straps.cmdTable
        (s.setAgenda rest).headFrame = .ok i := hd
    simp only [State.act, State.takeHeadFrame, hdec]

end Machine

end Sys2Proof
end

section
/-! Which whole operation an instruction is, with its own preconditions; refusals, dead channels and the separation of
the channels (60_exceptions.md R211, R220, R222). -/

namespace Sys2Proof.Machine

open Host

/-! ### What each operation is -/

theorem exec_clUnframe_eq (s : State) (c : CmdId) : exec (.clUnframe c) s =
    s.clPure [(decide (s.cl.txlen ≠ 0), .noFrame), (templateOk s.straps c, .badTemplate)] fun d =>
      (d.unframe (s.straps.cmdTable.get c)).setStatus .ok := rfl

theorem exec_clCkval_eq (s : State) (b : BufSel) : exec (.clCkval b) s = s.clPure [s.cl.selectedPre b] fun c =>
    (c.setRes { c.res with ckok := wellframed s.straps.ck (c.selected b) }).setStatus .ok := rfl

theorem exec_clFlush_eq (s : State) : exec .clFlush s =
    s.clOp [] (Cl.raise false) fun c => c.flush.bind fun c => .done (c.setStatus .ok) := rfl

theorem exec_clSend_eq (s : State) (k : SettleClass) : exec (.clSend k) s =
    s.clOp [(decide (s.cl.txlen ≠ 0), .noFrame)] (Cl.raise false) fun c =>
      (c.transmit k).bind fun c => .done (c.setStatus .ok) := rfl

theorem exec_clRxline_eq (s : State) : exec .clRxline s =
    s.clOp [] (Cl.raise false) fun c => (c.rxlineOp s.straps).bind fun c => .done c.rxStatus := rfl

theorem exec_clPval_eq (s : State) : exec .clPval s = s.clOp [s.cl.linePre] (Cl.raise false) fun c =>
    (c.pval s.straps.roundTie).bind fun c => .done (c.setStatus .ok) := rfl

theorem exec_clPsec_eq (s : State) : exec .clPsec s = s.clOp [s.cl.linePre] (Cl.raise false) fun c =>
    c.psec.bind fun c => .done (c.setStatus .ok) := rfl

theorem exec_clCct_eq (s : State) : exec .clCct s = s.clOp [(s.cl.res.xyzv, .noXyz)] (Cl.raise false) fun c =>
    c.computeCct.bind fun c => .done (c.setStatus .ok) := rfl

theorem exec_clInit_eq (s : State) : exec .clInit s = s.clOp
    [(decide (s.cl.hs = .disconnected), .badState),
      (templateOk s.straps .c54 && templateOk s.straps .c55 && templateOk s.straps .c40, .badTemplate)]
    (Cl.raise true) fun c => c.handshake s.straps := rfl

theorem exec_clMeas_eq (s : State) {c : CmdId} (hc : c.isRead = true) : exec (.clMeas c) s = s.clOp
    [(decide (s.cl.hs = .ready), .notReady), (templateOk s.straps .c40r && templateOk s.straps c, .badTemplate)]
    Cl.measRaise fun d => d.measure s.straps c := if_pos hc

theorem exec_utListen_eq (s : State) : exec .utListen s = s.utOp [] fun u => u.listen s.straps := rfl

theorem exec_utRead33_eq (s : State) : exec .utRead33 s = s.utOp [] Ut.read33 := rfl

theorem exec_utSync_eq (s : State) : exec .utSync s = s.utOp [] fun u => u.sync s.straps := rfl

theorem exec_utSummary_eq (s : State) : exec .utSummary s =
    s.utPure [(s.ut.pvalid, .noPayload), (LcdTable.wf s.straps.lcdTable, .badTable)] fun u =>
      u.summarized s.straps := rfl

theorem exec_utLux_eq (s : State) : exec .utLux s = s.utOp [(s.ut.svalid, .noSummary)] Ut.lux := rfl

theorem exec_utMon_eq (s : State) : exec .utMon s =
    s.utOp [(LcdTable.wf s.straps.lcdTable, .badTable)] fun u => u.mon s.straps := rfl

theorem exec_utAvg_eq (s : State) : exec .utAvg s =
    s.utOp [(decide (s.ut.dur ≠ 0), .noWindow), (LcdTable.wf s.straps.lcdTable, .badTable)] fun u =>
      u.average s.straps := rfl

theorem exec_utStart_eq (s : State) (d : BitVec 8) : exec (.utStart d) s = s.utPure [] fun u => u.started d := rfl

/-! ### Preconditions in order (60_exceptions.md R211) -/

@[simp] theorem firstFailing_nil : firstFailing [] = none := rfl

@[simp] theorem firstFailing_cons (b : Bool) (x : Code) (rest : List (Bool × Code)) :
    firstFailing ((b, x) :: rest) = if b then firstFailing rest else some x := rfl

/-- An operation without primitives is one whose body is done at once. -/
theorem State.clPure_eq_clOp (s : State) (pre : List (Bool × Code)) (body : Cl → Cl) :
    s.clPure pre body = s.clOp pre (fun _ c => c) fun c => .done (body c) := by
  unfold State.clPure State.clOp
  split
  · rfl
  · split <;> rfl

theorem State.utPure_eq_utOp (s : State) (pre : List (Bool × Code)) (body : Ut → Ut) :
    s.utPure pre body = s.utOp pre fun u => .done (body u) := by
  unfold State.utPure State.utOp
  split
  · rfl
  · split <;> rfl

/-- Every `CL` operation but the status query is a whole operation whose first failing precondition is the refusal
of R211. -/
theorem exec_clOp (s : State) (i : Instr) (hi : i.channel = some .cl) (hq : i ≠ .clStatus)
    (hwf : i.operandsWf = true) :
    ∃ pre onRaise body, exec i s = s.clOp pre onRaise body ∧ firstFailing pre = s.ownRefusal i := by
  cases i
  all_goals
    simp only [exec, execClRender, execClUnframe, execClCkval, execClFlush, execClSend, execClRxline, execClCheck,
      execClPval, execClPsec, execClCct, execClInit, execClMeas, execClStatus, execCommand01, execCommand02,
      execCommand08, execCommand40, execCommand40r, execCommand54, execCommand54r, execCommand55]
  case clRender c =>
    exact ⟨_, _, _, State.clPure_eq_clOp s _ _, by simp [State.ownRefusal, templateOk]⟩
  case clUnframe c =>
    exact ⟨_, _, _, State.clPure_eq_clOp s _ _, by simp [State.ownRefusal, templateOk]⟩
  case clCkval b =>
    exact ⟨_, _, _, State.clPure_eq_clOp s _ _, by cases b <;> simp [State.ownRefusal, Cl.selectedPre]⟩
  case clFlush => exact ⟨_, _, _, rfl, rfl⟩
  case clSend k => exact ⟨_, _, _, rfl, by simp [State.ownRefusal]⟩
  case clRxline => exact ⟨_, _, _, rfl, rfl⟩
  case clCheck => exact ⟨_, _, _, rfl, by simp [State.ownRefusal, Cl.linePre]⟩
  case clPval => exact ⟨_, _, _, rfl, by simp [State.ownRefusal, Cl.linePre]⟩
  case clPsec => exact ⟨_, _, _, rfl, by simp [State.ownRefusal, Cl.linePre]⟩
  case clCct => exact ⟨_, _, _, rfl, by simp [State.ownRefusal]⟩
  case clInit => exact ⟨_, _, _, rfl, by simp [State.ownRefusal, templateOk, and_assoc]⟩
  case clMeas c =>
    exact ⟨_, _, _, if_pos hwf, by simp [State.ownRefusal, templateOk]⟩
  case clStatus => exact absurd rfl hq
  all_goals exact absurd hi (by simp [Instr.channel, Instr.opcode])

/-- The same of every `UT` operation but the status query. -/
theorem exec_utOp (s : State) (i : Instr) (hi : i.channel = some .ut) (hq : i ≠ .utStatus) :
    ∃ pre body, exec i s = s.utOp pre body ∧ firstFailing pre = s.ownRefusal i := by
  cases i
  all_goals
    simp only [exec, execUtListen, execUtRead33, execUtDecraw, execUtSync, execUtSummary, execUtLux, execUtMon,
      execUtAvg, execUtStatus, execUtStart]
  case utListen => exact ⟨_, _, rfl, rfl⟩
  case utRead33 => exact ⟨_, _, rfl, rfl⟩
  case utDecraw => exact ⟨_, _, State.utPure_eq_utOp s _ _, rfl⟩
  case utSync => exact ⟨_, _, rfl, rfl⟩
  case utSummary => exact ⟨_, _, State.utPure_eq_utOp s _ _, by cases h : s.ut.pvalid <;> simp [State.ownRefusal, h]⟩
  case utLux => exact ⟨_, _, rfl, by simp [State.ownRefusal]⟩
  case utMon => exact ⟨_, _, rfl, by simp [State.ownRefusal]⟩
  case utAvg => exact ⟨_, _, rfl, by simp [State.ownRefusal]⟩
  case utStart d => exact ⟨_, _, State.utPure_eq_utOp s _ _, rfl⟩
  case utStatus => exact absurd rfl hq
  all_goals exact absurd hi (by simp [Instr.channel, Instr.opcode])

/-! ### Refusals (60_exceptions.md R211, R222) -/

theorem State.clOp_refused {s : State} {pre : List (Bool × Code)} {onRaise : Code → Cl → Cl} {body : Cl → Res Cl}
    {x : Code} (hd : s.cl.hs ≠ .faulted) (hp : firstFailing pre = some x) :
    s.clOp pre onRaise body = .next (s.setCl (s.cl.setStatus x)) := by
  simp [State.clOp, hd, hp]

theorem State.utOp_refused {s : State} {pre : List (Bool × Code)} {body : Ut → Res Ut} {x : Code}
    (hd : s.ut.dead = false) (hp : firstFailing pre = some x) :
    s.utOp pre body = .next (s.setUt (s.ut.setStatus x)) := by
  simp [State.utOp, hd, hp]

theorem State.clOp_dead {s : State} {pre : List (Bool × Code)} {onRaise : Code → Cl → Cl} {body : Cl → Res Cl}
    (hd : s.cl.hs = .faulted) :
    s.clOp pre onRaise body = .next (s.setCl (s.cl.refuseDead s.straps.faultStyle)) := by
  simp [State.clOp, hd]

theorem State.utOp_dead {s : State} {pre : List (Bool × Code)} {body : Ut → Res Ut} (hd : s.ut.dead = true) :
    s.utOp pre body = .next (s.setUt (s.ut.setStatus .dead)) := by
  simp [State.utOp, hd]

/-- Settles O53: the first failing precondition of the operation is its refusal; a status query has none. -/
theorem refusalsInOrder : Obligations.RefusalsInOrder := by
  intro s i x hwf hx
  refine ⟨fun hi hd => ?_, fun hi hd => ?_⟩
  · have hq : i ≠ .clStatus := by rintro rfl; simp [State.ownRefusal] at hx
    obtain ⟨pre, onRaise, body, he, hpre⟩ := exec_clOp s i hi hq hwf
    rw [he]
    exact State.clOp_refused hd (hpre.trans hx)
  · have hq : i ≠ .utStatus := by rintro rfl; simp [State.ownRefusal] at hx
    obtain ⟨pre, body, he, hpre⟩ := exec_utOp s i hi hq
    rw [he]
    exact State.utOp_refused hd (hpre.trans hx)

/-- Settles O54: a dead channel's entry check comes before every precondition. -/
theorem deadChannelRefuses : Obligations.DeadChannelRefuses := by
  intro s i hwf
  refine ⟨fun hi hq hd => ?_, fun hi hq hd => ?_⟩
  · obtain ⟨pre, onRaise, body, he, _⟩ := exec_clOp s i hi hq hwf
    rw [he, State.clOp_dead hd]
    exact ⟨fun hf => by rw [hf]; rfl, fun hf => by rw [hf]; rfl⟩
  · obtain ⟨pre, body, he, _⟩ := exec_utOp s i hi hq
    rw [he, State.utOp_dead hd]
    rfl

/-! ### The two channels (00_scope.md R3, 60_exceptions.md R220) -/

/-- Two states with the same parameters and the same `CL`. -/
abbrev State.SameCl (s s' : State) : Prop := s'.straps = s.straps ∧ s'.cl = s.cl

/-- Two states with the same parameters and the same `UT`. -/
abbrev State.SameUt (s s' : State) : Prop := s'.straps = s.straps ∧ s'.ut = s.ut

/-- Two runs that end alike on `CL`, and touch nothing else; or are both refused. -/
abbrev State.AlikeOnCl (s s' : State) (o o' : Outcome State Fault Refusal) : Prop :=
  (∃ c, o = .next (s.setCl c) ∧ o' = .next (s'.setCl c)) ∨ ∃ r, o = .refused r ∧ o' = .refused r

/-- Two runs that end alike on `UT`, and touch nothing else. -/
abbrev State.AlikeOnUt (s s' : State) (o o' : Outcome State Fault Refusal) : Prop :=
  ∃ u, o = .next (s.setUt u) ∧ o' = .next (s'.setUt u)

theorem State.clOp_alike {s s' : State} (h : s.SameCl s') (pre : List (Bool × Code)) (onRaise : Code → Cl → Cl)
    (body : Cl → Res Cl) : s.AlikeOnCl s' (s.clOp pre onRaise body) (s'.clOp pre onRaise body) := by
  obtain ⟨hp, hc⟩ := h
  unfold State.clOp State.endCl
  rw [hp, hc]
  split
  · exact .inl ⟨_, rfl, rfl⟩
  · split
    · exact .inl ⟨_, rfl, rfl⟩
    · split <;> exact .inl ⟨_, rfl, rfl⟩

theorem State.utOp_alike {s s' : State} (h : s.SameUt s') (pre : List (Bool × Code)) (body : Ut → Res Ut) :
    s.AlikeOnUt s' (s.utOp pre body) (s'.utOp pre body) := by
  obtain ⟨hp, hu⟩ := h
  unfold State.utOp State.endUt
  rw [hu]
  split
  · exact ⟨_, rfl, rfl⟩
  · split
    · exact ⟨_, rfl, rfl⟩
    · split <;> exact ⟨_, rfl, rfl⟩

theorem State.clPure_alike {s s' : State} (h : s.SameCl s') (pre : List (Bool × Code)) (body : Cl → Cl) :
    s.AlikeOnCl s' (s.clPure pre body) (s'.clPure pre body) := by
  rw [State.clPure_eq_clOp, State.clPure_eq_clOp]
  exact State.clOp_alike h _ _ _

theorem State.utPure_alike {s s' : State} (h : s.SameUt s') (pre : List (Bool × Code)) (body : Ut → Ut) :
    s.AlikeOnUt s' (s.utPure pre body) (s'.utPure pre body) := by
  rw [State.utPure_eq_utOp, State.utPure_eq_utOp]
  exact State.utOp_alike h _ _

theorem State.carry_alike {s s' : State} (h : s.SameCl s') (c : CmdId) :
    s.AlikeOnCl s' (s.carry c) (s'.carry c) := by
  obtain ⟨hp, hc⟩ := h
  unfold State.carry State.frameQueued
  rw [hp, hc]
  split
  · exact .inl ⟨_, rfl, rfl⟩
  · exact .inr ⟨_, rfl, rfl⟩

/-- What an operation of `CL`, or a wire command, does depends on the parameters and on `CL` only. -/
theorem exec_alike_cl {s s' : State} (h : s.SameCl s') (i : Instr) (hi : i.channel ≠ some .ut) :
    s.AlikeOnCl s' (exec i s) (exec i s') := by
  obtain ⟨p, c, u, a⟩ := s
  obtain ⟨p', c', u', a'⟩ := s'
  obtain ⟨rfl, rfl⟩ : p' = p ∧ c' = c := h
  have hs : State.SameCl ⟨p', c', u, a⟩ ⟨p', c', u', a'⟩ := ⟨rfl, rfl⟩
  cases i
  all_goals
    simp only [exec, execClRender, execClUnframe, execClCkval, execClFlush, execClSend, execClRxline, execClCheck,
      execClPval, execClPsec, execClCct, execClInit, execClMeas, execClStatus, execCommand01, execCommand02,
      execCommand08, execCommand40, execCommand40r, execCommand54, execCommand54r, execCommand55]
  case clRender k => exact State.clPure_alike hs _ _
  case clUnframe k => exact State.clPure_alike hs _ _
  case clCkval b => exact State.clPure_alike hs _ _
  case clStatus => exact .inl ⟨_, rfl, rfl⟩
  case clMeas k =>
    cases hk : k.isRead with
    | true =>
      rw [if_pos rfl, if_pos rfl]
      exact State.clOp_alike hs _ _ _
    | false =>
      exact .inl ⟨_, rfl, rfl⟩
  case clFlush => exact State.clOp_alike hs _ _ _
  case clSend k => exact State.clOp_alike hs _ _ _
  case clRxline => exact State.clOp_alike hs _ _ _
  case clCheck => exact State.clOp_alike hs _ _ _
  case clPval => exact State.clOp_alike hs _ _ _
  case clPsec => exact State.clOp_alike hs _ _ _
  case clCct => exact State.clOp_alike hs _ _ _
  case clInit => exact State.clOp_alike hs _ _ _
  case command01 => exact State.carry_alike hs _
  case command02 => exact State.carry_alike hs _
  case command08 => exact State.carry_alike hs _
  case command40 => exact State.carry_alike hs _
  case command40r => exact State.carry_alike hs _
  case command54 => exact State.carry_alike hs _
  case command54r => exact State.carry_alike hs _
  case command55 => exact State.carry_alike hs _
  all_goals exact absurd rfl hi

/-- What an operation of `UT` does depends on the parameters and on `UT` only. -/
theorem exec_alike_ut {s s' : State} (h : s.SameUt s') (i : Instr) (hi : i.channel = some .ut) :
    s.AlikeOnUt s' (exec i s) (exec i s') := by
  obtain ⟨p, c, u, a⟩ := s
  obtain ⟨p', c', u', a'⟩ := s'
  obtain ⟨rfl, rfl⟩ : p' = p ∧ u' = u := h
  have hs : State.SameUt ⟨p', c, u', a⟩ ⟨p', c', u', a'⟩ := ⟨rfl, rfl⟩
  cases i
  all_goals
    simp only [exec, execUtListen, execUtRead33, execUtDecraw, execUtSync, execUtSummary, execUtLux, execUtMon,
      execUtAvg, execUtStatus, execUtStart]
  case utListen => exact State.utOp_alike hs _ _
  case utRead33 => exact State.utOp_alike hs _ _
  case utDecraw => exact State.utPure_alike hs _ _
  case utSync => exact State.utOp_alike hs _ _
  case utSummary => exact State.utPure_alike hs _ _
  case utLux => exact State.utOp_alike hs _ _
  case utMon => exact State.utOp_alike hs _ _
  case utAvg => exact State.utOp_alike hs _ _
  case utStatus => exact ⟨_, rfl, rfl⟩
  case utStart d => exact State.utPure_alike hs _ _
  all_goals exact absurd hi (by simp [Instr.channel, Instr.opcode])

/-- Settles O55: the run on a state that shares the operation's channel ends alike there, the run on the state itself
shows what it leaves alone. -/
theorem channelsAreIndependent : Obligations.ChannelsAreIndependent := by
  intro s s' t i hp h
  by_cases hi : i.channel = some .ut
  · obtain ⟨u, hu, _⟩ := exec_alike_ut (s := s) (s' := s) ⟨rfl, rfl⟩ i hi
    obtain rfl : s.setUt u = t := by simpa using hu.symm.trans h
    refine ⟨rfl, rfl, fun hn => absurd hi hn, fun _ => ⟨rfl, fun hs => ?_⟩⟩
    obtain ⟨v, hv, hv'⟩ := exec_alike_ut (s := s) (s' := s') ⟨hp.symm, hs.symm⟩ i hi
    obtain rfl : v = u := congrArg State.ut (by simpa using hv.symm.trans hu)
    exact hv'
  · rcases exec_alike_cl (s := s) (s' := s) ⟨rfl, rfl⟩ i hi with ⟨c, hc, _⟩ | ⟨r, hr, _⟩
    · obtain rfl : s.setCl c = t := by simpa using hc.symm.trans h
      refine ⟨rfl, rfl, fun _ => ⟨rfl, fun hs => ?_⟩, fun hu => absurd hu hi⟩
      rcases exec_alike_cl (s := s) (s' := s') ⟨hp.symm, hs.symm⟩ i hi with ⟨d, hd, hd'⟩ | ⟨r, hr, _⟩
      · obtain rfl : d = c := congrArg State.cl (by simpa using hd.symm.trans hc)
        exact hd'
      · exact absurd (hr.symm.trans hc) (by simp)
    · exact absurd (hr.symm.trans h) (by simp)

end Sys2Proof.Machine
end

section
/-! What every instruction does to the handshake state, and the ranges every step keeps (42_cl_sequencer.md R153,
60_exceptions.md R208, 10_state.md R21 to R45). -/

namespace Sys2Proof.Machine

open Host

/-! ### The handshake state (42_cl_sequencer.md R153) -/

/-- What an operation other than a handshake that goes on can do to the handshake state: nothing, or a fatal fault. -/
def Cl.HandshakeStep (inInit : Bool) (c d : Cl) : Prop :=
  d.hs = c.hs ∧ d.fault = c.fault ∨
    c.hs ≠ .faulted ∧ d.hs = .faulted ∧ d.fault = d.status ∧ d.status.fatal inInit = true

theorem Cl.Keeps.handshakeStep {p : Straps} {c d : Cl} (b : Bool) (h : c.Keeps p d) : c.HandshakeStep b d := by
  obtain ⟨hhs, hfault, _⟩ := h
  exact .inl ⟨hhs, hfault⟩

@[simp] theorem Cl.raise_status (b : Bool) (x : Code) (c : Cl) : (c.raise b x).status = x := by rw [Cl.raise_frame]

/-- Fault entry is such a step (60_exceptions.md R208). -/
theorem Cl.raise_handshakeStep (b : Bool) (x : Code) (c : Cl) : c.HandshakeStep b (c.raise b x) := by
  by_cases hx : x.fatal b = true
  · by_cases hc : c.hs = .faulted
    · left
      simp [Cl.raise, hx, Cl.becomeFaulted, Cl.loseResults, hc]
    · obtain ⟨hhs, hfault⟩ := Cl.raise_fatal b x c hx hc
      exact .inr ⟨hc, hhs, by rw [hfault, Cl.raise_status], by rw [Cl.raise_status, hx]⟩
  · exact .inl (Cl.raise_notFatal b x c (by simpa using hx))

theorem Cl.measRaise_handshakeStep (x : Code) (c : Cl) : c.HandshakeStep false (c.measRaise x) := by
  unfold Cl.measRaise
  split
  · exact Cl.raise_handshakeStep false x c
  · exact Cl.raise_handshakeStep false x c

/-- The faults of the `CL` operations but `CL.INIT`. -/
theorem Cl.onRaise_handshakeStep {onRaise : Code → Cl → Cl} (h : onRaise = Cl.raise false ∨ onRaise = Cl.measRaise)
    (x : Code) (c : Cl) : c.HandshakeStep false (onRaise x c) := by
  rcases h with rfl | rfl
  · exact Cl.raise_handshakeStep false x c
  · exact Cl.measRaise_handshakeStep x c

theorem Cl.HandshakeStep.after {p : Straps} {b : Bool} {c d e : Cl} (h : c.Keeps p d) (hs : d.HandshakeStep b e) :
    c.HandshakeStep b e := by
  obtain ⟨hhs, hfault, _⟩ := h
  unfold Cl.HandshakeStep at hs ⊢
  rwa [hhs, hfault] at hs

/-- A dead refusal writes the status, and `CL.nres` in one style (60_exceptions.md R222). -/
theorem Cl.refuseDead_keeps (p : Straps) (f : FaultStyle) (c : Cl) : c.Keeps p (c.refuseDead f) := by
  cases f with
  | refuse => exact (Cl.setStatus_keeps p c .dead).1
  | empty => exact (Cl.setStatus_keeps p c .deadEmpty).1.trans (Cl.clearNres_keeps p (c.setStatus .deadEmpty)).1

/-- A whole `CL` operation whose body keeps the handshake state. -/
theorem State.clOp_handshakeStep {s t : State} {p : Straps} {pre : List (Bool × Code)} {onRaise : Code → Cl → Cl}
    {body : Cl → Res Cl} (hr : onRaise = Cl.raise false ∨ onRaise = Cl.measRaise)
    (hk : (body s.cl).Kept (Cl.Keeps p) s.cl) (h : s.clOp pre onRaise body = .next t) :
    s.cl.HandshakeStep false t.cl := by
  rcases s.clOp_cases pre onRaise body t h with
    ⟨_, rfl⟩ | ⟨_, x, _, rfl⟩ | ⟨hd, _, ⟨c, hb, rfl⟩ | ⟨x, c, hb, rfl⟩ | ⟨c, hb, rfl⟩⟩
  · exact (Cl.refuseDead_keeps p _ _).handshakeStep false
  · exact (Cl.setStatus_keeps p _ x).1.handshakeStep false
  · rw [hb] at hk
    exact Cl.Keeps.handshakeStep (p := p) false hk
  · rw [hb] at hk
    exact Cl.HandshakeStep.after (p := p) hk (Cl.onRaise_handshakeStep hr x c)
  · rw [hb] at hk
    exact Cl.HandshakeStep.after (p := p) hk (.inl ⟨rfl, rfl⟩)

/-- The preconditions of `CL.INIT` hold on a disconnected channel only. -/
theorem execClInit_pre {s : State} {rest : List (Bool × Code)}
    (h : firstFailing ((decide (s.cl.hs = .disconnected), Code.badState) :: rest) = none) :
    s.cl.hs = .disconnected := by
  by_contra hd
  simp [hd] at h

/-- Every way a `CL.INIT` can leave the handshake state (42_cl_sequencer.md R153). -/
theorem execClInit_handshake {s t : State} (h : execClInit s = .next t) (hwf : s.cl.HandshakeWf) :
    s.cl.HandshakeStep true t.cl ∨
    s.cl.hs = .disconnected ∧ t.cl.hs = .ready ∧ t.cl.status = .ok ∧ t.cl.fault = .ok ∨
    s.cl.hs = .disconnected ∧ t.cl.busy = true ∧ t.cl.hs ∈ [Hs.pcConnected, .held, .extMode] ∧ t.cl.fault = .ok := by
  obtain ⟨_, hlive, _⟩ := hwf
  have hsat := Cl.handshake_sat s.straps s.cl
  rcases s.clOp_cases _ _ _ t h with
    ⟨_, rfl⟩ | ⟨_, x, _, rfl⟩ | ⟨hd, hpre, ⟨c, hb, rfl⟩ | ⟨x, c, hb, rfl⟩ | ⟨c, hb, rfl⟩⟩
  · exact .inl ((Cl.refuseDead_keeps s.straps _ _).handshakeStep true)
  · exact .inl ((Cl.setStatus_keeps s.straps _ x).1.handshakeStep true)
  · rw [hb] at hsat
    obtain ⟨hready, hok, ⟨hfault, _⟩, _⟩ := hsat
    exact .inr (.inl ⟨execClInit_pre hpre, hready, hok, hfault.trans (hlive.2 hd)⟩)
  · rw [hb] at hsat
    obtain ⟨hfatal, _, _, _, _, hkeep⟩ := hsat
    obtain ⟨hhs, hf⟩ := Cl.raise_fatal true x c hfatal (hkeep hd)
    exact .inl (.inr ⟨hd, hhs, by rw [State.setCl_cl, hf, Cl.raise_status], by rw [State.setCl_cl, Cl.raise_status,
        hfatal]⟩)
  · have hdis := execClInit_pre hpre
    have hway := Cl.handshake_leaves s.straps s.cl (by simp [Cl.OnWay, hdis])
    rw [hb] at hsat hway
    obtain ⟨⟨hfault, _⟩, _⟩ := hsat
    have hfault' : c.fault = s.cl.fault := hfault
    rcases List.mem_cons.1 (show c.hs ∈ [Hs.disconnected, .pcConnected, .held, .extMode] from hway) with hw | hw
    · exact .inl (.inl ⟨hw.trans hdis.symm, hfault'⟩)
    · exact .inr (.inr ⟨hdis, rfl, hw, hfault'.trans (hlive.2 hd)⟩)

/-- Settles O32: every shape of operation but `CL.INIT` takes a handshake step, and `CL.INIT` one or goes on. -/
theorem handshakeTransitions : Obligations.HandshakeTransitions := by
  intro s t i h hwf
  have plain : i ≠ .clInit → s.cl.HandshakeStep false t.cl → t.cl.hs = s.cl.hs ∧ t.cl.fault = s.cl.fault ∨
      s.cl.hs ≠ .faulted ∧ t.cl.hs = .faulted ∧ t.cl.fault = t.cl.status ∧
        t.cl.status.fatal (decide (i = .clInit)) = true := fun hi hs => by
    rw [decide_eq_false hi]
    exact hs
  have apart : t.cl = s.cl → t.cl.hs = s.cl.hs ∧ t.cl.fault = s.cl.fault := fun he => by rw [he]; exact ⟨rfl, rfl⟩
  rcases exec_shape i s with ⟨c, _, he⟩ | ⟨_, hi, c, he, hkeeps, _⟩ |
    ⟨_, hi, pre, onRaise, body, he, hraise, _, hkept⟩ | ⟨rfl, he⟩ | ⟨_, pre, body, he, _⟩ |
    ⟨_, pre, body, he, _⟩ | ⟨_, he⟩ <;> rw [he] at h
  · -- a wire command
    left
    unfold State.carry at h
    split at h
    · obtain rfl : _ = t := by simpa using h
      exact ⟨rfl, rfl⟩
    · simp at h
  · -- a `CL` operation that writes registers only
    obtain rfl : s.setCl c = t := by simpa using h
    obtain ⟨hhs, hfault, _⟩ := hkeeps
    exact .inl ⟨hhs, hfault⟩
  · -- a `CL` operation with a body of its own
    exact (plain hi (State.clOp_handshakeStep hraise hkept h)).imp id fun hf => .inr (.inl hf)
  · -- `CL.INIT`
    rcases execClInit_handshake h hwf with (hs | hf) | ⟨hd, hr⟩ | ⟨hd, hr⟩
    · exact .inl hs
    · exact .inr (.inr (.inl (by simpa using hf)))
    · exact .inr (.inl ⟨rfl, hd, hr⟩)
    · exact .inr (.inr (.inr ⟨rfl, hd, hr⟩))
  · exact .inl (apart (State.utOp_cl h))
  · rw [State.utPure_eq_utOp] at h
    exact .inl (apart (State.utOp_cl h))
  · -- `UT.STATUS`
    obtain rfl : s.setUt _ = t := by simpa [execUtStatus] using h
    exact .inl ⟨rfl, rfl⟩

/-! ### Ranges of `CL` (10_state.md R21 to R28) -/

/-- What a channel in range is besides its handshake state. -/
abbrev Cl.RestWf (p : Straps) (c : Cl) : Prop := c.BuffersWf p ∧ c.res.Wf ∧ c.CountersWf p

theorem Cl.wf_iff {p : Straps} {c : Cl} : c.Wf p ↔ c.RestWf p ∧ c.HandshakeWf :=
  ⟨fun ⟨hb, hr, hh, hc⟩ => ⟨⟨hb, hr, hc⟩, hh⟩, fun ⟨⟨hb, hr, hc⟩, hh⟩ => ⟨hb, hr, hh, hc⟩⟩

theorem Cl.Keeps.restWf {p : Straps} {c d : Cl} (h : c.Keeps p d) (hp : p.Wf) (hc : c.RestWf p) : d.RestWf p := by
  obtain ⟨_, _, hpc, hext, _, hmid⟩ := h
  obtain ⟨hb, hr, hpcw, hextw, hw⟩ := hc
  obtain ⟨_, hb', hr', hw'⟩ := hmid ⟨by omega, hb, hr, hw⟩
  exact ⟨hb', hr', by rw [hpc]; exact hpcw, by rw [hext]; exact hextw, hw'⟩

theorem Cl.Keeps.wf {p : Straps} {c d : Cl} (h : c.Keeps p d) (hp : p.Wf) (hc : c.Wf p) : d.Wf p := by
  have hrest := h.restWf hp (Cl.wf_iff.1 hc).1
  obtain ⟨hhs, hfault, _, _, hbusy, _⟩ := h
  refine Cl.wf_iff.2 ⟨hrest, ?_⟩
  have hh := (Cl.wf_iff.1 hc).2
  unfold Cl.HandshakeWf at hh ⊢
  rwa [hhs, hfault, hbusy]

theorem Cl.raise_restWf {p : Straps} {c : Cl} (b : Bool) (x : Code) (hc : c.RestWf p) : (c.raise b x).RestWf p := by
  rw [Cl.raise_frame]
  obtain ⟨hb, _, hw⟩ := hc
  exact ⟨hb, (ClResults.unspecified_wf _ _).1, hw⟩

/-- A fault that is fatal somewhere is fatal in `CL.INIT`, and is no `OK` (42_cl_sequencer.md R146). -/
theorem Code.fatal_true {b : Bool} {x : Code} (h : x.fatal b = true) : x.fatal true = true ∧ x ≠ .ok := by
  cases x <;> simp_all [Code.fatal]

/-- A handshake step from a channel between operations leaves one (10_state.md R22). -/
theorem Cl.HandshakeStep.wf {b : Bool} {c d : Cl} (h : c.HandshakeStep b d) (hbusy : d.busy = c.busy)
    (hc : c.HandshakeWf) : d.HandshakeWf := by
  rcases h with ⟨hhs, hfault⟩ | ⟨_, hhs, hfault, hfatal⟩
  · unfold Cl.HandshakeWf at hc ⊢
    rwa [hhs, hfault, hbusy]
  · obtain ⟨hfatal, hok⟩ := Code.fatal_true hfatal
    rw [← hfault] at hfatal hok
    exact ⟨fun _ => .inr (.inr hhs), ⟨fun h => absurd h hok, fun h => absurd hhs h⟩, fun _ => hfatal⟩

@[simp] theorem Cl.raise_busy (b : Bool) (x : Code) (c : Cl) : (c.raise b x).busy = c.busy := by rw [Cl.raise_frame]

theorem Cl.measRaise_restWf {p : Straps} {c : Cl} (x : Code) (hp : p.Wf) (hc : c.RestWf p) :
    (c.measRaise x).RestWf p := by
  unfold Cl.measRaise
  split
  · exact Cl.raise_restWf false x hc
  · exact (Cl.clearNres_keeps p _).1.restWf hp (Cl.raise_restWf false x hc)

theorem Cl.measRaise_busy (x : Code) (c : Cl) : (c.measRaise x).busy = c.busy := by
  unfold Cl.measRaise
  split
  · exact Cl.raise_busy false x c
  · exact Cl.raise_busy false x c

theorem Cl.onRaise_wf {p : Straps} {onRaise : Code → Cl → Cl} (h : onRaise = Cl.raise false ∨ onRaise = Cl.measRaise)
    (hp : p.Wf) (x : Code) {c : Cl} (hc : c.Wf p) : (onRaise x c).Wf p := by
  obtain ⟨hrest, hhs⟩ := Cl.wf_iff.1 hc
  have hstep := Cl.onRaise_handshakeStep h x c
  rcases h with rfl | rfl
  · exact Cl.wf_iff.2 ⟨Cl.raise_restWf false x hrest, hstep.wf (Cl.raise_busy false x c) hhs⟩
  · exact Cl.wf_iff.2 ⟨Cl.measRaise_restWf x hp hrest, hstep.wf (Cl.measRaise_busy x c) hhs⟩

/-- A channel in range is in range inside an operation that does not end (log 5). -/
theorem Cl.hang_wf {p : Straps} {c : Cl} (hc : c.Wf p) : c.hang.Wf p := by
  obtain ⟨hrest, _, hh⟩ := Cl.wf_iff.1 hc
  exact Cl.wf_iff.2 ⟨hrest, fun h => absurd h (by simp), hh⟩

theorem State.clOp_wf {s t : State} {pre : List (Bool × Code)} {onRaise : Code → Cl → Cl} {body : Cl → Res Cl}
    (hr : onRaise = Cl.raise false ∨ onRaise = Cl.measRaise) (hk : (body s.cl).Kept (Cl.Keeps s.straps) s.cl)
    (hp : s.straps.Wf) (hc : s.cl.Wf s.straps) (h : s.clOp pre onRaise body = .next t) : t.cl.Wf s.straps := by
  rcases s.clOp_cases pre onRaise body t h with
    ⟨_, rfl⟩ | ⟨_, x, _, rfl⟩ | ⟨hd, _, ⟨c, hb, rfl⟩ | ⟨x, c, hb, rfl⟩ | ⟨c, hb, rfl⟩⟩
  · exact (Cl.refuseDead_keeps _ _ _).wf hp hc
  · exact (Cl.setStatus_keeps _ _ x).1.wf hp hc
  · rw [hb] at hk
    exact Cl.Keeps.wf hk hp hc
  · rw [hb] at hk
    exact Cl.onRaise_wf hr hp x (Cl.Keeps.wf hk hp hc)
  · rw [hb] at hk
    exact Cl.hang_wf (Cl.Keeps.wf hk hp hc)

/-- A handshake keeps the ranges but that of the handshake state (42_cl_sequencer.md R140 to R145). -/
theorem Cl.Inits.restWf {p : Straps} {c d : Cl} (h : c.initStart.Inits p p.pcAttempts (p.extAttempts - 1 + 1) d)
    (hp : p.Wf) (hc : c.RestWf p) : d.RestWf p := by
  obtain ⟨_, hpc, hext, hmid, _⟩ := h
  have hattempts : p.extAttempts - 1 + 1 = p.extAttempts := by omega
  have hcap : 0 < p.rxlineCap := by omega
  have hpc' : d.pcTry ≤ p.pcAttempts := by simpa [Cl.initStart] using hpc
  have hext' : d.extTry ≤ p.extAttempts := by simpa [Cl.initStart, hattempts] using hext
  obtain ⟨hb, hr, _, _, hw⟩ := hc
  obtain ⟨_, hb', hr', hw'⟩ := hmid ⟨hcap, hb, hr, hw⟩
  exact ⟨hb', hr', hpc', hext', hw'⟩

theorem execClInit_wf {s t : State} (hp : s.straps.Wf) (hc : s.cl.Wf s.straps) (h : execClInit s = .next t) :
    t.cl.Wf s.straps := by
  obtain ⟨hrest, hhs⟩ := Cl.wf_iff.1 hc
  have hsat := Cl.handshake_sat s.straps s.cl
  rcases s.clOp_cases _ _ _ t h with
    ⟨_, rfl⟩ | ⟨_, x, _, rfl⟩ | ⟨hd, _, ⟨c, hb, rfl⟩ | ⟨x, c, hb, rfl⟩ | ⟨c, hb, rfl⟩⟩
  · exact (Cl.refuseDead_keeps _ _ _).wf hp hc
  · exact (Cl.setStatus_keeps _ _ x).1.wf hp hc
  all_goals
    have hok : s.cl.fault = .ok := hhs.2.1.2 hd
    rw [hb] at hsat
  · obtain ⟨hready, _, hinits⟩ := hsat
    have hfault : c.fault = .ok := hinits.1.1.trans hok
    exact Cl.wf_iff.2 ⟨hinits.restWf hp hrest, fun _ => .inr (.inl hready), by simp [hfault, hready], by simp [hfault]⟩
  · obtain ⟨hfatal, hinits⟩ := hsat
    obtain ⟨_, _, _, _, hlive⟩ := id hinits
    obtain ⟨hf, hfx⟩ := Cl.raise_fatal true x c hfatal (hlive hd)
    have hx := (Code.fatal_true hfatal).2
    exact Cl.wf_iff.2 ⟨Cl.raise_restWf true x (hinits.restWf hp hrest), fun _ => .inr (.inr hf),
      by simp [hf, hfx, hx], by simp [hfx, hfatal]⟩
  · have hinits : s.cl.initStart.Inits s.straps _ _ c := hsat
    obtain ⟨⟨hfault, _⟩, _, _, _, hlive⟩ := id hinits
    have hfault' : c.fault = .ok := hfault.trans hok
    exact Cl.wf_iff.2 ⟨hinits.restWf hp hrest, fun hb => absurd hb (by simp), by simp [hfault', hlive hd],
      by simp [hfault']⟩

/-! ### Ranges of `UT` (10_state.md R36 to R45) -/

theorem Ut.raise_wf {p : Straps} {u : Ut} (x : Code) (hu : u.Wf p) : (u.raise x).Wf p := by
  obtain ⟨hscan, hwin, hread, ⟨_, _, hq⟩, hsum⟩ := id hu
  rcases Ut.raise_cases x u with ⟨e, _⟩ | ⟨e, _⟩ <;> rw [e]
  · exact ⟨hscan, hwin, hread, ⟨by simp, .inr rfl, hq⟩, hsum⟩
  · exact Ut.setStatus_wf x hu

theorem State.utOp_wf {s t : State} {pre : List (Bool × Code)} {body : Ut → Res Ut}
    (hb : firstFailing pre = none → (body s.ut).Sat (fun v => v.Wf s.straps) (fun _ v => v.Wf s.straps) fun v =>
      v.Wf s.straps) (hu : s.ut.Wf s.straps) (h : s.utOp pre body = .next t) : t.ut.Wf s.straps := by
  rcases s.utOp_cases pre body t h with
    ⟨_, rfl⟩ | ⟨_, x, _, rfl⟩ | ⟨_, hp, ⟨u, he, rfl⟩ | ⟨x, u, he, rfl⟩ | ⟨u, he, rfl⟩⟩
  · exact Ut.setStatus_wf _ hu
  · exact Ut.setStatus_wf x hu
  all_goals
    have hbody := hb hp
    rw [he] at hbody
  · exact hbody
  · exact Ut.raise_wf x hbody
  · exact hbody

/-! ### The whole machine -/

/-- `UT` is untouched by an operation of `CL` or a wire command, `CL` by one of `UT`, and the rest by all. -/
theorem exec_frame {s t : State} {i : Instr} (h : exec i s = .next t) :
    t.straps = s.straps ∧ t.agenda = s.agenda ∧ (i.channel ≠ some .ut → t.ut = s.ut) ∧
      (i.channel = some .ut → t.cl = s.cl) := by
  obtain ⟨hp, ha, hcl, hut⟩ := channelsAreIndependent s s t i rfl h
  exact ⟨hp, ha, fun hi => (hcl hi).1, fun hi => (hut hi).1⟩

theorem exec_wf {s t : State} {i : Instr} (hs : s.Wf) (h : exec i s = .next t) : t.Wf := by
  obtain ⟨hp, hc, hu⟩ := hs
  obtain ⟨hstraps, _, hut, hcl⟩ := exec_frame h
  have ofCl : i.channel ≠ some .ut → t.cl.Wf s.straps → t.Wf := fun hi hw => by
    unfold State.Wf
    rw [hstraps, hut hi]
    exact ⟨hp, hw, hu⟩
  have ofUt : i.channel = some .ut → t.ut.Wf s.straps → t.Wf := fun hi hw => by
    unfold State.Wf
    rw [hstraps, hcl hi]
    exact ⟨hp, hc, hw⟩
  rcases exec_shape i s with ⟨c, rfl, he⟩ | ⟨hi, _, c, he, hkeeps, _⟩ |
    ⟨hi, _, pre, onRaise, body, he, hraise, _, hkept⟩ | ⟨rfl, he⟩ | ⟨hi, pre, body, he, _, _, hbody⟩ |
    ⟨hi, pre, body, he, _, _, hbody⟩ | ⟨rfl, he⟩ <;> rw [he] at h
  · -- a wire command
    refine ofCl (by simp) ?_
    unfold State.carry at h
    split at h
    · obtain rfl : _ = t := by simpa using h
      exact hc
    · simp at h
  · -- a `CL` operation that writes registers only
    obtain rfl : s.setCl c = t := by simpa using h
    exact ofCl (by simp [hi]) (hkeeps.wf hp hc)
  · -- a `CL` operation with a body of its own
    exact ofCl (by simp [hi]) (State.clOp_wf hraise hkept hp hc h)
  · -- `CL.INIT`
    exact ofCl (by simp [Instr.channel, Instr.opcode]) (execClInit_wf hp hc h)
  · -- a `UT` operation
    exact ofUt hi (State.utOp_wf (fun hpre => hbody hpre hp.2.2 hu) hu h)
  · -- a `UT` operation that writes registers only
    rw [State.utPure_eq_utOp] at h
    exact ofUt hi (State.utOp_wf (body := fun u => .done (body u)) (fun hpre => hbody hpre hu) hu h)
  · -- `UT.STATUS`
    obtain rfl : s.setUt _ = t := by simpa [execUtStatus] using h
    exact ofUt rfl hu

theorem Port.move_tx_empty (p : Port) (m : LineMove) (h : p.txq = [] ∧ p.wire = []) :
    (p.move m).txq = [] ∧ (p.move m).wire = [] := by
  obtain ⟨ht, hw⟩ := p.move_idle_tx m h.1
  exact ⟨ht, hw.trans h.2⟩

theorem State.lineMove_wf {s : State} (hs : s.Wf) (ch : Channel) (m : LineMove) : (s.lineMove ch m).Wf := by
  obtain ⟨hp, hc, hu⟩ := hs
  cases ch with
  | cl => exact ⟨hp, hc, hu⟩
  | ut =>
    obtain ⟨hscan, hwin, hread, ⟨hdead, hfault, htx⟩, hsum⟩ := hu
    exact ⟨hp, hc, hscan, hwin, hread, ⟨hdead, hfault, Port.move_tx_empty _ m htx⟩, hsum⟩

theorem State.refuseIllegal_wf {s : State} (hs : s.Wf) (ch : Option Channel) : (s.refuseIllegal ch).Wf := by
  rcases ch with _ | _ | _
  · exact hs
  · exact ⟨hs.1, (Cl.setStatus_keeps _ _ .badOp).1.wf hs.1 hs.2.1, hs.2.2⟩
  · exact ⟨hs.1, hs.2.1, Ut.setStatus_wf .badOp hs.2.2⟩

theorem Cl.reset_wf (p : Straps) : (Cl.reset p).Wf p := by
  refine ⟨⟨?_, Nat.zero_le _, .inl rfl, fun _ => rfl, ?_⟩, ?_, ?_, Nat.zero_le _, Nat.zero_le _, ?_⟩
  · simp [Cl.reset]
  · rintro (h | h) <;> simp [Cl.reset] at h
  · simp [Cl.reset, ClResults.reset, ClResults.Wf]
  · simp [Cl.HandshakeWf, Cl.reset]
  · simp [Cl.reset]

theorem Ut.reset_wf (p : Straps) : Ut.reset.Wf p := by
  simp [Ut.reset, Port.reset, Ut.Wf, Ut.ScanWf, Ut.WindowWf, Ut.LinkWf, Ut.SummaryWf]

theorem State.assertReset_wf {s : State} (hs : s.Wf) : s.assertReset.Wf := by
  obtain ⟨hp, _, _, _, _, ⟨_, _, htx⟩, _⟩ := hs
  obtain ⟨hscan, hwin, hread, ⟨hdead, hfault, _⟩, hsum⟩ := Ut.reset_wf s.straps
  exact ⟨hp, Cl.reset_wf s.straps, hscan, hwin, hread, ⟨hdead, hfault, htx⟩, hsum⟩

/-- Settles O59: an operation keeps the ranges by its shape, and so do an illegal word, a reset and a line move. -/
theorem stepKeepsRanges : Obligations.StepKeepsRanges := by
  intro s t hs h
  unfold step at h
  split at h
  · obtain rfl : s = t := by simpa using h
    exact hs
  · next a rest _ =>
    have hs' : (s.setAgenda rest).Wf := hs
    generalize s.setAgenda rest = r at hs' h
    cases a with
    | host w =>
      simp only [State.act, State.issue] at h
      split at h
      · unfold State.start at h
        split at h
        · split at h
          · simp at h
          · exact exec_wf hs' h
        · exact exec_wf hs' h
      · obtain rfl : _ = t := by simpa using h
        exact State.refuseIllegal_wf hs' _
    | reset =>
      obtain rfl : r.assertReset = t := by simpa [State.act] using h
      exact State.assertReset_wf hs'
    | line ch m =>
      obtain rfl : r.lineMove ch m = t := by simpa [State.act] using h
      exact State.lineMove_wf hs' ch m
    | wireFrame =>
      simp only [State.act, State.takeHeadFrame] at h
      split at h
      · exact exec_wf hs' h
      · simp at h

/-- Settles O60: each channel at reset, under any bounds the parameters keep. -/
theorem resetIsInRange : Obligations.ResetIsInRange := by
  have hreset : ∀ p : Straps, p.Wf → (State.resetWith p).Wf := fun p hp => ⟨hp, Cl.reset_wf p, Ut.reset_wf p⟩
  exact ⟨hreset Config.straps (by decide), hreset⟩

theorem State.resetWith_atResetValues (p : Straps) : (State.resetWith p).AtResetValues := by
  simp [State.AtResetValues, State.resetWith, Cl.reset, Ut.reset, ClResults.reset]

/-- Settles O6: an asserted reset is the reset state but for the transports and what was delivered. -/
theorem resetRestoresBothChannels : Obligations.ResetRestoresBothChannels := by
  refine ⟨State.resetWith_atResetValues _, State.resetWith_atResetValues, fun s rest hagenda => ?_⟩
  refine ⟨(s.setAgenda rest).assertReset, by rw [step_cons hagenda]; rfl, ?_, rfl, rfl, rfl, rfl, rfl, rfl⟩
  exact State.resetWith_atResetValues s.straps

/-- Settles O7: a move of the line, by its kind. -/
theorem lineMovesBetweenOperations : Obligations.LineMovesBetweenOperations := by
  intro s rest ch m hagenda
  refine ⟨(s.portOf ch).move m, ?step, ?_, ?_, ?_, ?_⟩
  case step =>
    rw [step_cons hagenda]
    cases ch <;> rfl
  · rintro b rfl
    rfl
  · rintro rfl b q hq
    simp [Port.move, hq]
  · rintro rfl hq
    simp [Port.move, hq]
  · rintro rfl
    rfl

end Sys2Proof.Machine
end

section
/-! Where a `LinkErr` leaves a `UT` operation (43_ut_frame.md R160), and when an operation ends
(70_reset_and_hazards.md R246). -/

namespace Sys2Proof.Machine

open Host

/-! ### `LinkErr` on `UT` (43_ut_frame.md R160) -/

/-- A channel ended by `TransportError` (60_exceptions.md R208). -/
def Ut.LinkDown (u : Ut) : Prop := u.status = .transportError ∧ u.dead = true ∧ u.fault = .transportError

/-- Of a channel before and after one operation: no primitive answered `LinkErr`; or the last one did, and it alone,
and the channel is dead (43_ut_frame.md R160). -/
def Ut.EndsAtLinkErr (u v : Ut) : Prop :=
  u.port.Later v.port ∨ v.LinkDown ∧ ∃ q w, u.port.Later q ∧ v.port.hist = q.hist ++ [.linkErr w]

theorem Ut.endsAtLinkErr_of_port {u v : Ut} (h : v.port = u.port) : u.EndsAtLinkErr v :=
  .inl (h ▸ Port.Later.refl u.port)

@[simp] theorem Ut.raise_port (x : Code) (u : Ut) : (u.raise x).port = u.port := by
  rcases Ut.raise_cases x u with ⟨e, _⟩ | ⟨e, _⟩ <;> rw [e] <;> rfl

theorem Ut.raise_linkDown (u : Ut) : (u.raise .transportError).LinkDown := by
  rcases Ut.raise_cases .transportError u with ⟨e, _⟩ | ⟨_, hx⟩
  · rw [e]
    exact ⟨rfl, rfl, rfl⟩
  · exact absurd rfl hx

theorem State.utOp_endsAtLinkErr {s t : State} {pre : List (Bool × Code)} {body : Ut → Res Ut} {E : Port → Prop}
    (hr : (body s.ut).Runs Ut.port E s.ut) (h : s.utOp pre body = .next t) : s.ut.EndsAtLinkErr t.ut := by
  rcases s.utOp_cases pre body t h with
    ⟨_, rfl⟩ | ⟨_, x, _, rfl⟩ | ⟨_, _, ⟨u, hb, rfl⟩ | ⟨x, u, hb, rfl⟩ | ⟨u, hb, rfl⟩⟩
  · exact Ut.endsAtLinkErr_of_port rfl
  · exact Ut.endsAtLinkErr_of_port rfl
  all_goals rw [hb] at hr
  · exact .inl hr
  · rcases hr with ⟨_, hl⟩ | ⟨rfl, q, w, hl, hq⟩
    · exact .inl (by simpa using hl)
    · exact .inr ⟨u.raise_linkDown, q, w, hl, by simpa using hq⟩
  · exact .inl hr.1

/-- Every instruction ends at a `LinkErr` of `UT` (43_ut_frame.md R160). -/
theorem exec_endsAtLinkErr_ut {s t : State} {i : Instr} (h : exec i s = .next t) : s.ut.EndsAtLinkErr t.ut := by
  by_cases hi : i.channel = some .ut
  · rcases exec_shape i s with ⟨c, rfl, _⟩ | ⟨hi', _⟩ | ⟨hi', _⟩ | ⟨rfl, _⟩ | ⟨_, pre, body, he, hruns, _⟩ |
      ⟨_, pre, body, he, hport, _⟩ | ⟨_, he⟩
    · simp at hi
    · simp [hi'] at hi
    · simp [hi'] at hi
    · simp [Instr.channel, Instr.opcode] at hi
    · rw [he] at h
      exact State.utOp_endsAtLinkErr hruns h
    · rw [he, State.utPure_eq_utOp] at h
      have hruns : (Res.done (body s.ut)).Runs Ut.port (fun _ => False) s.ut :=
        (show s.ut.port.Later (body s.ut).port from hport ▸ Port.Later.refl _)
      exact State.utOp_endsAtLinkErr (body := fun u => .done (body u)) hruns h
    · rw [he] at h
      obtain rfl : s.setUt _ = t := by simpa [execUtStatus] using h
      exact Ut.endsAtLinkErr_of_port rfl
  · obtain ⟨_, _, hut, _⟩ := exec_frame h
    exact Ut.endsAtLinkErr_of_port (by rw [hut hi])

/-- Settles O57: every instruction either sees no `LinkErr` of `UT` or ends at one, with the channel dead. -/
theorem utLinkErrorEndsTheOperation : Obligations.UtLinkErrorEndsTheOperation := by
  intro s t i evs w h hevs hw
  rcases exec_endsAtLinkErr_ut h with hl | ⟨⟨hstatus, hdead, hfault⟩, q, v, ⟨⟨before, hq, hn⟩, _⟩, hlast⟩
  · exact absurd hw (hl.linkErr_notMem hevs w)
  · refine ⟨hstatus, hdead, hfault, before, ?_, hn⟩
    have hv : evs = before ++ [.linkErr v] :=
      List.append_cancel_left (by rw [← hevs, hlast, hq, List.append_assoc])
    have hwv : w = v := by simpa [hv, hn] using hw
    rw [hv, hwv]

/-! ### Operations that end (70_reset_and_hazards.md R246) -/

/-- Why a channel is busy after an operation: it was, a primitive was not answered, or bytes come as `E` says. -/
def BusyBecause (was : Bool) (p : Port) (E : Port → Prop) (is : Bool) (q : Port) : Prop :=
  is = true → was = true ∨ p.Unanswered q ∨ E q

theorem busyBecause_same {was is : Bool} {p q : Port} {E : Port → Prop} (h : is = was) : BusyBecause was p E is q :=
  fun hb => .inl (h ▸ hb)

theorem Cl.refuseDead_busy (f : FaultStyle) (c : Cl) : (c.refuseDead f).busy = c.busy := by cases f <;> rfl

theorem Cl.onRaise_busy {onRaise : Code → Cl → Cl}
    (h : onRaise = Cl.raise false ∨ onRaise = Cl.raise true ∨ onRaise = Cl.measRaise) (x : Code) (c : Cl) :
    (onRaise x c).busy = c.busy := by
  rcases h with rfl | rfl | rfl
  · exact Cl.raise_busy false x c
  · exact Cl.raise_busy true x c
  · exact Cl.measRaise_busy x c

/-- A `CL` operation whose body leaves `busy` alone where it ends. -/
theorem State.clOp_busy {s t : State} {pre : List (Bool × Code)} {onRaise : Code → Cl → Cl} {body : Cl → Res Cl}
    {E : Port → Prop} (hr : onRaise = Cl.raise false ∨ onRaise = Cl.raise true ∨ onRaise = Cl.measRaise)
    (hruns : (body s.cl).Runs Cl.port E s.cl)
    (hbusy : (body s.cl).Sat (fun c => c.busy = s.cl.busy) fun _ c => c.busy = s.cl.busy)
    (h : s.clOp pre onRaise body = .next t) : BusyBecause s.cl.busy s.cl.port E t.cl.busy t.cl.port := by
  rcases s.clOp_cases pre onRaise body t h with
    ⟨_, rfl⟩ | ⟨_, x, _, rfl⟩ | ⟨_, _, ⟨c, hb, rfl⟩ | ⟨x, c, hb, rfl⟩ | ⟨c, hb, rfl⟩⟩
  · exact busyBecause_same (Cl.refuseDead_busy _ _)
  · exact busyBecause_same rfl
  all_goals rw [hb] at hruns hbusy
  · exact busyBecause_same hbusy
  · exact busyBecause_same ((Cl.onRaise_busy hr x c).trans hbusy)
  · exact fun _ => .inr hruns.2

theorem Ut.raise_busy (x : Code) (u : Ut) : (u.raise x).busy = u.busy := by
  rcases Ut.raise_cases x u with ⟨e, _⟩ | ⟨e, _⟩ <;> rw [e] <;> rfl

theorem State.utOp_busy {s t : State} {pre : List (Bool × Code)} {body : Ut → Res Ut} {E : Port → Prop}
    (hruns : (body s.ut).Runs Ut.port E s.ut)
    (hbusy : (body s.ut).Sat (fun u => u.busy = s.ut.busy) fun _ u => u.busy = s.ut.busy)
    (h : s.utOp pre body = .next t) : BusyBecause s.ut.busy s.ut.port E t.ut.busy t.ut.port := by
  rcases s.utOp_cases pre body t h with
    ⟨_, rfl⟩ | ⟨_, x, _, rfl⟩ | ⟨_, _, ⟨u, hb, rfl⟩ | ⟨x, u, hb, rfl⟩ | ⟨u, hb, rfl⟩⟩
  · exact busyBecause_same rfl
  · exact busyBecause_same rfl
  all_goals rw [hb] at hruns hbusy
  · exact busyBecause_same hbusy
  · exact busyBecause_same ((Ut.raise_busy x u).trans hbusy)
  · exact fun _ => .inr hruns.2

/-- A `CL` operation ends, but at an unanswered primitive or over bytes without `LF` for ever. -/
theorem exec_cl_ends (s : State) (i : Instr) (hi : i.channel = some .cl) : ∃ t, exec i s = .next t ∧
    BusyBecause s.cl.busy s.cl.port (fun q => i.ReadsLine ∧ q.EndlessNoLf) t.cl.busy t.cl.port := by
  rcases exec_shape i s with ⟨c, rfl, _⟩ | ⟨_, _, c, he, ⟨_, _, _, _, hbusy, _⟩, _⟩ |
    ⟨_, _, pre, onRaise, body, he, hraise, hruns, hkept⟩ | ⟨rfl, he⟩ | ⟨hi', _⟩ | ⟨hi', _⟩ | ⟨rfl, _⟩
  · simp at hi
  · exact ⟨_, he, busyBecause_same hbusy⟩
  · obtain ⟨c, hc⟩ := s.clOp_next pre onRaise body
    have hbusy : (body s.cl).Sat (fun c => c.busy = s.cl.busy) fun _ c => c.busy = s.cl.busy :=
      Res.Sat.mono hkept (fun _ ⟨_, _, _, _, h, _⟩ => h) (fun _ _ ⟨_, _, _, _, h, _⟩ => h) fun _ _ => trivial
    exact ⟨_, he.trans hc, State.clOp_busy (hraise.imp id .inr) hruns hbusy hc⟩
  · obtain ⟨c, hc⟩ : ∃ c, execClInit s = .next (s.setCl c) := s.clOp_next _ _ _
    have hbusy : (s.cl.handshake s.straps).Sat (fun c => c.busy = s.cl.busy) fun _ c => c.busy = s.cl.busy :=
      (Cl.handshake_sat s.straps s.cl).mono (fun _ ⟨_, _, ⟨_, h⟩, _⟩ => h) (fun _ _ ⟨_, ⟨_, h⟩, _⟩ => h) fun _ _ =>
        trivial
    exact ⟨_, he.trans hc, State.clOp_busy (.inr (.inl rfl))
      ((Cl.handshake_runs s.straps s.cl).weaken fun _ h => ⟨.inr (.inl rfl), h⟩) hbusy hc⟩
  · simp [hi'] at hi
  · simp [hi'] at hi
  · simp [Instr.channel, Instr.opcode] at hi

/-- A `UT` operation ends, but at an unanswered primitive or over bytes that never pause. -/
theorem exec_ut_ends (s : State) (i : Instr) (hi : i.channel = some .ut) : ∃ t, exec i s = .next t ∧
    BusyBecause s.ut.busy s.ut.port (fun q => i.Scans ∧ s.ut.mode = .resync ∧ q.Endless) t.ut.busy t.ut.port := by
  rcases exec_shape i s with ⟨c, rfl, _⟩ | ⟨hi', _⟩ | ⟨hi', _⟩ | ⟨rfl, _⟩ | ⟨_, pre, body, he, hruns, hbusy, _⟩ |
    ⟨_, pre, body, he, _, hbusy, _⟩ | ⟨rfl, he⟩
  · simp at hi
  · simp [hi'] at hi
  · simp [hi'] at hi
  · simp [Instr.channel, Instr.opcode] at hi
  · obtain ⟨u, hu⟩ := s.utOp_next pre body
    exact ⟨_, he.trans hu, State.utOp_busy hruns hbusy hu⟩
  · refine ⟨_, he, busyBecause_same ?_⟩
    rw [State.setUt_ut]
    split
    · rfl
    · split
      · rfl
      · exact hbusy
  · exact ⟨_, he, busyBecause_same rfl⟩

/-! ### Operations that do not end (40_cl_framer.md R113, 43_ut_frame.md R177) -/

theorem State.clOp_stuck {s : State} {pre : List (Bool × Code)} {onRaise : Code → Cl → Cl} {body : Cl → Res Cl}
    {c : Cl} (hd : s.cl.hs ≠ .faulted) (hp : firstFailing pre = none) (hb : body s.cl = .stuck c) :
    s.clOp pre onRaise body = .next (s.setCl c.hang) := by
  simp [State.clOp, hd, hp, State.endCl, hb]

theorem State.utOp_stuck {s : State} {pre : List (Bool × Code)} {body : Ut → Res Ut} {u : Ut}
    (hd : s.ut.dead = false) (hp : firstFailing pre = none) (hb : body s.ut = .stuck u) :
    s.utOp pre body = .next (s.setUt u.hang) := by
  simp [State.utOp, hd, hp, State.endUt, hb]

/-- `CL.INIT` with its preconditions as propositions (42_cl_sequencer.md R140). -/
theorem execClInit_pre_iff (s : State) :
    firstFailing [(decide (s.cl.hs = .disconnected), Code.badState),
      (templateOk s.straps .c54 && templateOk s.straps .c55 && templateOk s.straps .c40, .badTemplate)] = none ↔
    s.cl.hs = .disconnected ∧ Template.wf (s.straps.cmdTable.get .c54) = true ∧
      Template.wf (s.straps.cmdTable.get .c55) = true ∧ Template.wf (s.straps.cmdTable.get .c40) = true := by
  rw [firstFailing_eq_none]
  simp [templateOk, and_assoc]

/-- `CL.MEAS` with its preconditions as propositions (42_cl_sequencer.md R147). -/
theorem execClMeas_pre_iff (s : State) (c : CmdId) :
    firstFailing [(decide (s.cl.hs = .ready), Code.notReady),
      (templateOk s.straps .c40r && templateOk s.straps c, .badTemplate)] = none ↔
    s.cl.hs = .ready ∧ Template.wf (s.straps.cmdTable.get .c40r) = true ∧
      Template.wf (s.straps.cmdTable.get c) = true := by
  rw [firstFailing_eq_none]
  simp [templateOk]

theorem ownRefusal_clInit_iff (s : State) : s.ownRefusal .clInit = none ↔
    s.cl.hs = .disconnected ∧ Template.wf (s.straps.cmdTable.get .c54) = true ∧
      Template.wf (s.straps.cmdTable.get .c55) = true ∧ Template.wf (s.straps.cmdTable.get .c40) = true := by
  by_cases hd : s.cl.hs = .disconnected <;> simp [State.ownRefusal, hd]

theorem ownRefusal_clMeas_iff (s : State) (c : CmdId) : s.ownRefusal (.clMeas c) = none ↔
    s.cl.hs = .ready ∧ Template.wf (s.straps.cmdTable.get .c40r) = true ∧
      Template.wf (s.straps.cmdTable.get c) = true := by
  by_cases hd : s.cl.hs = .ready <;> simp [State.ownRefusal, hd]

/-- Settles O58: what a body that does not end says of the line, and which bodies do not end on endless bytes. -/
theorem operationsEndIfAnswered : Obligations.OperationsEndIfAnswered := by
  refine ⟨exec_cl_ends, exec_ut_ends, ?_, ?_⟩
  · intro s i hreads hops hlive hrefusal hunbroken hendless hqueue hattempts
    rcases hreads with rfl | rfl | ⟨c, rfl⟩
    · obtain ⟨d, hd⟩ := Cl.rxlineOp_endless s.straps s.cl hunbroken hendless (hqueue rfl)
      rw [exec_clRxline_eq]
      exact ⟨_, State.clOp_stuck (c := d) hlive rfl (by rw [hd]; rfl), rfl⟩
    · obtain ⟨hdis, h54, h55, h40⟩ := (ownRefusal_clInit_iff s).1 hrefusal
      obtain ⟨d, hd⟩ := Cl.handshake_endless s.straps s.cl hunbroken hendless h54 h55 h40 (hattempts rfl)
      rw [exec_clInit_eq]
      exact ⟨_, State.clOp_stuck hlive ((execClInit_pre_iff s).2 ⟨hdis, h54, h55, h40⟩) hd, rfl⟩
    · obtain ⟨hready, h40r, hc⟩ := (ownRefusal_clMeas_iff s c).1 hrefusal
      obtain ⟨d, hd⟩ := Cl.measure_endless s.straps c s.cl hunbroken hendless h40r hc
      rw [exec_clMeas_eq s hops]
      exact ⟨_, State.clOp_stuck hlive ((execClMeas_pre_iff s c).2 ⟨hready, h40r, hc⟩) hd, rfl⟩
  · intro s i hscans hlive hrefusal hmode hunbroken hendless
    obtain ⟨d, hd⟩ := Ut.sync_endless s.straps s.ut hmode hunbroken hendless
    have hmon : s.ut.mon s.straps = .stuck d := by rw [Ut.mon, hd]; rfl
    have havg : s.ut.average s.straps = .stuck d := by rw [Ut.average, hmon]; rfl
    rcases hscans with rfl | rfl | rfl
    · rw [exec_utSync_eq]
      exact ⟨_, State.utOp_stuck hlive rfl hd, rfl⟩
    · rw [exec_utMon_eq]
      exact ⟨_, State.utOp_stuck hlive (by simpa [State.ownRefusal] using hrefusal) hmon, rfl⟩
    · rw [exec_utAvg_eq]
      exact ⟨_, State.utOp_stuck hlive (by simpa [State.ownRefusal] using hrefusal) havg, rfl⟩

end Sys2Proof.Machine
end

section
/-! The framer's operations: cutting and judging a buffer, the queues, the send and the receive (40_cl_framer.md R105
to R113), and the wire commands (30_encoding.md R80). -/

namespace Sys2Proof.Machine

open Host

/-! ### `CL.UNFRAME` (40_cl_framer.md R105, R106) -/

/-- The field registers after `CL.UNFRAME`: those the template names are the parts, the others stay (R105). -/
theorem Cl.unframe_fld (t : Template) (c : Cl) (i : Nat) (ht : t.length ≤ 8) :
    (c.unframe t).res.fld.toList.getD i [] =
      if i < t.length then (c.fieldsBy t).getD i [] else c.res.fld.toList.getD i [] := by
  by_cases hi : i < 8
  · have hl : i < (c.unframe t).res.fld.toList.length := by simpa using hi
    rw [List.getD_eq_getElem _ _ hl, Vector.getElem_toList]
    simp only [Cl.unframe, Cl.setRes_res, Vector.getElem_ofFn]
  · have hlen : ∀ v : Vector (List Byte) 8, v.toList.getD i [] = [] := fun v =>
      List.getD_eq_default _ _ (by simp; omega)
    rw [hlen, hlen, if_neg (by omega)]

/-- The part of the `i`-th field, where the template has one (R105). -/
theorem Cl.fieldsBy_getD {t : Template} {i : Nat} {f : Field} (c : Cl) (hf : t[i]? = some f) :
    (c.fieldsBy t).getD i [] = (c.txbuf.toList.drop (1 + ((t.take i).map Field.width).sum)).take f.width := by
  rw [Cl.fieldsBy, splitWidths_getD _ _ i f.width (by simp [hf]), List.drop_drop, List.map_take]

theorem exec_clUnframe_live {s : State} {c : CmdId} (hd : s.cl.hs ≠ .faulted) (hl : s.cl.txlen ≠ 0)
    (hw : Template.wf (s.straps.cmdTable.get c) = true) :
    exec (.clUnframe c) s = .next (s.setCl ((s.cl.unframe (s.straps.cmdTable.get c)).setStatus .ok)) := by
  rw [exec_clUnframe_eq]
  exact s.clPure_done _ _ hd (by simp [hl, templateOk, hw])

/-- Settles O12: the parts of the cut are slices of the buffer, and go to the registers the template names. -/
theorem unframeCutsByWidths : Obligations.UnframeCutsByWidths := by
  intro s c hd hl hw
  have hfld := fun i => Cl.unframe_fld (s.straps.cmdTable.get c) s.cl i (Template.wf_length _ hw)
  refine ⟨(s.cl.unframe (s.straps.cmdTable.get c)).res.fld, exec_clUnframe_live hd hl hw, fun i f hf => ?_,
      fun i hi => ?_⟩
  · have hi : i < (s.straps.cmdTable.get c).length := (List.getElem?_eq_some_iff.1 hf).1
    rw [hfld, if_pos hi, Cl.fieldsBy_getD _ hf]
  · rw [hfld, if_neg (by omega)]

/-- Settles O13: the slices of a rendered frame are the packed fields. -/
theorem renderUnframeRoundTrip : Obligations.RenderUnframeRoundTrip := by
  intro s c hd hw
  have hbuf := Cl.loadFrame_txbuf s.straps c s.cl hw
  generalize hr : (s.cl.loadFrame s.straps c).setStatus .ok = r
  have hrd : r.hs ≠ .faulted := by rw [← hr]; exact hd
  have hrl : r.txlen ≠ 0 := by rw [← hr]; simp [Cl.loadFrame]
  have hrb : r.txbuf.toList = cmdFrame s.straps c := by rw [← hr]; exact hbuf
  refine ⟨s.setCl r, _, by rw [exec_clRender_live s c hd hw, hr],
    exec_clUnframe_live (s := s.setCl r) hrd hrl hw, fun i f hf => ?_⟩
  have hi : i < (s.straps.cmdTable.get c).length := (List.getElem?_eq_some_iff.1 hf).1
  have hfld := Cl.unframe_fld (s.straps.cmdTable.get c) r i (Template.wf_length _ hw)
  have hpack := flatten_pack_drop _ i f (Template.pack_length hw) hf
    ([etx] ++ ckDigits s.straps.ck (s.straps.cmdTable.get c).body ++ [cr, lf])
  rw [if_pos hi, Cl.fieldsBy_getD _ hf, hrb] at hfld
  refine hfld.trans (Eq.trans ?_ hpack)
  simp [cmdFrame, frameOf, Template.body, Nat.add_comm 1]

/-! ### `CL.CKVAL` (40_cl_framer.md R107) -/

theorem wellframed_eq_decide (k : CkKind) (f : List Byte) :
    wellframed k f = decide (f = frameOf k (slice f 1 (f.length - 5))) := by
  rw [Bool.eq_iff_iff, wellframed_iff_eq_frameOf, decide_eq_true_eq]

/-- Settles O14: `CL.ckok` is `wellframed` of the selected buffer, which is being a frame. -/
theorem ckvalJudgesTheBuffer : Obligations.CkvalJudgesTheBuffer := by
  rintro s line hd rfl
  refine ⟨fun hl => ?_, fun hl => ?_⟩
  · rw [exec_clCkval_eq, s.clPure_done _ _ hd (by simp [Cl.selectedPre, hl])]
    simp only [Cl.selected, wellframed_eq_decide, Vector.length_toList]
    rfl
  · rw [exec_clCkval_eq, s.clPure_done _ _ hd (by simp [Cl.selectedPre, hl])]
    simp only [Cl.selected, wellframed_eq_decide]
    rfl

/-! ### The transport across one turn (20_memory.md R57) -/

@[simp] theorem Port.turn_turns (p : Port) : p.turn.2.turns = p.turns.tail := by
  simp only [Port.turn]
  split
  · next h => simp [h]
  · next h => simp [h]

theorem Port.move_wire_prefix (p : Port) (m : LineMove) : p.wire <+: (p.move m).wire := by
  cases m with
  | wire => simp only [Port.move]; split <;> simp
  | _ => exact List.prefix_rfl

theorem Port.moves_wire_prefix (p : Port) (ms : List LineMove) : p.wire <+: (p.moves ms).wire := by
  induction ms generalizing p with
  | nil => exact List.prefix_rfl
  | cons m ms ih => exact (p.move_wire_prefix m).trans (ih _)

/-- What is on the wire stays there. -/
theorem Port.turn_wire_prefix (p : Port) : p.wire <+: p.turn.2.wire := by
  simp only [Port.turn]
  split
  · exact List.prefix_rfl
  · next t ts _ => exact Port.moves_wire_prefix { p with turns := ts } t.moves

/-- No received byte is lost in a turn. -/
theorem Port.turn_rxq_prefix (p : Port) : p.rxq <+: p.turn.2.rxq := by
  simp only [Port.turn]
  split
  · exact List.prefix_rfl
  · rw [Port.moves_rxq]
    exact List.prefix_append _ _

/-- Settles O15: `Flush` is done on a line that answers, after the line's turn. -/
theorem flushEmptiesTheQueues : Obligations.FlushEmptiesTheQueues := by
  intro s hd hans
  have hunbroken := (Port.turn_answers s.cl.port hans).2.1
  refine ⟨Port.record { s.cl.port.turn.2 with rxq := [], txq := [] } .flush, ?_, rfl, rfl, hunbroken, by simp,
      by simp, by simp, s.cl.port.turn_wire_prefix,
    ⟨s.cl.port.turn.2.txq, s.cl.port.turn_wire_txq⟩⟩
  rw [exec_clFlush_eq]
  exact s.clOp_done _ _ _ _ hd rfl (by rw [Cl.flush_answers s.cl hans]; rfl)

/-! ### `CL.SEND` (40_cl_framer.md R110) -/

/-- Transmitting on a line that answers takes one turn for each byte, and loses no received byte. -/
theorem Cl.txBytes_turns (bs : List Byte) (c : Cl) (h : c.port.Answers) :
    (Cl.txBytes bs c).Completes fun d => d.port.Answers ∧ c.port.rxq <+: d.port.rxq ∧
      d.port.turns = c.port.turns.drop bs.length ∧ d.port.stream = c.port.stream := by
  induction bs generalizing c with
  | nil => exact Res.completes_done ⟨h, List.prefix_rfl, rfl, rfl⟩
  | cons b bs ih =>
    have ht := (Port.turn_answers c.port h).2
    simp only [Cl.txBytes, Cl.txByte_answers c b h, Res.bind_done]
    refine (ih (c.setPort (Port.record { c.port.turn.2 with txq := c.port.turn.2.txq ++ [b] } (.tx b))) ht).mono ?_
    rintro d ⟨hans, hrx, hturns, hstream⟩
    exact ⟨hans, c.port.turn_rxq_prefix.trans hrx, by rw [hturns]; simp, by rw [hstream]; simp⟩

theorem Cl.transmit_turns (k : SettleClass) (c : Cl) (h : c.port.Answers) :
    (c.transmit k).Completes fun d => c.port.rxq <+: d.port.rxq ∧ d.port.turns = c.port.turns.drop 15 ∧
      d.port.stream = c.port.stream := by
  refine (Cl.txBytes_turns c.txbuf.toList c h).bind ?_
  rintro d ⟨hans, hrx, hturns, hstream⟩
  rw [Cl.settle_answers d k hans]
  exact Res.completes_done ⟨hrx.trans d.port.turn_rxq_prefix, by simp [hturns], by simp [hstream]⟩

theorem exec_clSend_pre {s : State} (hl : s.cl.txlen ≠ 0) :
    firstFailing [(decide (s.cl.txlen ≠ 0), Code.noFrame)] = none := by simp [hl]

/-- Settles O16: what a transmission on a line that answers adds to the queues and the history, and what it keeps. -/
theorem sendTransmitsTheFrame : Obligations.SendTransmitsTheFrame := by
  intro s k hd hl hans
  obtain ⟨d, hdone, hport, ⟨hunbroken, _⟩, hhist, hwire⟩ := Cl.transmit_answers k s.cl hans
  obtain ⟨d', hdone', hrx, hturns, hstream⟩ := Cl.transmit_turns k s.cl hans
  obtain rfl : d' = d := by simpa using hdone'.symm.trans hdone
  refine ⟨d'.port, ?_, hunbroken, hhist, hwire, hrx, hturns, hstream⟩
  rw [exec_clSend_eq]
  refine s.clOp_done _ _ _ _ hd (exec_clSend_pre hl) ?_
  rw [hdone, Res.bind_done, hport]
  rfl

theorem Cl.txBytes_append (as bs : List Byte) (c : Cl) :
    Cl.txBytes (as ++ bs) c = (Cl.txBytes as c).bind (Cl.txBytes bs) := by
  induction as generalizing c with
  | nil => rfl
  | cons a as ih =>
    simp only [List.cons_append, Cl.txBytes, Res.bind_assoc]
    congr 1
    funext d
    exact ih d

/-- A `TxByte` that meets `LinkErr` hands nothing over (20_memory.md R53; log 7). -/
theorem Cl.txBytes_linkErr {c : Cl} {b : Byte} {bs : List Byte} {rest : List Turn}
    (ht : c.port.turns = Turn.linkErr :: rest) : Cl.txBytes (b :: bs) c =
      .raised .transportError (c.setPort (Port.record { c.port with turns := rest } (.linkErr none))) := by
  have hturn : c.port.turn = (.linkErr, { c.port with turns := rest }) := by
    rw [Port.turn_cons _ _ _ ht]
    rfl
  simp [Cl.txBytes, Port.txByte, Port.primitive, hturn, linkFails, Cl.afterAck]

/-- Settles O17: the bytes before the failing one go out over a quiet line, and the failing one raises. -/
theorem sendStopsAtLinkError : Obligations.SendStopsAtLinkError := by
  intro s k i rest hd hl hi hunbroken hturns
  obtain ⟨b, bs, hbs⟩ : ∃ b bs, s.cl.txbuf.toList.drop i = b :: bs :=
    List.exists_cons_of_ne_nil (by simp; omega)
  have hsplit : s.cl.txbuf.toList = s.cl.txbuf.toList.take i ++ b :: bs := by rw [← hbs, List.take_append_drop]
  have hlen : (s.cl.txbuf.toList.take i).length = i := by simp; omega
  generalize s.cl.txbuf.toList.take i = sent at hsplit hlen ⊢
  have hquiet : s.cl.port.Quiet (sent.length + 0) := ⟨hunbroken, by simp [hturns, hlen]⟩
  have hsend : s.cl.transmit k = .raised .transportError (s.cl.setPort { s.cl.port with
      txq := s.cl.port.txq ++ sent
      hist := s.cl.port.hist ++ sent.map Event.tx ++ [.linkErr none]
      turns := rest }) := by
    rw [Cl.transmit, hsplit, Cl.txBytes_append, Cl.quiet_txBytes _ hquiet, Res.bind_done,
      Cl.txBytes_linkErr (rest := rest) (by simp [hturns, hlen])]
    simp [Cl.setPort, Port.record]
  rw [exec_clSend_eq, s.clOp_raised _ _ _ _ _ hd (exec_clSend_pre hl) (by rw [hsend]; rfl)]
  exact ⟨_, by rw [Cl.raise_afterFault false _ _ (by exact hd)]; rfl⟩

/-! ### `CL.RXLINE` (40_cl_framer.md R112, R113) -/

/-- Settles O18: the receive loop over a queued line, on a silent line. -/
theorem rxlineReadsOneLine : Obligations.RxlineReadsOneLine := by
  intro s line rest hd hsilent hline hqueue hbuf hcap
  have hread := Cl.quiet_rxlineOp s.straps s.cl line rest hbuf (hsilent.quiet _) hqueue hline
  rw [exec_clRxline_eq, s.clOp_done _ _ _ _ hd rfl (by rw [hread]; rfl)]
  simp [Cl.rxStatus, Cl.setStatus, Cl.received, hsilent.2.1]

/-- Settles O19: the receive loop over queued bytes without `LF`, on a silent line. -/
theorem rxlineEndsAtTimeout : Obligations.RxlineEndsAtTimeout := by
  intro s line hd hsilent hline hqueue hbuf hcap
  have hread := Cl.quiet_rxlineOp_timeout s.straps (by omega) s.cl line hbuf (hsilent.quiet _) (.inl hsilent.2.2)
    hqueue hline
  rw [exec_clRxline_eq, s.clOp_done _ _ _ _ hd rfl (by rw [hread]; rfl)]
  by_cases hempty : line = []
  · simp [Cl.rxStatus, Cl.setStatus, Cl.received, hsilent.2.1, hempty]
  · simp [Cl.rxStatus, Cl.setStatus, Cl.received, hsilent.2.1, hempty]

/-! ### The wire commands (30_encoding.md R80) -/

theorem exec_instr (c : CmdId) (s : State) : exec c.instr s = s.carry c := by cases c <;> rfl

/-- Settles O51: carrying a frame is fourteen moves of the line, where the frame is at the head of the queue. -/
theorem wireCommandCarriesItsFrame : Obligations.WireCommandCarriesItsFrame := by
  intro s c hw
  rw [exec_instr]
  refine ⟨fun rest hq => ?_, fun hq => ?_⟩
  · have hqueued : s.frameQueued c = true := by
      simp [State.frameQueued, templateOk, hw, List.isPrefixOf_iff_prefix, hq]
    have hmoves := Port.takeFrame_moves s.cl.port (cmdFrame s.straps c) rest hq
    rw [cmdFrame_length s.straps c hw] at hmoves
    rw [State.carry, if_pos hqueued, ← hmoves]
    exact ⟨by simp [Port.takeFrame, hq, Cl.setPort], rfl⟩
  · have hqueued : ¬ s.frameQueued c = true := by
      simp only [State.frameQueued, templateOk, hw, Bool.true_and, List.isPrefixOf_iff_prefix]
      rintro ⟨rest, hrest⟩
      exact hq rest hrest.symm
    rw [State.carry, if_neg hqueued]

end Sys2Proof.Machine
end

section
/-! The parser: the checks of a line, its value fields, rounding and the CCT (41_cl_parser.md). -/

namespace Sys2Proof

/-! ### Bytes of a slice (00_scope.md section 4) -/

theorem byteAt_slice {l : List Byte} {a b i : Nat} (h : i < b - a) : byteAt (slice l a b) i = byteAt l (a + i) := by
  simp [byteAt, slice, h]

theorem byteAt_take {l : List Byte} {n i : Nat} (h : i < n) : byteAt (l.take n) i = byteAt l i := by
  simp [byteAt, h]

theorem slice_take {l : List Byte} {n a b : Nat} (h : b ≤ n) : slice (l.take n) a b = slice l a b := by
  simp only [slice]
  rw [List.drop_take, List.take_take, Nat.min_eq_left (by omega)]

/-- The number a four-byte field writes, from its bytes. -/
theorem dec4_slice (l : List Byte) (a : Nat) : dec4 (slice l a (a + 4)) =
    digits4 (dig (byteAt l a)) (dig (byteAt l (a + 1))) (dig (byteAt l (a + 2))) (dig (byteAt l (a + 3))) := by
  have h : ∀ i < 4, byteAt (slice l a (a + 4)) i = byteAt l (a + i) := fun i hi => byteAt_slice (by omega)
  rw [dec4, h 0 (by omega), h 1 (by omega), h 2 (by omega), h 3 (by omega), Nat.add_zero]

/-- A field of four digits has a value, one with a byte that is no digit has none. -/
theorem digits4_eq_none_iff (a b c d : Option Nat) :
    digits4 a b c d = none ↔ a = none ∨ b = none ∨ c = none ∨ d = none := by
  unfold digits4
  split
  · simp
  · next h =>
    simp only [true_iff]
    by_contra hn
    simp only [not_or, ← ne_eq, Option.ne_none_iff_exists'] at hn
    obtain ⟨⟨a, rfl⟩, ⟨b, rfl⟩, ⟨c, rfl⟩, ⟨d, rfl⟩⟩ := hn
    exact h a b c d rfl rfl rfl rfl

theorem dec4_slice_eq_none {l : List Byte} {a j : Nat} (h : a ≤ j ∧ j < a + 4) (hj : dig (byteAt l j) = none) :
    dec4 (slice l a (a + 4)) = none := by
  rw [dec4_slice, digits4_eq_none_iff]
  obtain rfl | rfl | rfl | rfl : j = a ∨ j = a + 1 ∨ j = a + 2 ∨ j = a + 3 := by omega
  · exact .inl hj
  · exact .inr (.inl hj)
  · exact .inr (.inr (.inl hj))
  · exact .inr (.inr (.inr hj))

/-- The characters of four digits write their number. -/
theorem dec4_digits {a b c d : Nat} (h : a ≤ 9 ∧ b ≤ 9 ∧ c ≤ 9 ∧ d ≤ 9) :
    dec4 ([a, b, c, d].map fun n => BitVec.ofNat 8 (0x30 + n)) = some (1000 * a + 100 * b + 10 * c + d) := by
  obtain ⟨ha, hb, hc, hd⟩ := h
  have hdig : ∀ n, n ≤ 9 → dig (BitVec.ofNat 8 (0x30 + n)) = some n := fun n hn => dig_digit n (by omega)
  simp only [dec4, byteAt, List.map_cons, List.getD_cons_zero, List.getD_cons_succ, hdig a ha, hdig b hb, hdig c hc,
    hdig d hd, digits4]

/-! ### Rounding (41_cl_parser.md R125) -/

theorem round3_natAbs (tie : RoundTie) (v : Int) : (round3 tie v).natAbs = round3Mag tie v.natAbs := by
  unfold round3
  split <;> simp

theorem round3_nonneg (tie : RoundTie) {v : Int} (h : 0 ≤ v) : round3 tie v = round3Mag tie v.natAbs := by
  rw [round3, if_neg (by omega)]

theorem round3_neg (tie : RoundTie) {v : Int} (h : v < 0) : round3 tie v = -(round3Mag tie v.natAbs : Int) := by
  rw [round3, if_pos h]

/-- A magnitude rounds to one of the two tenths around it, at most five away. -/
theorem round3Mag_near (tie : RoundTie) (m : Nat) : 10 * round3Mag tie m ≤ m + 5 ∧ m ≤ 10 * round3Mag tie m + 5 := by
  unfold round3Mag
  split
  · omega
  · split
    · omega
    · cases tie with
      | halfEven => dsimp only; split <;> omega
      | halfAway => dsimp only; omega
      | halfToward => dsimp only; omega

theorem round3Mag_exact (tie : RoundTie) {m : Nat} (h : m % 10 = 0) : 10 * round3Mag tie m = m := by
  unfold round3Mag
  rw [if_pos (by omega)]
  omega

theorem round3_exact (tie : RoundTie) {v : Int} (h : v.natAbs % 10 = 0) : 10 * round3 tie v = v := by
  have hm := round3Mag_exact tie h
  rcases lt_or_ge v 0 with hv | hv
  · rw [round3_neg tie hv]
    omega
  · rw [round3_nonneg tie hv]
    omega

/-- Settles O24: the rounded magnitude is near, and exact where the exponent digit is positive. -/
theorem roundThreeIsNearest : Obligations.RoundThreeIsNearest := by
  refine ⟨fun tie v => ⟨round3_natAbs tie v, fun hv => ?_, fun hv => ?_, ?_⟩, fun tie neg m d hd => ?_,
    fun neg m d h => ?_⟩
  · rw [round3_nonneg tie hv]
    omega
  · rcases hv.lt_or_eq with hv | rfl
    · rw [round3_neg tie hv]
      omega
    · rw [round3_nonneg tie le_rfl]
      simp [round3Mag]
  · have hm := round3Mag_near tie v.natAbs
    rcases lt_or_ge v 0 with hv | hv
    · rw [round3_neg tie hv]
      omega
    · rw [round3_nonneg tie hv]
      omega
  · refine round3_exact tie ?_
    obtain ⟨e, rfl⟩ : ∃ e, d = e + 1 := ⟨d - 1, by omega⟩
    rw [Machine.primaryValue_natAbs, pow_succ, ← mul_assoc, Nat.mul_mod_left]
  · rw [Machine.primaryValue_natAbs] at h
    cases d with
    | zero => exact ⟨rfl, by simpa using h⟩
    | succ e =>
      rw [pow_succ, ← mul_assoc, Nat.mul_mod_left] at h
      omega

/-! ### The correlated colour temperature (41_cl_parser.md R131) -/

theorem cctOf_zero {x y z : Rat} (h : x = 0 ∨ y = 0 ∨ z = 0) : cctOf x y z = some 0 := by rw [cctOf, if_pos h]

/-- A quotient with `s` is `a / b` exactly where `s` times the one is the other. -/
theorem div_eq_ratio_iff {y s : Rat} (hs : s ≠ 0) : y / s = 1858 / 10000 ↔ 1858 / 10000 * s = y := by
  rw [div_eq_iff hs, eq_comm]

theorem cctOf_undefined {x y z : Rat} (h : ¬ (x = 0 ∨ y = 0 ∨ z = 0))
    (hd : x + y + z = 0 ∨ 1858 / 10000 * (x + y + z) = y) : cctOf x y z = none := by
  rw [cctOf, if_neg h]
  dsimp only
  by_cases hs : x + y + z = 0
  · rw [if_pos hs]
  · rw [if_neg hs, if_pos ((div_eq_ratio_iff hs).2 (hd.resolve_left hs))]

/-- The polynomial of R131 in the number `n` its quotient gives. -/
theorem cctOf_polynomial {x y z n : Rat} (h : ¬ (x = 0 ∨ y = 0 ∨ z = 0)) (hs : x + y + z ≠ 0)
    (hn : n * (1858 / 10000 * (x + y + z) - y) = x - 3320 / 10000 * (x + y + z))
    (hy : 1858 / 10000 * (x + y + z) ≠ y) :
    cctOf x y z = some (437 * n ^ 3 + 3601 * n ^ 2 + 6861 * n + 5517) := by
  rw [cctOf, if_neg h]
  dsimp only
  generalize x + y + z = s at hs hn hy ⊢
  have hden : 1858 / 10000 - y / s ≠ 0 := fun h0 => hy ((div_eq_ratio_iff hs).1 (sub_eq_zero.1 h0).symm)
  have hquot : (x / s - 3320 / 10000) / (1858 / 10000 - y / s) = n := by
    rw [div_eq_iff hden]
    field_simp
    linarith
  rw [if_neg hs, if_neg (fun h0 => hy ((div_eq_ratio_iff hs).1 h0)), hquot]

namespace Machine

open Host

/-! ### The line (41_cl_parser.md R120) -/

theorem Cl.byteAt_line {c : Cl} {i : Nat} (h : i < c.rxlen) : byteAt c.line i = byteAt c.rxline i := byteAt_take h

theorem Cl.slice_line {c : Cl} {a b : Nat} (h : b ≤ c.rxlen) : slice c.line a b = slice c.rxline a b := slice_take h

theorem Cl.linePre_eq_none {c : Cl} (h : c.rxstat ≠ .none) : firstFailing [c.linePre] = none := by
  simp [Cl.linePre, h]

/-- Fault entry overwrites every result register but `CL.xyzv`, with values that depend only on how many were
drawn before. -/
theorem Cl.raise_setRes (b : Bool) (x : Code) {c d : Cl} (r : ClResults) (hc : c.hs ≠ .faulted)
    (hr : r.xyzv = c.res.xyzv) (hf : c.free = d.free) :
    (c.setRes r).raise b x = c.afterFault x (x.fatal b) d.loseResults := by
  rw [Cl.raise_afterFault b x (c.setRes r) hc]
  simp [Cl.afterFault, Cl.loseResults, Cl.setRes, ClResults.unspecified, hr, hf]

/-- The same where the result registers are still those of the channel. -/
theorem Cl.raise_afterFault_of (b : Bool) (x : Code) {c d : Cl} (hc : c.hs ≠ .faulted) (hf : c.free = d.free) :
    c.raise b x = c.afterFault x (x.fatal b) d.loseResults := Cl.raise_setRes b x c.res hc rfl hf

/-! ### `CL.CHECK` (41_cl_parser.md R121, R122) -/

theorem isFatalErr_iff (e : Byte) : isFatalErr e = true ↔ e ∈ [ch1, ch2, ch3] := by
  simp [isFatalErr, or_assoc]

/-- The channel after checks (2) and (3). -/
abbrev Cl.warned (c : Cl) : Cl := { c with warn := c.warn.ofErr (byteAt c.line 6) }

theorem Cl.check_short {c : Cl} (h : c.rxlen < 7) : c.check = .raised .malformedFrame c := by rw [Cl.check, if_pos h]

theorem Cl.check_fatal {c : Cl} (h : 7 ≤ c.rxlen) (he : byteAt c.line 6 ∈ [ch1, ch2, ch3]) :
    c.check = .raised .deviceErrorPowerCycle c := by
  rw [Cl.check, if_neg (by omega), if_pos ((isFatalErr_iff _).2 he)]

/-- Past the fatal digits the check goes on with the warnings set. -/
theorem Cl.check_warned {c : Cl} (h : 7 ≤ c.rxlen) (he : byteAt c.line 6 ∉ [ch1, ch2, ch3]) :
    c.check = c.warned.checkBattery := by
  rw [Cl.check, if_neg (by omega), if_neg (fun hf => he ((isFatalErr_iff _).1 hf))]

theorem Cl.checkBattery_short {c : Cl} (h : c.rxlen < 9) : c.checkBattery = .raised .malformedFrame c := by
  rw [Cl.checkBattery, if_pos h]

theorem Cl.checkBattery_low {c : Cl} (h : 9 ≤ c.rxlen) (hb : byteAt c.line 8 = ch1) :
    c.checkBattery = .raised .deviceErrorBattery c := by
  rw [Cl.checkBattery, if_neg (by omega), if_pos hb]

theorem Cl.checkBattery_ok {c : Cl} (h : 9 ≤ c.rxlen) (hb : byteAt c.line 8 ≠ ch1) : c.checkBattery = .done c := by
  rw [Cl.checkBattery, if_neg (by omega), if_neg hb]

/-- `CL.CHECK` on a live channel with a line. -/
theorem exec_clCheck_live {s : State} (hd : s.cl.hs ≠ .faulted) (hl : s.cl.rxstat ≠ .none) (h0 : 0 < s.cl.rxlen) :
    exec .clCheck s =
      s.endCl (Cl.raise false) (s.cl.clearRangeWarnings.check.bind fun c => .done (c.setStatus .ok)) := by
  have hn : s.cl.clearRangeWarnings.rxlen ≠ 0 := by
    show s.cl.rxlen ≠ 0
    omega
  have he : exec .clCheck s = s.clOp [s.cl.linePre] (Cl.raise false) fun c =>
      if c.clearRangeWarnings.rxlen = 0 then .done (c.clearRangeWarnings.setStatus .noData)
      else c.clearRangeWarnings.check.bind fun c => .done (c.setStatus .ok) := rfl
  simp only [he, State.clOp, if_neg hd, Cl.linePre_eq_none hl, if_neg hn]

/-- Settles O20: each outcome of the checks, on the channel with its warnings cleared or set. -/
theorem checkJudgesInOrder : Obligations.CheckJudgesInOrder := by
  rintro s e cleared warned hd hl hlen rfl hcleared hwarned
  have hclear : s.cl.clearRangeWarnings = cleared := hcleared.symm
  have hbyte : ∀ i, i < s.cl.rxlen → byteAt s.cl.clearRangeWarnings.line i = byteAt s.cl.rxline i := fun i hi =>
    Cl.byteAt_line (c := s.cl.clearRangeWarnings) hi
  have hwarn : 7 ≤ s.cl.rxlen → s.cl.clearRangeWarnings.warned = warned := fun h => by
    rw [hwarned, Cl.warned, hbyte 6 (by omega)]
    simp [ClWarn.ofErr, Cl.clearRangeWarnings]
  have hend : ∀ (x : Code) (c : Cl), c = cleared ∨ c = warned → s.endCl (Cl.raise false) (.raised x c) =
      .next (s.setCl (c.afterFault x (x.fatal false) s.cl.loseResults)) := fun x c hc => by
    obtain ⟨hhs, hfree⟩ : c.hs = s.cl.hs ∧ c.free = s.cl.free := by
      obtain rfl | rfl := hc
      · rw [hcleared]; exact ⟨rfl, rfl⟩
      · rw [hwarned]; exact ⟨rfl, rfl⟩
    rw [State.endCl, Cl.raise_afterFault_of false x (hhs ▸ hd) hfree]
  have hbyte8 : 9 ≤ s.cl.rxlen → byteAt s.cl.rxline 8 = byteAt warned.line 8 := fun h => by
    rw [hwarned]
    exact (hbyte 8 (by omega)).symm
  have hpast : 7 ≤ s.cl.rxlen → byteAt s.cl.rxline 6 ∉ [ch1, ch2, ch3] →
      s.cl.clearRangeWarnings.check = warned.checkBattery := fun h he => by
    rw [Cl.check_warned (c := s.cl.clearRangeWarnings) h (by rwa [hbyte 6 (by omega)]), hwarn h]
  have hrun := fun h0 => exec_clCheck_live (s := s) hd hl h0
  refine ⟨fun h0 => ?empty, fun h9 he hb => ?good, s.cl.loseResults, fun h0 h7 => ?short, fun h7 he => ?fatal,
    fun h7 h9 he => ?short9, fun h9 he hb => ?battery⟩
  case empty =>
    have he : exec .clCheck s = s.clOp [s.cl.linePre] (Cl.raise false) fun c =>
        if c.clearRangeWarnings.rxlen = 0 then .done (c.clearRangeWarnings.setStatus .noData)
        else c.clearRangeWarnings.check.bind fun c => .done (c.setStatus .ok) := rfl
    rw [he, s.clOp_done _ _ _ _ hd (Cl.linePre_eq_none hl) (if_pos h0), hclear]
    rfl
  case short =>
    rw [hrun h0, Cl.check_short (c := s.cl.clearRangeWarnings) h7, hclear]
    exact hend _ _ (.inl rfl)
  case fatal =>
    rw [hrun (by omega), Cl.check_fatal (c := s.cl.clearRangeWarnings) h7 (by rwa [hbyte 6 (by omega)]), hclear]
    exact hend _ _ (.inl rfl)
  case short9 =>
    rw [hrun (by omega), hpast h7 he, Cl.checkBattery_short (by rw [hwarned]; exact h9)]
    exact hend _ _ (.inr rfl)
  case battery =>
    rw [hrun (by omega), hpast (by omega) he, Cl.checkBattery_low (by rw [hwarned]; exact h9) (hbyte8 h9 ▸ hb)]
    exact hend _ _ (.inr rfl)
  case good =>
    rw [hrun (by omega), hpast (by omega) he, Cl.checkBattery_ok (by rw [hwarned]; exact h9) (hbyte8 h9 ▸ hb)]
    rfl

/-! ### The value fields (41_cl_parser.md R124, R127) -/

theorem Cl.pval_done {tie : RoundTie} {c : Cl} {m d : Nat} (h : 15 ≤ c.rxlen) (hm : dec4 (slice c.line 10 14) = some m)
    (hd : dig (byteAt c.line 14) = some d) :
    c.pval tie = .done (c.setRes (c.res.withPrimary tie (decide (byteAt c.line 9 ≠ chPlus)) m d)) := by
  rw [Cl.pval, if_neg (by omega), hm, hd]

theorem Cl.pval_raised {tie : RoundTie} {c : Cl}
    (h : c.rxlen < 15 ∨ dec4 (slice c.line 10 14) = none ∨ dig (byteAt c.line 14) = none) :
    c.pval tie = .raised .malformedFrame c := by
  unfold Cl.pval
  split
  · rfl
  · next hlen =>
    split
    · next m d hm hd =>
      rcases h.resolve_left hlen with hn | hn
      · exact absurd (hm.symm.trans hn) (by simp)
      · exact absurd (hd.symm.trans hn) (by simp)
    · rfl

/-- The bytes of the primary field that are no digits. -/
theorem primary_eq_none {l : List Byte} (h : ∃ j, 10 ≤ j ∧ j ≤ 14 ∧ dig (byteAt l j) = none) :
    dec4 (slice l 10 14) = none ∨ dig (byteAt l 14) = none := by
  obtain ⟨j, h10, h14, hj⟩ := h
  rcases Nat.lt_or_eq_of_le h14 with hlt | rfl
  · exact .inl (dec4_slice_eq_none (a := 10) ⟨h10, hlt⟩ hj)
  · exact .inr hj

theorem Cl.psec_done {c : Cl} {a b : Nat} (h : 26 ≤ c.rxlen) (ha : dec4 (slice c.line 16 20) = some a)
    (hb : dec4 (slice c.line 22 26) = some b) : c.psec = .done (c.setRes { c.res with s1 := a, s2 := b }) := by
  rw [Cl.psec, if_neg (by omega), ha, hb]

theorem Cl.psec_raised {c : Cl}
    (h : c.rxlen < 26 ∨ dec4 (slice c.line 16 20) = none ∨ dec4 (slice c.line 22 26) = none) :
    c.psec = .raised .malformedFrame c := by
  unfold Cl.psec
  split
  · rfl
  · next hlen =>
    split
    · next a b ha hb =>
      rcases h.resolve_left hlen with hn | hn
      · exact absurd (ha.symm.trans hn) (by simp)
      · exact absurd (hb.symm.trans hn) (by simp)
    · rfl

/-- The bytes of the secondary fields that are no digits. -/
theorem secondary_eq_none {l : List Byte}
    (h : ∃ j, (16 ≤ j ∧ j ≤ 19 ∨ 22 ≤ j ∧ j ≤ 25) ∧ dig (byteAt l j) = none) :
    dec4 (slice l 16 20) = none ∨ dec4 (slice l 22 26) = none := by
  obtain ⟨j, ⟨hlo, hhi⟩ | ⟨hlo, hhi⟩, hj⟩ := h
  · exact .inl (dec4_slice_eq_none (a := 16) ⟨hlo, by omega⟩ hj)
  · exact .inr (dec4_slice_eq_none (a := 22) ⟨hlo, by omega⟩ hj)

/-- Settles O21: the fields of the line are the digits given. -/
theorem pvalDerivesTheValue : Obligations.PvalDerivesTheValue := by
  intro s m3 m2 m1 m0 d hd hl h15 _ h3 h2 h1 h0 hd9 hb3 hb2 hb1 hb0 hbd
  have hbyte : ∀ i < 15, byteAt s.cl.line i = byteAt s.cl.rxline i := fun i hi => Cl.byteAt_line (by omega)
  have hm : dec4 (slice s.cl.line 10 14) = some (1000 * m3 + 100 * m2 + 10 * m1 + m0) := by
    rw [dec4_slice, hbyte 10 (by omega), hbyte 11 (by omega), hbyte 12 (by omega), hbyte 13 (by omega), hb3, hb2, hb1,
      hb0, dig_digit _ (by omega), dig_digit _ (by omega), dig_digit _ (by omega), dig_digit _ (by omega)]
    rfl
  have hdig : dig (byteAt s.cl.line 14) = some d := by rw [hbyte 14 (by omega), hbd, dig_digit _ (by omega)]
  have hrun : exec .clPval s = s.endCl (Cl.raise false)
      ((s.cl.pval s.straps.roundTie).bind fun c => .done (c.setStatus .ok)) := by
    rw [exec_clPval_eq, State.clOp, if_neg hd, Cl.linePre_eq_none hl]
  refine ⟨primaryValue (decide (byteAt s.cl.rxline 9 ≠ 0x2B)) (1000 * m3 + 100 * m2 + 10 * m1 + m0) d, fun hp => ?_,
    fun hn => ?_, ?_⟩
  · rw [hp]
    simp [primaryValue]
  · rw [decide_eq_true hn]
    simp [primaryValue]
  · rw [hrun, Cl.pval_done h15 hm hdig, hbyte 9 (by omega)]
    rfl

/-- Settles O22: the two fields of the line are the digits given. -/
theorem psecDerivesTheValues : Obligations.PsecDerivesTheValues := by
  intro s a3 a2 a1 a0 b3 b2 b1 b0 hd hl h26 _ ⟨ha3, ha2, ha1, ha0, hb3, hb2, hb1, hb0⟩ ha hb
  have hfst : dec4 (slice s.cl.line 16 20) = some (1000 * a3 + 100 * a2 + 10 * a1 + a0) := by
    rw [Cl.slice_line (by omega), ha, dec4_digits ⟨ha3, ha2, ha1, ha0⟩]
  have hsnd : dec4 (slice s.cl.line 22 26) = some (1000 * b3 + 100 * b2 + 10 * b1 + b0) := by
    rw [Cl.slice_line (by omega), hb, dec4_digits ⟨hb3, hb2, hb1, hb0⟩]
  rw [exec_clPsec_eq, State.clOp, if_neg hd, Cl.linePre_eq_none hl, Cl.psec_done h26 hfst hsnd]
  rfl

/-- Settles O23: both parsers raise before they write. -/
theorem valueFieldFaults : Obligations.ValueFieldFaults := by
  intro s hd hl
  refine ⟨s.cl.loseResults, fun h => ?_, fun h => ?_⟩
  · rw [exec_clPval_eq, State.clOp, if_neg hd, Cl.linePre_eq_none hl, Cl.pval_raised (h.imp id primary_eq_none)]
    exact congrArg (fun c => Host.Outcome.next (s.setCl c)) (Cl.raise_afterFault false _ s.cl hd)
  · rw [exec_clPsec_eq, State.clOp, if_neg hd, Cl.linePre_eq_none hl, Cl.psec_raised (h.imp id secondary_eq_none)]
    exact congrArg (fun c => Host.Outcome.next (s.setCl c)) (Cl.raise_afterFault false _ s.cl hd)

/-! ### `CL.CCT` (41_cl_parser.md R130) -/

/-- `CL.CCT` on a live channel with a colour value. -/
theorem exec_clCct_live {s : State} {x y z : Rat} (hd : s.cl.hs ≠ .faulted) (hv : s.cl.res.xyzv = true)
    (hxyz : s.cl.res.xyz = (x, y, z)) :
    exec .clCct s = match cctOf x y z with
      | some v => .next (s.setCl { s.cl with status := .ok, res := { s.cl.res with cct := v } })
      | none => .next (s.setCl (s.cl.raise false .cctDivide)) := by
  rw [exec_clCct_eq, State.clOp, if_neg hd, Cl.computeCct, hxyz]
  simp only [firstFailing, hv, if_true]
  cases cctOf x y z <;> rfl

/-- Settles O25: the three cases of the formula. -/
theorem cctEvaluatesThePolynomial : Obligations.CctEvaluatesThePolynomial := by
  intro s x y z hd hv hxyz
  rw [exec_clCct_live hd hv hxyz]
  refine ⟨fun h => ?_, fun hx hy hz n hs hn hden => ?_, fun hx hy hz h => ⟨s.cl.loseResults, ?_⟩⟩
  · rw [cctOf_zero h]
  · rw [cctOf_polynomial (by simp [hx, hy, hz]) hs hn hden]
  · rw [cctOf_undefined (by simp [hx, hy, hz]) h, Cl.raise_afterFault false _ s.cl hd]
    rfl

end Machine

end Sys2Proof
end

section
/-! The measurement cycle (42_cl_sequencer.md R147 to R150). -/

namespace Sys2Proof.Machine

open Host

/-! ### What a measurement does with the line it has read (R147) -/

/-- The parsing of R147 past the checks. -/
def Cl.measValues (p : Straps) (i : CmdId) (c : Cl) : Res Cl :=
  (c.pval p.roundTie).bind fun c => (if i = .c02 then .done c else c.psec).bind fun c => .done (c.deliver i)

theorem Cl.measParse_empty {p : Straps} {i : CmdId} {c : Cl} (h : c.rxlen = 0) :
    c.measParse p i = .done c.measNoData := by rw [Cl.measParse, if_pos h]

theorem Cl.measParse_eq {p : Straps} {i : CmdId} {c : Cl} (h : c.rxlen ≠ 0) :
    c.measParse p i = c.check.bind (Cl.measValues p i) := by
  rw [Cl.measParse, if_neg h]
  rfl

theorem Cl.measValues_malformed_primary {p : Straps} {i : CmdId} {c : Cl}
    (h : c.rxlen < 15 ∨ dec4 (slice c.line 10 14) = none ∨ dig (byteAt c.line 14) = none) :
    c.measValues p i = .raised .malformedFrame c := by rw [Cl.measValues, Cl.pval_raised h, Res.bind_raised]

/-- Past a good primary field, the value registers are written whatever the secondary fields are. -/
theorem Cl.measValues_primary {p : Straps} {i : CmdId} {c : Cl} {m d : Nat} (h : 15 ≤ c.rxlen)
    (hm : dec4 (slice c.line 10 14) = some m) (hd : dig (byteAt c.line 14) = some d) :
    c.measValues p i = Res.bind
      ((if i = .c02 then .done else Cl.psec)
        (c.setRes (c.res.withPrimary p.roundTie (decide (byteAt c.line 9 ≠ chPlus)) m d)))
      fun c => .done (c.deliver i) := by
  rw [Cl.measValues, Cl.pval_done h hm hd, Res.bind_done]
  split <;> rfl

/-! ### The line of a response (R149) -/

/-- The channel of a measurement that has read its response. -/
def Cl.measRead (p : Straps) (i : CmdId) (l : List Byte) (rest : List Turn) (c : Cl) : Cl :=
  { (c.clearRangeWarnings.clearNres).received p.rxlineCap l with
    txbuf := (c.loadFrame p i).txbuf
    txlen := 14
    rxstat := RxStat.ofResponse l
    port := { c.port with
      rxq := []
      txq := cmdFrame p .c40r ++ cmdFrame p i
      hist := c.port.hist ++ (.flush :: Event.sent p .c40r ++ Event.sent p i ++ Event.response l)
      turns := rest } }

section
variable (p : Straps) (i : CmdId) (l : List Byte) (rest : List Turn) (c : Cl)

theorem Cl.line_measRead : (c.measRead p i l rest).line = l.take p.rxlineCap :=
  Cl.line_received p.rxlineCap l c.clearRangeWarnings.clearNres

@[simp] theorem Cl.measRead_rxlen : (c.measRead p i l rest).rxlen = min l.length p.rxlineCap := rfl

/-- The buffer holds every byte that is parsed (00_scope.md R8). -/
theorem Cl.measRead_byteAt (hp : p.Wf) {k : Nat} (hk : k < 27) :
    byteAt (c.measRead p i l rest).line k = byteAt l k := by
  rw [Cl.line_measRead, byteAt_take (hk.trans_le hp.1)]

theorem Cl.measRead_slice (hp : p.Wf) {a b : Nat} (hb : b ≤ 27) :
    slice (c.measRead p i l rest).line a b = slice l a b := by
  rw [Cl.line_measRead, slice_take (hb.trans hp.1)]

theorem Cl.measRead_le_rxlen (hp : p.Wf) {k : Nat} (hk : k ≤ 27) : k ≤ (c.measRead p i l rest).rxlen ↔ k ≤ l.length
    := by
  obtain ⟨hcap, -⟩ := hp
  rw [Cl.measRead_rxlen]
  omega

end

/-- `CL.MEAS` answered by a response is the parsing of it. -/
theorem exec_clMeas_response {s : State} {c : CmdId} {line : List Byte} {rest : List Turn} (hs : s.cl.hs = .ready)
    (hr : c.isRead = true) (h40r : Template.wf (s.straps.cmdTable.get .c40r) = true)
    (hc : Template.wf (s.straps.cmdTable.get c) = true) (hp : s.straps.Wf)
    (hl : s.cl.rxline.length = s.straps.rxlineCap) (hb : s.cl.port.broken = false)
    (ht : s.cl.port.turns = Turn.measurement line ++ rest) (hresp : IsResponse line) :
    exec (.clMeas c) s =
      s.endCl Cl.measRaise ((s.cl.measRead s.straps c line rest).measParse s.straps c) := by
  have hcap : 0 < s.straps.rxlineCap := lt_of_lt_of_le (by decide) hp.1
  rw [exec_clMeas_eq s hr, State.clOp, if_neg (by simp [hs]), (execClMeas_pre_iff s c).2 ⟨hs, h40r, hc⟩,
    Cl.measure_response s.straps hcap c s.cl line rest ht hb hl hresp h40r hc]
  rfl

/-! ### Faults (R149) -/

theorem Cl.measRaise_setRes {x : Code} (hx : x ≠ .transportError) {c d : Cl} (r : ClResults) (hc : c.hs ≠ .faulted)
    (hr : r.xyzv = c.res.xyzv) (hf : c.free = d.free) :
    (c.setRes r).measRaise x = (c.afterFault x (x.fatal false) d.loseResults).clearNres := by
  rw [Cl.measRaise, if_neg hx, Cl.raise_setRes false x r hc hr hf]

/-- A malformed primary or secondary field, as the order of R149 meets them: the values written before the fault are
lost with the rest. -/
theorem Cl.measValues_malformed {p : Straps} {i : CmdId} {c : Cl}
    (h : c.rxlen < 15 ∨ dec4 (slice c.line 10 14) = none ∨ dig (byteAt c.line 14) = none ∨
      i ≠ .c02 ∧ (c.rxlen < 26 ∨ dec4 (slice c.line 16 20) = none ∨ dec4 (slice c.line 22 26) = none)) :
    ∃ r : ClResults, r.xyzv = c.res.xyzv ∧ c.measValues p i = .raised .malformedFrame (c.setRes r) := by
  by_cases hprim : c.rxlen < 15 ∨ dec4 (slice c.line 10 14) = none ∨ dig (byteAt c.line 14) = none
  · exact ⟨c.res, rfl, Cl.measValues_malformed_primary hprim⟩
  · obtain ⟨hi, hsec⟩ : i ≠ .c02 ∧ (c.rxlen < 26 ∨ dec4 (slice c.line 16 20) = none ∨
        dec4 (slice c.line 22 26) = none) := by tauto
    simp only [not_or, not_lt, ← ne_eq, Option.ne_none_iff_exists'] at hprim
    obtain ⟨hlen, ⟨m, hm⟩, d, hd⟩ := hprim
    refine ⟨c.res.withPrimary p.roundTie (decide (byteAt c.line 9 ≠ chPlus)) m d, rfl, ?_⟩
    rw [Cl.measValues_primary hlen hm hd, if_neg hi]
    generalize c.res.withPrimary _ _ _ _ = r
    rw [Cl.psec_raised (c := c.setRes r) hsec, Res.bind_raised]

/-- Settles O31: the checks of the line and its fields fail in their order. -/
theorem measFaultsAreSurfaced : Obligations.MeasFaultsAreSurfaced := by
  intro s c line rest e hs hread h40r hc hp hl hb ht hresp hne he
  have hlen : 0 < line.length := List.length_pos_of_ne_nil hne
  have hrun := exec_clMeas_response hs hread h40r hc hp hl hb ht hresp
  have hbyte : ∀ k < 27, byteAt (s.cl.measRead s.straps c line rest).line k = byteAt line k := fun k hk =>
    Cl.measRead_byteAt _ _ _ _ _ hp hk
  have hslice : ∀ a b, b ≤ 27 → slice (s.cl.measRead s.straps c line rest).line a b = slice line a b :=
    fun a b hk => Cl.measRead_slice _ _ _ _ _ hp hk
  have hle : ∀ k ≤ 27, k ≤ (s.cl.measRead s.straps c line rest).rxlen ↔ k ≤ line.length := fun k hk =>
    Cl.measRead_le_rxlen _ _ _ _ _ hp hk
  have hlt : ∀ k ≤ 27, (s.cl.measRead s.straps c line rest).rxlen < k ↔ line.length < k := fun k hk => by
    rw [← not_le, hle k hk, not_le]
  have hbuf : (s.cl.measRead s.straps c line rest).txbuf.toList = cmdFrame s.straps c :=
    Cl.loadFrame_txbuf s.straps c s.cl hc
  rw [Cl.measParse_eq (Nat.pos_iff_ne_zero.1 ((hle 1 (by omega)).2 hlen))] at hrun
  obtain ⟨got, hgot⟩ : ∃ got, got = s.cl.measRead s.straps c line rest := ⟨_, rfl⟩
  rw [← hgot] at hrun hbyte hslice hle hlt hbuf
  obtain ⟨warned, hwarned⟩ : ∃ w : Cl, w = { got with
    res := s.cl.res, warn := { got.warn with range := decide (e = ch5), lowLum := decide (e = ch6) } } := ⟨_, rfl⟩
  have hgotWarned : got.warned = warned.setRes got.res := by
    rw [hwarned, Cl.warned, hbyte 6 (by omega), ← he, hgot]
    simp [Cl.setRes, ClWarn.ofErr, Cl.measRead, Cl.received, Cl.clearRangeWarnings, Cl.clearNres]
  have hxyzv : got.res.xyzv = s.cl.res.xyzv := by rw [hgot]; rfl
  have hpast : 7 ≤ line.length → e ∉ [ch1, ch2, ch3] → got.check = got.warned.checkBattery := fun h7 hok =>
    Cl.check_warned ((hle 7 (by omega)).2 h7) (by rwa [hbyte 6 (by omega), ← he])
  have hend : ∀ (x : Code) (d : Cl) (r : ClResults), x ≠ .transportError → r.xyzv = s.cl.res.xyzv →
      d = got.setRes s.cl.res ∨ d = warned → s.endCl Cl.measRaise (.raised x (d.setRes r)) =
        .next (s.setCl (d.afterFault x (x.fatal false) s.cl.loseResults).clearNres) := fun x d r hx hr hd => by
    obtain ⟨hhs, hres, hfree⟩ : d.hs = s.cl.hs ∧ d.res = s.cl.res ∧ d.free = s.cl.free := by
      obtain rfl | rfl := hd
      · rw [hgot]; exact ⟨rfl, rfl, rfl⟩
      · rw [hwarned, hgot]; exact ⟨rfl, rfl, rfl⟩
    rw [State.endCl, Cl.measRaise_setRes hx r (by simp [hhs, hs]) (hr.trans (by rw [hres])) hfree]
  refine ⟨got.txbuf, got.setRes s.cl.res, warned, s.cl.loseResults, hbuf, by rw [hgot]; rfl, hwarned,
    fun h7 => ?short, fun h7 herr => ?fatal, fun h7 hok => ⟨fun h9 hbat => ?battery, fun h => ?malformed⟩⟩
  case short =>
    rw [hrun, Cl.check_short ((hlt 7 (by omega)).2 h7)]
    exact hend _ _ got.res (by simp) hxyzv (.inl rfl)
  case fatal =>
    rw [hrun, Cl.check_fatal ((hle 7 (by omega)).2 h7) (by rwa [hbyte 6 (by omega), ← he])]
    exact hend _ _ got.res (by simp) hxyzv (.inl rfl)
  case battery =>
    rw [hrun, hpast h7 hok, Cl.checkBattery_low (c := got.warned) ((hle 9 (by omega)).2 h9) ((hbyte 8 (by
        omega)).trans hbat), hgotWarned]
    exact hend _ _ got.res (by simp) hxyzv (.inr rfl)
  case malformed =>
    rw [hrun, hpast h7 hok]
    by_cases h9 : line.length < 9
    · rw [Cl.checkBattery_short (c := got.warned) ((hlt 9 (by omega)).2 h9), hgotWarned]
      exact hend _ _ got.res (by simp) hxyzv (.inr rfl)
    · obtain ⟨hbat, hfields⟩ := h.resolve_left h9
      rw [← hlt 15 (by omega), ← hslice 10 14 (by omega), ← hbyte 14 (by omega), ← hlt 26 (by omega),
        ← hslice 16 20 (by omega), ← hslice 22 26 (by omega)] at hfields
      obtain ⟨r, hr, hraised⟩ := Cl.measValues_malformed (p := s.straps) (i := c) (c := got.warned) hfields
      rw [Cl.checkBattery_ok (c := got.warned) ((hle 9 (by omega)).2 (not_lt.1 h9)) (fun h => hbat ((hbyte 8 (by
          omega)).symm.trans h)),
        Res.bind_done, hraised, hgotWarned]
      exact hend _ _ r (by simp) (hr.trans hxyzv) (.inr rfl)

/-! ### Values (R147, R148) -/

/-- The value registers of R148, after a good response. -/
theorem Cl.measValues_done {p : Straps} {i : CmdId} {c : Cl} {m d a b : Nat} (h : 15 ≤ c.rxlen)
    (hm : dec4 (slice c.line 10 14) = some m) (hd : dig (byteAt c.line 14) = some d)
    (hsec : i ≠ .c02 → 26 ≤ c.rxlen ∧ dec4 (slice c.line 16 20) = some a ∧ dec4 (slice c.line 22 26) = some b) :
    c.measValues p i = .done (Cl.deliver i (c.setRes { c.res.withPrimary p.roundTie
      (decide (byteAt c.line 9 ≠ chPlus)) m d with
        s1 := if i = .c02 then c.res.s1 else a, s2 := if i = .c02 then c.res.s2 else b })) := by
  rw [Cl.measValues_primary h hm hd]
  by_cases hi : i = .c02
  · simp only [if_pos hi, Res.bind_done]
    rfl
  · obtain ⟨h26, ha, hb⟩ := hsec hi
    simp only [if_neg hi]
    generalize c.res.withPrimary _ _ _ _ = r
    rw [Cl.psec_done (c := c.setRes r) h26 ha hb, Res.bind_done]
    rfl

theorem isRead_iff (c : CmdId) : c.isRead = true ↔ c = .c01 ∨ c = .c02 ∨ c = .c08 := by
  cases c <;> simp [CmdId.isRead]

/-- Settles O28: the response passes every check, and its fields are delivered. -/
theorem measDeliversTheValues : Obligations.MeasDeliversTheValues := by
  intro s c line rest m d a b hs hread h40r hc hp hl hb ht hresp h15 herr hbat hm hd hsec
  have hrun := exec_clMeas_response hs hread h40r hc hp hl hb ht hresp
  have hbyte : ∀ k < 27, byteAt (s.cl.measRead s.straps c line rest).line k = byteAt line k := fun k hk =>
    Cl.measRead_byteAt _ _ _ _ _ hp hk
  have hslice : ∀ a b, b ≤ 27 → slice (s.cl.measRead s.straps c line rest).line a b = slice line a b :=
    fun a b hk => Cl.measRead_slice _ _ _ _ _ hp hk
  have hle : ∀ k ≤ 27, k ≤ (s.cl.measRead s.straps c line rest).rxlen ↔ k ≤ line.length := fun k hk =>
    Cl.measRead_le_rxlen _ _ _ _ _ hp hk
  have hbuf : (s.cl.measRead s.straps c line rest).txbuf.toList = cmdFrame s.straps c :=
    Cl.loadFrame_txbuf s.straps c s.cl hc
  obtain ⟨got, hgot⟩ : ∃ got, got = s.cl.measRead s.straps c line rest := ⟨_, rfl⟩
  rw [← hgot] at hrun hbyte hslice hle hbuf
  have hvalues := Cl.measValues_done (p := s.straps) (i := c) (c := got.warned) (m := m) (d := d) (a := a) (b := b)
    ((hle 15 (by omega)).2 h15) ((congrArg dec4 (hslice 10 14 (by omega))).trans hm)
    ((congrArg dig (hbyte 14 (by omega))).trans hd) fun hi => by
      obtain ⟨h26, ha, hb⟩ := hsec hi
      exact ⟨(hle 26 (by omega)).2 h26, (congrArg dec4 (hslice 16 20 (by omega))).trans ha,
        (congrArg dec4 (hslice 22 26 (by omega))).trans hb⟩
  refine ⟨got.txbuf, primaryValue (decide (byteAt line 9 ≠ chPlus)) m d, _, hbuf, ?_, rfl, ?_⟩
  · by_cases hsign : byteAt line 9 = chPlus
    · rw [if_pos hsign, hsign]
      simp [primaryValue]
    · rw [if_neg hsign, decide_eq_true hsign]
      simp [primaryValue]
  · rw [hrun, Cl.measParse_eq (Nat.pos_iff_ne_zero.1 ((hle 1 (by omega)).2 (by omega))),
      Cl.check_warned ((hle 7 (by omega)).2 (by omega)) (by rwa [hbyte 6 (by omega)]),
      Cl.checkBattery_ok (c := got.warned) ((hle 9 (by omega)).2 (by omega)) (fun h => hbat ((hbyte 8 (by
          omega)).symm.trans h)),
      Res.bind_done, hvalues, State.endCl]
    have h9 : byteAt got.warned.line 9 = byteAt line 9 := hbyte 9 (by omega)
    rw [h9, Cl.warned, hbyte 6 (by omega), hgot]
    obtain rfl | rfl | rfl := (isRead_iff c).1 hread <;> rfl

/-! ### No answer (R149 (d)) -/

/-- `rxline()` on a silent line with nothing queued: the first read is a timeout (40_cl_framer.md R112). -/
theorem Cl.rxlineOp_silent (p : Straps) {c : Cl} (hs : c.port.Silent) (hq : c.port.rxq = []) :
    c.rxlineOp p = .done { c.rxStart.setPort (c.port.record (.timeout .clRead)) with rxstat := .empty } := by
  rw [Cl.rxlineOp, Cl.rxLoop]
  rw [show c.rxStart.port = c.port from rfl, Port.rxNext_silent_nil c.port _ hs hq]
  rfl

/-- A measurement on a silent line ends `NoData` after its timeout. -/
theorem Cl.measure_silent (p : Straps) (i : CmdId) {c : Cl} (h : c.port.Silent)
    (hr : Template.wf (p.cmdTable.get .c40r) = true) (hw : Template.wf (p.cmdTable.get i) = true) :
    c.measure p i = .done (Cl.measNoData { c.clearRangeWarnings.clearNres.rxStart with
      txbuf := (c.loadFrame p i).txbuf
      txlen := 14
      rxstat := .empty
      port := { c.port with
        rxq := []
        txq := cmdFrame p .c40r ++ cmdFrame p i
        hist := c.port.hist ++ (.flush :: Event.sent p .c40r ++ Event.sent p i ++ [.timeout .clRead]) } }) := by
  obtain ⟨hb, ht, hstream⟩ := h
  rw [Cl.quiet_measure p i c 0 (Port.Silent.quiet ⟨hb, ht, hstream⟩ _) hr hw, Cl.rxlineOp_silent,
    Res.bind_done, Cl.measParse_empty rfl]
  · simp [Cl.setPort, Cl.rxStart, Port.record, ht]
  · exact ⟨hb, by simp [ht], hstream⟩
  · rfl

/-- Settles O30: the read ends at once, and nothing is parsed. -/
theorem measWithoutAnAnswer : Obligations.MeasWithoutAnAnswer := by
  intro s c hs hread hsilent h40r hc
  rw [exec_clMeas_eq s hread, State.clOp_done s _ _ _ _ (by simp [hs]) ((execClMeas_pre_iff s c).2 ⟨hs, h40r, hc⟩)
    (Cl.measure_silent s.straps c hsilent h40r hc)]
  exact ⟨_, rfl, rfl, hs, rfl, rfl, rfl, rfl, rfl, rfl, rfl⟩

/-! ### The events of a measurement (R150) -/

/-- Where a step of an operation is done it has recorded events that satisfy `E`; where it raises, a `LinkErr`. -/
def Cl.Records (c : Cl) (E : List Event → Prop) (r : Res Cl) : Prop :=
  r.Sat (fun d => ∃ evs, E evs ∧ d.port.hist = c.port.hist ++ evs)
    fun _ d => ∃ evs w, Event.linkErr w ∈ evs ∧ d.port.hist = c.port.hist ++ evs

theorem Cl.Records.bind {c : Cl} {l : List Event} {E : List Event → Prop} {r : Res Cl} {f : Cl → Res Cl}
    (hr : c.Records (· = l) r) (hf : ∀ d : Cl, d.Records E (f d)) :
    c.Records (fun evs => ∃ after, E after ∧ evs = l ++ after) (r.bind f) := by
  refine Res.Sat.bind hr fun d hd => ?_
  obtain ⟨evs, rfl, hd⟩ := hd
  refine (hf d).mono ?_ ?_
  · rintro e ⟨after, hE, he⟩
    exact ⟨evs ++ after, ⟨after, hE, rfl⟩, by rw [he, hd, List.append_assoc]⟩
  · rintro _ e ⟨after, w, hw, he⟩
    exact ⟨evs ++ after, w, List.mem_append_right _ hw, by rw [he, hd, List.append_assoc]⟩

theorem Cl.Records.mono {c : Cl} {E F : List Event → Prop} {r : Res Cl} (hr : c.Records E r) (h : ∀ evs,
    E evs → F evs) :
    c.Records F r := Res.Sat.mono hr (fun _ ⟨evs, hE, he⟩ => ⟨evs, h evs hE, he⟩) fun _ _ h => h

/-- Two steps whose events are known. -/
theorem Cl.Records.seq {c : Cl} {l m : List Event} {r : Res Cl} {f : Cl → Res Cl} (hr : c.Records (· = l) r)
    (hf : ∀ d : Cl, d.Records (· = m) (f d)) : c.Records (· = l ++ m) (r.bind f) :=
  (hr.bind hf).mono fun _ ⟨_, hm, he⟩ => hm ▸ he

/-- A primitive that is done records its event. -/
theorem Cl.afterAck_records (c : Cl) {e : Event} (w : Option Wait) {act : Port → Port}
    (hact : ∀ q, (act q).hist = q.hist ++ [e]) : c.Records (· = [e]) (c.afterAck (c.port.primitive w act)) := by
  rcases Port.primitive_cases c.port w act with ⟨he, _⟩ | ⟨he, _⟩ | ⟨he, _⟩ <;> rw [he]
  · exact ⟨[.linkErr w], w, by simp, by simp [Port.record]⟩
  · trivial
  · exact ⟨[e], rfl, by simp [hact]⟩

theorem Cl.flush_records (c : Cl) : c.Records (· = [.flush]) c.flush := Cl.afterAck_records c none fun _ => rfl

theorem Cl.settle_records (k : SettleClass) (c : Cl) : c.Records (· = [.settle k]) (c.settle k) :=
  Cl.afterAck_records c (some (.settle k)) fun _ => rfl

theorem Cl.txBytes_records (bs : List Byte) (c : Cl) : c.Records (· = bs.map Event.tx) (Cl.txBytes bs c) := by
  induction bs generalizing c with
  | nil => exact ⟨[], rfl, by simp⟩
  | cons b bs ih =>
    exact Cl.Records.seq (l := [.tx b]) (Cl.afterAck_records c (e := .tx b) none fun _ => rfl) ih

theorem Cl.send_records {p : Straps} {i : CmdId} (hw : Template.wf (p.cmdTable.get i) = true) (c : Cl) :
    c.Records (· = Event.sent p i) (c.send p i) := by
  have h := Cl.Records.seq (Cl.txBytes_records (c.loadFrame p i).txbuf.toList (c.loadFrame p i))
    (Cl.settle_records i.settleClass)
  rw [Cl.loadFrame_txbuf p i c hw] at h
  rw [Cl.send, Cl.transmit, Cl.loadFrame_txbuf p i c hw]
  exact h

/-- The events of a response line, up to its `LF` or a timeout (40_cl_framer.md R112). -/
def Event.IsRead (evs : List Event) : Prop :=
  ∃ (bs : List Byte) (last : Event), lf ∉ bs ∧ (last = .rx .clRead lf ∨ last = .timeout .clRead) ∧
    evs = bs.map (Event.rx .clRead) ++ [last]

theorem Event.IsRead.cons {b : Byte} {evs : List Event} (hb : b ≠ lf) (h : Event.IsRead evs) :
    Event.IsRead (.rx .clRead b :: evs) := by
  obtain ⟨bs, last, hbs, hlast, rfl⟩ := h
  exact ⟨b :: bs, last, by rw [List.mem_cons, not_or]; exact ⟨hb.symm, hbs⟩, hlast, rfl⟩

theorem Cl.rxLoop_records (cap fuel : Nat) (c : Cl) : c.Records Event.IsRead (Cl.rxLoop cap fuel c) := by
  induction fuel generalizing c with
  | zero => trivial
  | succ fuel ih =>
    rw [Cl.rxLoop]
    rcases Port.rxNext_cases c.port .clRead with ⟨he, _⟩ | ⟨b, r, _, he, _⟩ | ⟨he, _⟩ | ⟨he,
        _⟩ <;> rw [he] <;> dsimp only
    · exact ⟨[.linkErr (some (.read .clRead))], some (.read .clRead), by simp, by simp [Port.record]⟩
    · split
      · next hb => exact ⟨[.rx .clRead b], ⟨[], _, by simp, .inl (by rw [hb]), rfl⟩, by simp [Port.record]⟩
      · next hb =>
        have hport : ∀ q : Port, (((c.setPort q).storeRx cap b).port.hist) = q.hist := fun q => by simp
        refine Res.Sat.mono (ih _) ?_ ?_
        · rintro d ⟨evs, hevs, hd⟩
          exact ⟨_, hevs.cons hb, by rw [hd, hport]; simp [Port.record]⟩
        · rintro _ d ⟨evs, w, hw, hd⟩
          exact ⟨.rx .clRead b :: evs, w, by simp [hw], by rw [hd, hport]; simp [Port.record]⟩
    · trivial
    · exact ⟨[.timeout .clRead], ⟨[], _, by simp, .inr rfl, rfl⟩, by simp [Port.record]⟩

/-- A measurement up to its parsing. -/
def Cl.measTalk (p : Straps) (i : CmdId) (c : Cl) : Res Cl :=
  (c.clearRangeWarnings.clearNres).flush.bind fun c => (c.send p .c40r).bind fun c => (c.send p i).bind fun c =>
    c.rxlineOp p

theorem Cl.measure_eq (p : Straps) (i : CmdId) (c : Cl) :
    c.measure p i = (c.measTalk p i).bind fun d => d.measParse p i := by
  simp only [Cl.measure, Cl.measTalk, Res.bind_assoc]

/-- The events of R150. -/
def Event.Measured (p : Straps) (i : CmdId) (evs : List Event) : Prop :=
  ∃ read, Event.IsRead read ∧ evs = [.flush] ++ (Event.sent p .c40r ++ (Event.sent p i ++ read))

theorem Cl.measTalk_records {p : Straps} {i : CmdId} (hr : Template.wf (p.cmdTable.get .c40r) = true)
    (hw : Template.wf (p.cmdTable.get i) = true) (c : Cl) :
    c.Records (Event.Measured p i) (c.measTalk p i) := by
  have hread : ∀ d : Cl, d.Records Event.IsRead (d.rxlineOp p) := fun d => Cl.rxLoop_records _ _ d.rxStart
  refine ((Cl.flush_records c.clearRangeWarnings.clearNres).bind fun d =>
    (Cl.send_records hr d).bind fun d => (Cl.send_records hw d).bind hread).mono ?_
  rintro evs ⟨_, ⟨_, ⟨read, hread, rfl⟩, rfl⟩, rfl⟩
  exact ⟨read, hread, rfl⟩

/-! The parsing calls no primitive. -/

def Cl.SamePort (c d : Cl) : Prop := d.port = c.port

theorem Cl.SamePort.tr (c d e : Cl) (h1 : c.SamePort d) (h2 : d.SamePort e) : c.SamePort e := h2.trans h1

theorem Cl.checkBattery_port (c : Cl) : c.checkBattery.Kept Cl.SamePort c := by
  unfold Cl.checkBattery
  split
  · rfl
  · split <;> rfl

theorem Cl.check_port (c : Cl) : c.check.Kept Cl.SamePort c := by
  unfold Cl.check
  split
  · rfl
  · split
    · rfl
    · exact Cl.checkBattery_port _

theorem Cl.pval_port (tie : RoundTie) (c : Cl) : (c.pval tie).Kept Cl.SamePort c := by
  unfold Cl.pval
  split
  · rfl
  · split <;> rfl

theorem Cl.psec_port (c : Cl) : c.psec.Kept Cl.SamePort c := by
  unfold Cl.psec
  split
  · rfl
  · split <;> rfl

theorem Cl.measParse_port (p : Straps) (i : CmdId) (c : Cl) : (c.measParse p i).Kept Cl.SamePort c := by
  by_cases h : c.rxlen = 0
  · rw [Cl.measParse_empty h]
    rfl
  · rw [Cl.measParse_eq h]
    refine (Cl.check_port c).bind Cl.SamePort.tr fun d _ => (Cl.pval_port _ d).bind Cl.SamePort.tr fun e _ => ?_
    by_cases hi : i = .c02
    · rw [if_pos hi]
      rfl
    · rw [if_neg hi]
      exact (Cl.psec_port e).bind Cl.SamePort.tr fun _ _ => rfl

theorem Cl.measRaise_port (x : Code) (c : Cl) : (c.measRaise x).port = c.port := by
  rw [Cl.measRaise]
  split
  · rw [Cl.raise_frame]
  · rw [Cl.raise_frame]
    rfl

/-- A measurement that ends without `LinkErr` has recorded the events of R150, all before it parses. -/
theorem Cl.measure_records {p : Straps} {i : CmdId} (hr : Template.wf (p.cmdTable.get .c40r) = true)
    (hw : Template.wf (p.cmdTable.get i) = true) (c : Cl) :
    (c.measure p i).Sat (fun d => ∃ evs, Event.Measured p i evs ∧ d.port.hist = c.port.hist ++ evs)
      fun _ d => ∃ evs, (Event.Measured p i evs ∨ ∃ w, Event.linkErr w ∈ evs) ∧ d.port.hist = c.port.hist ++ evs := by
  rw [Cl.measure_eq]
  refine Res.Sat.bind (Res.Sat.mono (Cl.measTalk_records hr hw c) (fun _ h => h) ?raised) fun d hd => ?parsed
  case raised =>
    rintro _ d ⟨evs, w, hlink, hd⟩
    exact ⟨evs, .inr ⟨w, hlink⟩, hd⟩
  case parsed =>
    obtain ⟨evs, hevs, hd⟩ := hd
    refine Res.Sat.mono (Cl.measParse_port p i d) (fun e he => ?_) fun _ e he => ?_
    · exact ⟨evs, hevs, by rw [he, hd]⟩
    · exact ⟨evs, .inl hevs, by rw [he, hd]⟩

/-- Settles O29: by the three ways a measurement can end. -/
theorem measHistoryIsExact : Obligations.MeasHistoryIsExact := by
  intro s t c evs hs hread h40r hc hexec hbusy hhist hlink
  suffices h : Event.Measured s.straps c evs by
    obtain ⟨_, ⟨bs, last, hbs, hlast, rfl⟩, rfl⟩ := h
    refine ⟨bs, last, hbs, hlast, ?_⟩
    obtain rfl | rfl | rfl := (isRead_iff c).1 hread <;> simp [Event.sent, CmdId.settleClass]
  have hrec := Cl.measure_records h40r hc s.cl
  rw [exec_clMeas_eq s hread] at hexec
  rcases State.clOp_cases s _ _ _ t hexec with
    ⟨hf, _⟩ | ⟨_, x, hx, _⟩ | ⟨_, _, ⟨d, hd, rfl⟩ | ⟨x, d, hd, rfl⟩ | ⟨d, hd, rfl⟩⟩
  · simp [hs] at hf
  · rw [(execClMeas_pre_iff s c).2 ⟨hs, h40r, hc⟩] at hx
    cases hx
  · rw [hd] at hrec
    obtain ⟨evs', hevs, hh⟩ := hrec
    rwa [List.append_cancel_left (hhist.symm.trans hh)]
  · rw [hd] at hrec
    obtain ⟨evs', hevs, hh⟩ := hrec
    obtain rfl : evs = evs' := List.append_cancel_left (hhist.symm.trans ((congrArg Port.hist (Cl.measRaise_port x
        d)).trans hh))
    exact hevs.resolve_right fun ⟨w, hw⟩ => hlink w hw
  · cases hbusy

end Sys2Proof.Machine
end

section
/-! The handshake (42_cl_sequencer.md R140 to R146). -/

namespace Sys2Proof.Machine

open Host

/-! ### Where a handshake can be -/

/-- A channel on the way of a handshake begun at `c₀`: all it has written, with the transport buffers and the line
left open (R140 to R144). -/
def Cl.Along (c₀ : Cl) (hs : Hs) (pcTry extTry : Nat) (lenient : Bool) (evs : List Event) (ts : List Turn)
    (c : Cl) : Prop :=
  c = { c₀ with
    hs := hs
    pcTry := pcTry
    extTry := extTry
    warn := { c₀.warn with hsLenient := lenient, overrun := c.warn.overrun }
    txbuf := c.txbuf
    txlen := c.txlen
    rxline := c.rxline
    rxlen := c.rxlen
    rxstat := c.rxstat
    port := { c₀.port with rxq := c.port.rxq, txq := c.port.txq, turns := ts, hist := c₀.port.hist ++ evs } } ∧
  c.rxline.length = c₀.rxline.length

/-- A channel whose last exchange sent command `i` and was answered by `l` (40_cl_framer.md R112). -/
def Cl.Answered (p : Straps) (i : CmdId) (l : List Byte) (c : Cl) : Prop :=
  c.line = l.take p.rxlineCap ∧ c.rxlen = min l.length p.rxlineCap ∧ c.rxstat = RxStat.ofResponse l ∧
    c.warn.overrun = decide (p.rxlineCap < l.length) ∧ c.txbuf.toList = cmdFrame p i ∧ c.txlen = 14 ∧
    c.port.rxq = [] ∧ c.port.txq = cmdFrame p i

theorem Cl.received_rxline_length {cap : Nat} {l : List Byte} {c : Cl} (h : c.rxline.length = cap) :
    (c.received cap l).rxline.length = cap := by
  simp [Cl.received, h]
  omega

section
variable {c₀ c : Cl} {hs : Hs} {pcTry extTry : Nat} {lenient : Bool} {evs : List Event} {ts : List Turn}

theorem Cl.Along.hs_eq (h : c₀.Along hs pcTry extTry lenient evs ts c) : c.hs = hs := by rw [h.1]

theorem Cl.Along.free_eq (h : c₀.Along hs pcTry extTry lenient evs ts c) : c.free = c₀.free := by rw [h.1]

theorem Cl.Along.turns_eq (h : c₀.Along hs pcTry extTry lenient evs ts c) : c.port.turns = ts := by rw [h.1]

theorem Cl.Along.broken_eq (h : c₀.Along hs pcTry extTry lenient evs ts c) : c.port.broken = c₀.port.broken := by
  rw [h.1]

theorem Cl.along_initStart (c₀ : Cl) : c₀.Along c₀.hs 0 0 false [] c₀.port.turns c₀.initStart := by
  simp [Cl.Along, Cl.initStart]

theorem Cl.Along.setHs (h : c₀.Along hs pcTry extTry lenient evs ts c) (hs' : Hs) :
    c₀.Along hs' pcTry extTry lenient evs ts (c.setHs hs') := by
  obtain ⟨he, hl⟩ := h
  exact ⟨by rw [he]; rfl, hl⟩

/-- An answered attempt of `command_54` on the way. -/
theorem Cl.Along.attempt54 {p : Straps} {l : List Byte} (hc : 0 < p.rxlineCap) (hb : c₀.port.broken = false)
    (hlen : c₀.rxline.length = p.rxlineCap) (hw : Template.wf (p.cmdTable.get .c54) = true) (hr : IsResponse l)
    (h : c₀.Along hs pcTry extTry lenient evs (Turn.exchange l ++ ts) c) :
    ∃ d, c.attempt54 p = .done d ∧
      c₀.Along hs (pcTry + 1) extTry lenient (evs ++ Event.exchange p .c54 l) ts d ∧ d.Answered p .c54 l := by
  have hrun := Cl.attempt54_response p hc c l ts h.turns_eq (h.broken_eq.trans hb) (h.2.trans hlen) hr hw
  refine ⟨_, hrun, ⟨?_, ?_⟩, Cl.line_received p.rxlineCap l c, rfl, rfl, rfl, Cl.loadFrame_txbuf p .c54 c hw, rfl,
      rfl, rfl⟩
  · rw [h.1]
    simp [Cl.received]
  · exact (Cl.received_rxline_length (h.2.trans hlen)).trans hlen.symm

/-- An answered attempt of `command_40` on the way. -/
theorem Cl.Along.attempt40 {p : Straps} {l : List Byte} (hc : 0 < p.rxlineCap) (hb : c₀.port.broken = false)
    (hlen : c₀.rxline.length = p.rxlineCap) (hw : Template.wf (p.cmdTable.get .c40) = true) (hr : IsResponse l)
    (h : c₀.Along hs pcTry extTry lenient evs (Turn.exchange l ++ ts) c) :
    ∃ d, c.attempt40 p = .done d ∧
      c₀.Along .extMode pcTry (extTry + 1) lenient (evs ++ Event.exchange p .c40 l) ts d ∧ d.Answered p .c40 l := by
  have hrun := Cl.attempt40_response p hc c l ts h.turns_eq (h.broken_eq.trans hb) (h.2.trans hlen) hr hw
  refine ⟨_, hrun, ⟨?_, ?_⟩, Cl.line_received p.rxlineCap l c, rfl, rfl, rfl, Cl.loadFrame_txbuf p .c40 c hw, rfl,
      rfl, rfl⟩
  · rw [h.1]
    simp [Cl.received]
  · exact (Cl.received_rxline_length (h.2.trans hlen)).trans hlen.symm

/-- The hold on the way. -/
theorem Cl.Along.hold {p : Straps} (hb : c₀.port.broken = false) (hw : Template.wf (p.cmdTable.get .c55) = true)
    (h : c₀.Along hs pcTry extTry lenient evs (Turn.send ++ ts) c) :
    ∃ d, c.hold p = .done d ∧ c₀.Along .held pcTry extTry lenient (evs ++ Event.hold p) ts d := by
  have hq : c.port.Quiet (16 + 0) := ⟨h.broken_eq.trans hb, by simp [h.turns_eq, Turn.send]⟩
  refine ⟨_, Cl.quiet_hold p c 0 hq hw, ?_, h.2⟩
  have hts : c.port.turns.drop 16 = ts := by simp [h.turns_eq, Turn.send]
  rw [hts, h.1]
  simp [Event.hold]

/-- The rejected attempts of step 1 (R141). -/
theorem Cl.Along.step1_fails {p : Straps} (hc : 0 < p.rxlineCap) (hb : c₀.port.broken = false)
    (hlen : c₀.rxline.length = p.rxlineCap) (hw : Template.wf (p.cmdTable.get .c54) = true) (fails : List (List Byte))
    (hf : ∀ l ∈ fails, IsResponse l ∧ p.ack54.accepts (l.take p.rxlineCap) = false)
    (h : c₀.Along hs pcTry extTry lenient evs (fails.flatMap Turn.exchange ++ ts) c) :
    ∃ d, (∀ n, Cl.step1 p (fails.length + n) c = Cl.step1 p n d) ∧
      c₀.Along hs (pcTry + fails.length) extTry lenient (evs ++ fails.flatMap (Event.exchange p .c54)) ts d ∧
      ∀ l ∈ fails.getLast?, d.Answered p .c54 l := by
  induction fails using List.reverseRecOn generalizing ts with
  | nil => exact ⟨c, fun n => by simp, by simpa using h, by simp⟩
  | append_singleton fails l ih =>
    obtain ⟨hresp, hrej⟩ := hf l (by simp)
    obtain ⟨d, hd, hal, _⟩ := ih (ts := Turn.exchange l ++ ts) (fun k hk => hf k (by simp [hk])) (by simpa using h)
    obtain ⟨e, he, hal', hans⟩ := hal.attempt54 hc hb hlen hw hresp
    refine ⟨e, fun n => ?_, by simpa [Nat.add_assoc] using hal', by simpa using hans⟩
    have hstep : Cl.step1 p (n + 1) d = Cl.step1 p n e := by
      rw [Cl.step1, he, Res.bind_done, hans.1, hrej]
      rfl
    rw [← hstep, ← hd (n + 1)]
    congr 1
    simp
    omega

/-- Step 1 of a handshake that goes on (R141, R142). -/
theorem Cl.Along.step1 {p : Straps} (hc : 0 < p.rxlineCap) (hb : c₀.port.broken = false)
    (hlen : c₀.rxline.length = p.rxlineCap) (hw : Template.wf (p.cmdTable.get .c54) = true) {fails : List (List Byte)}
    {ack : Option (List Byte)}
    (hf : ∀ l ∈ fails, IsResponse l ∧ p.ack54.accepts (l.take p.rxlineCap) = false)
    (hack : ∀ l ∈ ack, IsResponse l ∧ p.ack54.accepts (l.take p.rxlineCap) = true ∧ fails.length < p.pcAttempts)
    (hnone : ack = none → fails.length = p.pcAttempts ∧ p.hsStrict = false)
    (h : c₀.Along hs 0 extTry false evs ((fails ++ ack.toList).flatMap Turn.exchange ++ ts) c) :
    ∃ d, Cl.step1 p p.pcAttempts c = .done d ∧ c₀.Along .pcConnected (fails.length + ack.toList.length) extTry
        ack.isNone
      (evs ++ (fails ++ ack.toList).flatMap (Event.exchange p .c54)) ts d := by
  cases ack with
  | none =>
    obtain ⟨hlast, hstrict⟩ := hnone rfl
    obtain ⟨d, hd, hal, _⟩ := Cl.Along.step1_fails hc hb hlen hw fails hf (by simpa using h)
    refine ⟨Cl.setHs { d with warn := { d.warn with hsLenient := true } } .pcConnected, ?_, ?_, hal.2⟩
    · have hstep := hd 0
      rw [Nat.add_zero, hlast] at hstep
      rw [hstep, Cl.step1, Cl.exhausted54, hstrict]
      rfl
    · rw [hal.1]
      simp [Cl.setHs]
  | some l =>
    obtain ⟨hresp, hacc, hlt⟩ := hack l rfl
    obtain ⟨d, hd, hal, _⟩ := Cl.Along.step1_fails (ts := Turn.exchange l ++ ts) hc hb hlen hw fails hf (by simpa
        using h)
    obtain ⟨e, he, hal', hans⟩ := hal.attempt54 hc hb hlen hw hresp
    refine ⟨e.setHs .pcConnected, ?_, ?_⟩
    · have hstep := hd (p.pcAttempts - fails.length - 1 + 1)
      rw [show fails.length + (p.pcAttempts - fails.length - 1 + 1) = p.pcAttempts by omega] at hstep
      rw [hstep, Cl.step1, he, Res.bind_done, hans.1, hacc]
      rfl
    · simpa using hal'.setHs .pcConnected

/-! ### Step 3 (R144, R145) -/

theorem Cl.classify40_short {on4 : Cl → Res Cl} (h : c.rxlen < 7) : c.classify40 on4 = .raised .malformedFrame c := by
  rw [Cl.classify40, if_pos h]

theorem Cl.classify40_four {on4 : Cl → Res Cl} (h : 7 ≤ c.rxlen) (h4 : byteAt c.line 6 = ch4) :
    c.classify40 on4 = on4 c := by rw [Cl.classify40, if_neg (by omega), if_pos h4]

theorem Cl.classify40_fatal {on4 : Cl → Res Cl} (h : 7 ≤ c.rxlen) (he : byteAt c.line 6 ∈ [ch1, ch2, ch3]) :
    c.classify40 on4 = .raised .deviceErrorPowerCycle c := by
  have h4 : byteAt c.line 6 ≠ ch4 := by
    rintro h4
    rw [h4] at he
    exact absurd he (by decide)
  rw [Cl.classify40, if_neg (by omega), if_neg h4, if_pos ((isFatalErr_iff _).2 he)]

theorem Cl.classify40_ready {on4 : Cl → Res Cl} (h : 7 ≤ c.rxlen) (he : byteAt c.line 6 ∉ [ch1, ch2, ch3, ch4]) :
    c.classify40 on4 = .done (c.setHs .ready) := by
  have h4 : byteAt c.line 6 ≠ ch4 := fun h4 => he (by rw [h4]; decide)
  have hf : ¬ isFatalErr (byteAt c.line 6) = true := fun hf => he (by
    have := (isFatalErr_iff _).1 hf
    simp only [List.mem_cons] at this ⊢
    tauto)
  rw [Cl.classify40, if_neg (by omega), if_neg h4, if_neg hf]

/-- What a `'4'` on an attempt of step 3 leads to, with a number of attempts left. -/
def Cl.onFour (p : Straps) (left : Nat) : Cl → Res Cl :=
  match left with
  | 0 => Cl.exhausted40 p
  | left + 1 => fun c => (c.hold p).bind (Cl.step3 p left)

theorem Cl.step3_eq (p : Straps) (left : Nat) (c : Cl) :
    Cl.step3 p left c = (c.attempt40 p).bind (Cl.classify40 (Cl.onFour p left)) := by
  cases left <;> rfl

theorem Cl.Answered.rxlen_le {p : Straps} {i : CmdId} {l : List Byte} (hp : p.Wf) (h : c.Answered p i l) :
    7 ≤ c.rxlen ↔ 7 ≤ l.length := by
  obtain ⟨hcap, -⟩ := hp
  rw [h.2.1]
  omega

theorem Cl.Answered.byteAt_six {p : Straps} {i : CmdId} {l : List Byte} (hp : p.Wf) (h : c.Answered p i l) :
    byteAt c.line 6 = byteAt l 6 := by
  obtain ⟨hcap, -⟩ := hp
  rw [h.1, byteAt_take (by omega)]

/-- The attempts of step 3 that are answered with a `'4'` and followed by another hold. -/
theorem Cl.Along.step3_fours {p : Straps} (hp : p.Wf) (hb : c₀.port.broken = false)
    (hlen : c₀.rxline.length = p.rxlineCap) (h55 : Template.wf (p.cmdTable.get .c55) = true)
    (h40 : Template.wf (p.cmdTable.get .c40) = true) (fours : List (List Byte))
    (hf : ∀ l ∈ fours, IsResponse l ∧ 7 ≤ l.length ∧ byteAt l 6 = ch4)
    (h : c₀.Along .held pcTry extTry lenient evs ((fours.flatMap fun l => Turn.exchange l ++ Turn.send) ++ ts) c) :
    ∃ d, (∀ n, Cl.step3 p (fours.length + n) c = Cl.step3 p n d) ∧
      c₀.Along .held pcTry (extTry + fours.length) lenient
        (evs ++ fours.flatMap fun l => Event.exchange p .c40 l ++ Event.hold p) ts d := by
  have hc : 0 < p.rxlineCap := lt_of_lt_of_le (by decide) hp.1
  induction fours generalizing c extTry evs with
  | nil => exact ⟨c, fun n => by simp, by simpa using h⟩
  | cons l fours ih =>
    obtain ⟨hresp, h7, h4⟩ := hf l (by simp)
    obtain ⟨d, hd, hal, hans⟩ := Cl.Along.attempt40
      (ts := Turn.send ++ ((fours.flatMap fun l => Turn.exchange l ++ Turn.send) ++ ts)) hc hb hlen h40 hresp
      (by simpa using h)
    obtain ⟨e, he, hale⟩ := hal.hold hb h55
    obtain ⟨g, hg, halg⟩ := ih (fun k hk => hf k (by simp [hk])) hale
    refine ⟨g, fun n => ?_, by simpa [Nat.add_assoc, Nat.add_comm 1] using halg⟩
    rw [List.length_cons, Nat.add_right_comm, Cl.step3_eq, hd, Res.bind_done,
      Cl.classify40_four ((hans.rxlen_le hp).2 h7) ((hans.byteAt_six hp).trans h4)]
    rw [show Cl.onFour p (fours.length + n + 1) d = (d.hold p).bind (Cl.step3 p (fours.length + n)) from rfl, he,
      Res.bind_done, hg n]

end

/-- A handshake whose responses are given, up to the classification of the last one. -/
theorem Cl.handshake_responses {c₀ : Cl} {p : Straps} {fails : List (List Byte)} {ack : Option (List Byte)}
    {fours : List (List Byte)} {l40 : List Byte} {rest : List Turn} (hp : p.Wf)
    (hw : ∀ c ∈ [CmdId.c54, .c55, .c40], Template.wf (p.cmdTable.get c) = true)
    (hlen : c₀.rxline.length = p.rxlineCap) (hb : c₀.port.broken = false)
    (hts : c₀.port.turns = Turn.handshake (fails ++ ack.toList) fours l40 ++ rest)
    (hf : ∀ l ∈ fails, IsResponse l ∧ p.ack54.accepts (l.take p.rxlineCap) = false)
    (hack : ∀ l ∈ ack, IsResponse l ∧ p.ack54.accepts (l.take p.rxlineCap) = true ∧ fails.length < p.pcAttempts)
    (hnone : ack = none → fails.length = p.pcAttempts ∧ p.hsStrict = false)
    (h4 : ∀ l ∈ fours, IsResponse l ∧ 7 ≤ l.length ∧ byteAt l 6 = ch4) (hlt : fours.length < p.extAttempts)
    (hr : IsResponse l40) :
    ∃ c : Cl, c₀.handshake p = (c.classify40 (Cl.onFour p (p.extAttempts - 1 - fours.length))).bind
        (fun c => .done (c.setStatus .ok)) ∧
      c₀.Along .extMode (fails.length + ack.toList.length) (fours.length + 1) ack.isNone
        ((fails ++ ack.toList).flatMap (Event.exchange p .c54) ++ Event.hold p ++
          (fours.flatMap fun l => Event.exchange p .c40 l ++ Event.hold p) ++ Event.exchange p .c40 l40) rest c ∧
      c.Answered p .c40 l40 := by
  have hcap : 0 < p.rxlineCap := lt_of_lt_of_le (by decide) hp.1
  have h54 := hw .c54 (by simp)
  have h55 := hw .c55 (by simp)
  have h40 := hw .c40 (by simp)
  have h0 := Cl.along_initStart c₀
  rw [hts, Turn.handshake] at h0
  simp only [List.append_assoc] at h0
  obtain ⟨c1, hrun1, h1⟩ := Cl.Along.step1 hcap hb hlen h54 hf hack hnone h0
  obtain ⟨c2, hrun2, h2⟩ := h1.hold hb h55
  obtain ⟨c3, hrun3, h3⟩ := h2.step3_fours hp hb hlen h55 h40 fours h4
  obtain ⟨c4, hrun4, h4, hans⟩ := h3.attempt40 hcap hb hlen h40 hr
  refine ⟨c4, ?_, by simpa [Nat.add_comm 0] using h4, hans⟩
  have hstep := hrun3 (p.extAttempts - 1 - fours.length)
  rw [show fours.length + (p.extAttempts - 1 - fours.length) = p.extAttempts - 1 by omega] at hstep
  rw [Cl.handshake, hrun1, Res.bind_done, hrun2, Res.bind_done, hstep, Cl.step3_eq, hrun4, Res.bind_done]

/-- Settles O26: the last response decides, by its classification. -/
theorem initFollowsTheResponses : Obligations.InitFollowsTheResponses := by
  intro s fails ack fours l40 rest hs hw hp hlen hb hts hf hack hnone h4 hlt hr
  obtain ⟨c, hrun, hal, hans⟩ := Cl.handshake_responses hp hw hlen hb hts hf hack hnone h4 hlt hr
  have hpre := (execClInit_pre_iff s).2 ⟨hs, hw .c54 (by simp), hw .c55 (by simp), hw .c40 (by simp)⟩
  have hexec : exec .clInit s = s.endCl (Cl.raise true) ((c.classify40 (Cl.onFour s.straps
      (s.straps.extAttempts - 1 - fours.length))).bind fun c => .done (c.setStatus .ok)) := by
    rw [exec_clInit_eq, State.clOp, if_neg (by simp [hs]), hpre, hrun]
  have hle := hans.rxlen_le hp
  have hsix := hans.byteAt_six hp
  have hraise : ∀ x : Code, c.raise true x = c.afterFault x (x.fatal true) s.cl.loseResults := fun x =>
    Cl.raise_afterFault_of true x (by simp [hal.hs_eq]) hal.free_eq
  obtain ⟨hline, hrxlen, hstat, hover, hbuf, htxlen, hrxq, htxq⟩ := hans
  refine ⟨c, s.cl.loseResults, hline, hbuf, ?frame, fun h7 => ?short, fun h7 he => ?fatal, fun h7 he hlast => ?four,
    fun h7 he => ?ready⟩
  case frame =>
    conv_lhs => rw [hal.1]
    rw [hrxlen, hstat, hover, htxlen, hrxq, htxq]
    simp
  case short =>
    rw [hexec, Cl.classify40_short (by omega)]
    exact congrArg (fun c => Host.Outcome.next (s.setCl c)) (hraise _)
  case fatal =>
    rw [hexec, Cl.classify40_fatal (hle.2 h7) (by rwa [hsix])]
    exact congrArg (fun c => Host.Outcome.next (s.setCl c)) (hraise _)
  case four =>
    rw [hexec, Cl.classify40_four (hle.2 h7) (hsix.trans he),
      show s.straps.extAttempts - 1 - fours.length = 0 by omega, Cl.onFour, Cl.exhausted40]
    refine ⟨fun hfault => ?_, fun hready => ?_⟩
    · have hheld : (c.setHs .held).raise true .extNotEntered = c.afterFault .extNotEntered true s.cl.loseResults :=
        Cl.raise_afterFault_of true _ (c := c.setHs .held) (by simp [Cl.setHs]) hal.free_eq
      rw [hfault, ← hheld]
      rfl
    · rw [hready]
      rfl
  case ready =>
    rw [hexec, Cl.classify40_ready (hle.2 h7) (by rwa [hsix])]
    rfl

/-! ### Without an acknowledgement (R142, R146) -/

/-- What an exchange on a silent line leaves of a handshake. -/
def Cl.Unheard (c d : Cl) : Prop := d.port.Silent ∧ d.line = [] ∧ d.warn.hsLenient = c.warn.hsLenient

theorem Cl.attempt54_silent {p : Straps} {c : Cl} (hs : c.port.Silent)
    (hw : Template.wf (p.cmdTable.get .c54) = true) :
    ∃ d, c.attempt54 p = .done d ∧ c.Unheard d ∧ d.pcTry = c.pcTry + 1 ∧ d.extTry = c.extTry ∧ d.hs = c.hs := by
  obtain ⟨hb, ht, hstream⟩ := hs
  refine ⟨_, (Cl.quiet_attempt54 p c 0 (Port.Silent.quiet ⟨hb, ht,
      hstream⟩ _) hw).trans (Cl.rxlineOp_silent p ?_ rfl), ?_,
    rfl, rfl, rfl⟩
  · exact ⟨hb, by simp [ht], hstream⟩
  · exact ⟨⟨hb, by simp [Cl.setPort, Port.record, ht], hstream⟩, rfl, rfl⟩

theorem Cl.attempt40_silent {p : Straps} {c : Cl} (hs : c.port.Silent)
    (hw : Template.wf (p.cmdTable.get .c40) = true) :
    ∃ d, c.attempt40 p = .done d ∧ c.Unheard d ∧ d.rxlen = 0 ∧ d.pcTry = c.pcTry ∧ d.extTry = c.extTry + 1 ∧
      d.hs = .extMode := by
  obtain ⟨hb, ht, hstream⟩ := hs
  refine ⟨_, (Cl.quiet_attempt40 p c 0 (Port.Silent.quiet ⟨hb, ht,
      hstream⟩ _) hw).trans (Cl.rxlineOp_silent p ?_ rfl), ?_,
    rfl, rfl, rfl, rfl⟩
  · exact ⟨hb, by simp [ht], hstream⟩
  · exact ⟨⟨hb, by simp [Cl.setPort, Port.record, ht], hstream⟩, rfl, rfl⟩

theorem Cl.hold_silent {p : Straps} {c : Cl} (hs : c.port.Silent) (hw : Template.wf (p.cmdTable.get .c55) = true) :
    ∃ d, c.hold p = .done d ∧ d.port.Silent ∧ d.warn = c.warn ∧ d.pcTry = c.pcTry ∧ d.extTry = c.extTry := by
  obtain ⟨hb, ht, hstream⟩ := hs
  exact ⟨_, Cl.quiet_hold p c 0 (Port.Silent.quiet ⟨hb, ht, hstream⟩ _) hw, ⟨hb, by simp [ht], hstream⟩, rfl, rfl, rfl⟩

/-- Step 1 on a silent line whose empty answer is no acknowledgement (R141). -/
theorem Cl.step1_silent {p : Straps} (hw : Template.wf (p.cmdTable.get .c54) = true) (hack : p.ack54.accepts [] = false)
    (n : Nat) {c : Cl} (hs : c.port.Silent) :
    ∃ d : Cl, Cl.step1 p n c = d.exhausted54 p ∧ d.port.Silent ∧ d.warn.hsLenient = c.warn.hsLenient ∧
      d.pcTry = c.pcTry + n ∧ d.extTry = c.extTry ∧ d.hs = c.hs := by
  induction n generalizing c with
  | zero => exact ⟨c, rfl, hs, rfl, rfl, rfl, rfl⟩
  | succ n ih =>
    obtain ⟨d, hd, ⟨hsd, hline, hlen⟩, hpc, hext, hhs⟩ := Cl.attempt54_silent hs hw
    obtain ⟨e, he, hse, hlen', hpc', hext', hhs'⟩ := ih hsd
    refine ⟨e, ?_, hse, hlen'.trans hlen, by omega, hext'.trans hext, hhs'.trans hhs⟩
    rw [Cl.step1, hd, Res.bind_done, hline, hack, ← he]
    rfl

/-- A handshake on a silent line raises: at the end of step 1 where it is strict, else at the first answer of step 3. -/
theorem Cl.handshake_silent {p : Straps} (hw : ∀ c ∈ [CmdId.c54, .c55, .c40], Template.wf (p.cmdTable.get c) = true)
    (hack : p.ack54.accepts [] = false) {c : Cl} (hs : c.port.Silent) (hhs : c.hs ≠ .faulted) :
    ∃ d x, c.handshake p = .raised x d ∧ d.hs ≠ .faulted ∧ x.fatal true = true ∧ d.pcTry = p.pcAttempts ∧
      (p.hsStrict = true → x = .handshakeFail ∧ d.extTry = 0 ∧ d.warn.hsLenient = false) ∧
      (p.hsStrict = false → x = .malformedFrame ∧ d.extTry = 1 ∧ d.warn.hsLenient = true) := by
  obtain ⟨d, hrun, hsd, hlen, hpc, hext, hhsd⟩ := Cl.step1_silent (hw .c54 (by simp)) hack p.pcAttempts (c :=
      c.initStart) hs
  have hpc : d.pcTry = p.pcAttempts := hpc.trans (Nat.zero_add _)
  cases hstrict : p.hsStrict with
  | true =>
    refine ⟨d, .handshakeFail, ?_, hhsd ▸ hhs, rfl, hpc, fun _ => ⟨rfl, hext, hlen⟩, by simp⟩
    rw [Cl.handshake, hrun, Cl.exhausted54, if_pos hstrict]
    rfl
  | false =>
    obtain ⟨e, hhold, hse, hlene, hpce, hexte⟩ := Cl.hold_silent (p := p)
      (c := Cl.setHs { d with warn := { d.warn with hsLenient := true } } .pcConnected) hsd (hw .c55 (by simp))
    obtain ⟨g, hg, ⟨hsg, _, hleng⟩, hrx, hpcg, hextg, hhsg⟩ := Cl.attempt40_silent hse (hw .c40 (by simp))
    refine ⟨g, .malformedFrame, ?_, by simp [hhsg], rfl, (hpcg.trans hpce).trans hpc, by simp, fun _ => ⟨rfl, ?_, ?_⟩⟩
    · rw [Cl.handshake, hrun, Cl.exhausted54, hstrict, if_neg (by simp), Res.bind_done, hhold, Res.bind_done,
        Cl.step3_eq, hg, Res.bind_done, Cl.classify40_short (by omega)]
      rfl
    · rw [hextg, hexte]
      exact congrArg (· + 1) hext
    · rw [hleng, hlene]
      rfl

/-- Settles O27: no attempt of step 1 is acknowledged. -/
theorem initWithoutAnAcknowledgement : Obligations.InitWithoutAnAcknowledgement := by
  refine ⟨fun s hs hsilent hp hw hack => ?silent, fun s fails rest hs hw hp hlen hb hstrict hts hall hf => ?rejected⟩
  all_goals
    have hpre := (execClInit_pre_iff s).2 ⟨hs, hw .c54 (by simp), hw .c55 (by simp), hw .c40 (by simp)⟩
    have hlive : s.cl.hs ≠ .faulted := by simp [hs]
  case silent =>
    obtain ⟨d, x, hrun, hhs, hfatal, hpc, hfail, hmal⟩ := Cl.handshake_silent hw hack hsilent hlive
    rw [exec_clInit_eq, State.clOp_raised s _ _ _ x d hlive hpre hrun]
    obtain ⟨hfaulted, hfault⟩ := Cl.raise_fatal true x d hfatal hhs
    have hframe := Cl.raise_frame true x d
    generalize d.raise true x = c at hfaulted hfault hframe
    exact ⟨_, rfl, hfaulted, by rw [hframe]; exact hfault, by rw [hframe]; exact hpc, by rw [hframe]; exact hfail,
      by rw [hframe]; exact hmal⟩
  case rejected =>
    have h0 := Cl.along_initStart s.cl
    rw [hts] at h0
    obtain ⟨d, hrun, hal, hans⟩ := h0.step1_fails (lt_of_lt_of_le (by decide) hp.1) hb hlen (hw .c54 (by simp)) fails hf
    have hbody : s.cl.handshake s.straps = .raised .handshakeFail d := by
      have hstep := hrun 0
      rw [Nat.add_zero, hall] at hstep
      rw [Cl.handshake, hstep, Cl.step1, Cl.exhausted54, if_pos hstrict, Res.bind_raised]
    refine ⟨d, s.cl.loseResults, ?_, fun l hl => ?_, ?_⟩
    · simpa using hal.1
    · obtain ⟨hline, _, hstat, hover, hbuf, htxlen, hrxq, htxq⟩ := hans l hl
      exact ⟨hline, hstat, hover, hbuf, htxlen, hrxq, htxq⟩
    · rw [exec_clInit_eq, State.clOp_raised s _ _ _ _ d hlive hpre hbody,
        Cl.raise_afterFault_of true _ (by rwa [hal.hs_eq]) hal.free_eq]
      rfl

end Sys2Proof.Machine
end

section
/-! Frames of `UT`: the raw block and its decoding, the byte scan and the synchronizer (43_ut_frame.md). -/

namespace Sys2Proof

/-! ### The raw frame of a payload (30_encoding.md R78, R79) -/

/-- The bytes of a list written two to an item. -/
theorem byteAt_flatMap_pair (f g : Byte → Byte) (l r : List Byte) {k : Nat} (hk : k < l.length) :
    byteAt ((l.flatMap fun b => [f b, g b]) ++ r) (2 * k) = f (byteAt l k) ∧
      byteAt ((l.flatMap fun b => [f b, g b]) ++ r) (2 * k + 1) = g (byteAt l k) := by
  induction l generalizing k with
  | nil => simp at hk
  | cons b l ih =>
    cases k with
    | zero => exact ⟨rfl, rfl⟩
    | succ k => exact ih (Nat.lt_of_succ_lt_succ hk)

theorem length_flatMap_pair (f g : Byte → Byte) (l : List Byte) :
    (l.flatMap fun b => [f b, g b]).length = 2 * l.length := by
  induction l with
  | nil => rfl
  | cons b l ih =>
    simp only [List.flatMap_cons, List.length_append, ih, List.length_cons, List.length_nil]
    omega

theorem hiNibble_prefix (b : Byte) : hiNibble (0x30 ||| (b &&& 0x0F)) = 3 ∧ hiNibble (0x30 ||| (b >>> 4)) = 3 := by
  simp only [hiNibble_eq_three_iff]
  constructor <;> (ext i hi; interval_cases i <;> simp)

theorem pairNibbles_prefix (b : Byte) : pairNibbles (0x30 ||| (b &&& 0x0F)) (0x30 ||| (b >>> 4)) = b := by
  ext i hi
  interval_cases i <;> simp [pairNibbles]

section
variable {payload : List Byte} {last : Byte} (hl : payload.length = 15)
include hl

theorem rawFrameOf_length : (rawFrameOf payload last).length = 33 := by
  rw [rawFrameOf, List.length_append, length_flatMap_pair, hl]
  rfl

theorem rawFrameOf_pair {k : Nat} (hk : k < 15) :
    byteAt (rawFrameOf payload last) (2 * k) = 0x30 ||| (byteAt payload k &&& 0x0F) ∧
      byteAt (rawFrameOf payload last) (2 * k + 1) = 0x30 ||| (byteAt payload k >>> 4) :=
  byteAt_flatMap_pair _ _ payload _ (hl ▸ hk)

/-- The bytes after the pairs. -/
theorem rawFrameOf_tail (k : Nat) :
    byteAt (rawFrameOf payload last) (30 + k) = byteAt [cr, lf, last] k := by
  have hp : (payload.flatMap fun b => [(0x30 : Byte) ||| (b &&& 0x0F), (0x30 : Byte) ||| (b >>> 4)]).length = 30 := by
    rw [length_flatMap_pair, hl]
  rw [byteAt, byteAt, rawFrameOf, List.getD_append_right _ _ _ _ (by omega), hp, Nat.add_sub_cancel_left]

theorem rawFrameOf_wellFormed : WellFormedRaw (rawFrameOf payload last) := by
  refine ⟨rawFrameOf_length hl, fun i hi => ?_, rawFrameOf_tail hl 0, rawFrameOf_tail hl 1⟩
  obtain ⟨heven, hodd⟩ := rawFrameOf_pair (last := last) hl (k := i / 2) (by omega)
  obtain ⟨hlo, hhi⟩ := hiNibble_prefix (byteAt payload (i / 2))
  rcases Nat.mod_two_eq_zero_or_one i with h | h
  · rw [show i = 2 * (i / 2) by omega, heven, hlo]
  · rw [show i = 2 * (i / 2) + 1 by omega, hodd, hhi]

theorem payloadOf_rawFrameOf : (payloadOf (rawFrameOf payload last) 33).toList = payload := by
  refine List.ext_getElem (by simp [hl]) fun k hk hk' => ?_
  have hk15 : k < 15 := hl ▸ hk'
  obtain ⟨heven, hodd⟩ := rawFrameOf_pair (last := last) hl hk15
  have hbyte := payloadOf_byteAt (rawFrameOf payload last) 33 k (by omega) hk15
  rw [heven, hodd, pairNibbles_prefix] at hbyte
  rwa [byteAt, byteAt, List.getD_eq_getElem _ _ hk, List.getD_eq_getElem _ _ hk'] at hbyte

end

namespace Machine

/-- Settles O38: the pairs of the frame carry the nibbles back. -/
theorem payloadSurvivesTheWire : Obligations.PayloadSurvivesTheWire := fun _ _ hl =>
  ⟨rawFrameOf_wellFormed hl, (weird_eq_false_iff_wellFormedRaw (rawFrameOf_length hl)).2 (rawFrameOf_wellFormed hl),
    payloadOf_rawFrameOf hl⟩

/-! ### Windows of a stream (R176) -/

theorem byteAt_window {l : List Byte} {o k : Nat} (hk : k < 33) : byteAt ((l.drop o).take 33) k = byteAt l (o + k) := by
  rw [byteAt_take hk]
  simp [byteAt]

theorem byteAt_append_left {l r : List Byte} {i : Nat} (h : i < l.length) : byteAt (l ++ r) i = byteAt l i :=
  List.getD_append _ _ _ _ h

theorem byteAt_append_right {l r : List Byte} (i : Nat) : byteAt (l ++ r) (l.length + i) = byteAt r i := by
  rw [byteAt, List.getD_append_right _ _ _ _ (by omega), Nat.add_sub_cancel_left]

/-- A block with a control character in its first thirty bytes is weird. -/
theorem weird_of_control {l : List Byte} {i : Nat} (hi : i < 30) (h : hiNibble (byteAt l i) ≠ 3) :
    weird l 33 = true :=
  (weird_full_eq_true_iff l).2 fun ⟨hprefix, _, _⟩ => h ((hiNibble_eq_three_iff _).2 (hprefix i hi))

/-- Settles O39: the window meets the `CR` or the `LF` of the first frame too early, or the last high nibble of the
second where it wants a `CR`. -/
theorem misalignedWindowIsWeird : Obligations.MisalignedWindowIsWeird := by
  rintro f g o ⟨hf, _, hcr, hlf⟩ ⟨hg, hprefix, _, _⟩ ho1 ho32
  have hhead : ∀ k, o ≤ k → k < 33 → byteAt (((f ++ g).drop o).take 33) (k - o) = byteAt f k := fun k ho hk => by
    rw [byteAt_window (by omega), show o + (k - o) = k by omega, byteAt_append_left (by omega)]
  by_cases ho : o ≤ 30
  · refine weird_of_control (i := 30 - o) (by omega) ?_
    rw [hhead 30 ho (by omega), hcr]
    decide
  · by_cases ho' : o ≤ 31
    · refine weird_of_control (i := 31 - o) (by omega) ?_
      rw [hhead 31 ho' (by omega), hlf]
      decide
    · refine (weird_full_eq_true_iff _).2 fun ⟨_, hcr', _⟩ => ?_
      rw [byteAt_window (by omega), show o + 30 = f.length + 29 by omega, byteAt_append_right] at hcr'
      have h29 := hprefix 29 (by omega)
      rw [hcr'] at h29
      exact absurd h29 (by decide)

/-! ### `UT.LISTEN` and `UT.READ33` (R161, R163) -/

/-- A chunk that was handed over begins anew. -/
theorem Ut.listenStart_eq (u : Ut) :
    u.listenStart = { u with rawcnt := if u.closed = true then 0 else u.rawcnt, closed := false } := by
  unfold Ut.listenStart
  split
  · rfl
  · next h => simp only [Bool.not_eq_true] at h; rw [← h]

theorem Ut.listen_silent_cons {p : Straps} {u : Ut} {b : Byte} {q : List Byte} (hs : u.port.Silent)
    (hq : u.port.rxq = b :: q) :
    u.listen p = .done (Ut.listenByte b
      (u.listenStart.setPort { u.port with rxq := q, hist := u.port.hist ++ [.rx .scan b] })) := by
  rw [Ut.listen, Ut.listenStart_port, Port.rxNext_silent_cons _ _ _ _ hs hq]
  rfl

theorem Ut.listen_silent_nil {p : Straps} {u : Ut} (hs : u.port.Silent) (hq : u.port.rxq = []) :
    u.listen p = .done (Ut.listenTimeout p.waitLimit
      (u.listenStart.setPort { u.port with hist := u.port.hist ++ [.timeout .scan] })) := by
  rw [Ut.listen, Ut.listenStart_port, Port.rxNext_silent_nil _ _ hs hq]
  rfl

/-- The timeout of R161 without a byte in the chunk. -/
theorem Ut.listenTimeout_empty (n : Nat) {u : Ut} (h : u.rawcnt = 0) : u.listenTimeout n = { u with
    idle := if u.idle < n then u.idle + 1 else u.idle
    hint := u.hint || decide (n ≤ u.idle)
    status := if u.idle < n then .waiting else .hint } := by
  rw [Ut.listenTimeout, if_neg (by omega)]
  by_cases hi : u.idle < n
  · simp [hi, Ut.setStatus]
  · simp [hi, Ut.setStatus, not_lt.1 hi]

/-- Settles O33: by the answer of the one read. -/
theorem listenTakesOneByte : Obligations.ListenTakesOneByte := by
  rintro s n hd hs hn
  have hstart : s.ut.listenStart = { s.ut with rawcnt := n, closed := false } := by rw [Ut.listenStart_eq, hn]
  refine ⟨fun b q hq => ?byte, fun hq => ?timeout⟩
  case byte =>
    rw [exec_utListen_eq, s.utOp_done _ _ _ hd rfl (Ut.listen_silent_cons hs hq), hstart]
    rfl
  case timeout =>
    rw [exec_utListen_eq, s.utOp_done _ _ _ hd rfl (Ut.listen_silent_nil hs hq), hstart]
    rcases Nat.eq_zero_or_pos n with rfl | hpos
    · rw [Ut.listenTimeout_empty _ rfl]
      rcases lt_or_ge s.ut.idle s.straps.waitLimit with hi | hi
      · simp [Ut.setPort, hi, not_le.2 hi]
      · simp [Ut.setPort, hi, not_lt.2 hi]
    · rw [Ut.listenTimeout_chunk _ _ hpos]
      simp [Ut.setPort, Ut.setStatus, hpos, Nat.ne_of_gt hpos]

/-- The block a read of the bytes queued leaves. -/
theorem rawOver_take_toList (l : List Byte) (v : Vector Byte 33) :
    (rawOver (l.take 33) v).toList = l.take 33 ++ v.toList.drop l.length := by
  rw [rawOver_toList, List.take_take, Nat.min_self, List.length_take]
  rcases le_total l.length 33 with h | h
  · rw [Nat.min_eq_right h]
  · rw [Nat.min_eq_left h, List.drop_eq_nil_of_le (by simp), List.drop_eq_nil_of_le (by simpa using h)]

/-- Settles O34: the read loop on a silent line. -/
theorem readTakesThirtyThree : Obligations.ReadTakesThirtyThree := by
  intro s hd hs
  refine ⟨rawOver (s.ut.port.rxq.take 33) s.ut.raw, rawOver_take_toList _ _, ?_⟩
  rw [exec_utRead33_eq, s.utOp_done _ _ _ hd rfl (Ut.read33_silent s.ut hs)]

/-! ### `UT.SYNC` (R168, R171) -/

/-- Settles O42: a scan without a chunk, a block judged, or `TransportError`. -/
theorem syncPhaseTable : Obligations.SyncPhaseTable := by
  intro s t hd hexec hbusy
  have hsat := Ut.sync_sat s.straps s.ut
  rw [exec_utSync_eq] at hexec
  rcases s.utOp_cases _ _ t hexec with
    ⟨hdead, _⟩ | ⟨_, x, hx, _⟩ | ⟨_, _, ⟨u, hu, rfl⟩ | ⟨x, u, hu, rfl⟩ | ⟨u, hu, rfl⟩⟩
  · simp [hd] at hdead
  · cases hx
  all_goals rw [hu] at hsat
  · rcases hsat with ⟨hrec, hmode, hstatus⟩ | ⟨w, hrec, rfl⟩
    · refine .inl ⟨hmode, ?_, hstatus, ?_, ?_⟩ <;> simp only [State.setUt_ut] <;> rw [hrec.1]
      · exact hmode
      · exact hd
    · have hlive : w.dead = false := by rw [hrec.1]; exact hd
      rcases Ut.judge_cases w with ⟨hw, hweird⟩ | ⟨hw, hweird⟩ <;> rw [State.setUt_ut, hw]
      · exact .inr (.inl ⟨rfl, rfl, rfl, hweird, rfl, hlive⟩)
      · exact .inr (.inr (.inl ⟨rfl, rfl, rfl, hweird, rfl, hlive⟩))
  · obtain ⟨rfl, hrec⟩ := hsat
    refine .inr (.inr (.inr ⟨?_, u.raise_linkDown⟩))
    show u.mode = s.ut.mode
    rw [hrec.1]
  · cases hbusy

/-- A block that is weird is dropped, whatever is decoded of it. -/
theorem Ut.judge_weird {u : Ut} (h : weird u.raw.toList u.rawcnt = true) : u.decraw.acceptFrame = { u with
    payload := payloadOf u.raw.toList u.rawcnt
    malformed := true
    pvalid := decide (30 ≤ u.rawcnt)
    svalid := false
    mode := .resync
    status := .dropped
    warn := { u.warn with malformed := true } } := by
  rcases Ut.judge_cases u with ⟨e, _⟩ | ⟨_, hw⟩
  · exact e
  · exact absurd (h.symm.trans hw) (by simp)

/-- A block that is not weird locks and delivers. -/
theorem Ut.judge_good {u : Ut} (h : weird u.raw.toList u.rawcnt = false) : u.decraw.acceptFrame = { u with
    payload := payloadOf u.raw.toList u.rawcnt
    malformed := false
    pvalid := true
    svalid := false
    mode := .steady
    status := .ok
    warn := { u.warn with malformed := false } } := by
  rcases Ut.judge_cases u with ⟨_, hw⟩ | ⟨e, _⟩
  · exact absurd (h.symm.trans hw) (by simp)
  · exact e

/-- The raw frame of a payload is good, and delivers it. -/
theorem Ut.judge_frame {u : Ut} {payload : Vector Byte 15} {last : Byte} (hc : u.rawcnt = 33)
    (hf : u.raw.toList = rawFrameOf payload.toList last) : u.decraw.acceptFrame = { u with
      payload := payload
      malformed := false
      pvalid := true
      svalid := false
      mode := .steady
      status := .ok
      warn := { u.warn with malformed := false } } := by
  obtain ⟨_, hgood, hpayload⟩ := payloadSurvivesTheWire payload.toList last (by simp)
  rw [Ut.judge_good (by rwa [hc, hf]), hc, hf, Vector.toList_inj.1 hpayload]

/-- The bytes of a payload whose wire bytes have come. -/
theorem payloadOf_nibbles {raw : List Byte} {c k : Nat} (hc : 2 * k + 1 < min c 33) (hk : k < 15) :
    (byteAt (payloadOf raw c).toList k).extractLsb' 0 4 = (byteAt raw (2 * k)).extractLsb' 0 4 ∧
      (byteAt (payloadOf raw c).toList k).extractLsb' 4 4 = (byteAt raw (2 * k + 1)).extractLsb' 0 4 := by
  rw [payloadOf_byteAt raw c k hc hk]
  exact ⟨pairNibbles_lo _ _, pairNibbles_hi _ _⟩

theorem Ut.sync_steady {p : Straps} {u : Ut} (h : u.mode = .steady) :
    u.sync p = u.read33.bind fun u => .done u.decraw.acceptFrame := by simp only [Ut.sync, h]

/-- A locked `UT.SYNC` judges the block it reads. -/
theorem Ut.sync_locked {p : Straps} {u : Ut} (hmode : u.mode = .steady) (hs : u.port.Silent) :
    u.sync p = .done (Ut.acceptFrame (Ut.decraw { u with
      raw := rawOver (u.port.rxq.take 33) u.raw
      rawcnt := min u.port.rxq.length 33
      closed := true
      status := if 33 ≤ u.port.rxq.length then .ok else .short
      port := { u.port with
        rxq := u.port.rxq.drop 33
        hist := u.port.hist ++ (u.port.rxq.take 33).map (Event.rx .lock) ++
          (if 33 ≤ u.port.rxq.length then [] else [.timeout .lock]) } })) := by
  rw [Ut.sync_steady hmode, Ut.read33_silent u hs, Res.bind_done]

/-- A locked `UT.SYNC` with a frame waiting delivers its payload. -/
theorem Ut.sync_frameWaiting (p : Straps) {u : Ut} {payload : Vector Byte 15} {frame : Vector Byte 33} {last : Byte}
    {rest : List Byte} (h : u.FrameWaiting payload frame last rest) :
    u.sync p = .done (u.synced payload frame rest) := by
  obtain ⟨_, hmode, hs, hframe, hq⟩ := h
  have hlen : frame.toList.length = 33 := by simp
  have htake : u.port.rxq.take 33 = frame.toList := by rw [hq, List.take_left' hlen]
  have hdrop : u.port.rxq.drop 33 = rest := by rw [hq, List.drop_left' hlen]
  have hle : 33 ≤ u.port.rxq.length := by rw [hq, List.length_append]; omega
  rw [Ut.sync_locked hmode hs, htake, hdrop, Nat.min_eq_right hle, if_pos hle,
    if_pos hle, rawOver_full _ _ frame rfl, Ut.judge_frame rfl hframe]
  simp [Ut.synced, hmode]

/-- Settles O40: the block read is judged. -/
theorem syncTakesTheFrame : Obligations.SyncTakesTheFrame := by
  refine ⟨fun s payload frame last rest h => ?frame, fun s n hd hmode hs hn hbad => ?other⟩
  case frame => rw [exec_utSync_eq, s.utOp_done _ _ _ h.1 rfl (Ut.sync_frameWaiting s.straps h)]
  case other =>
    have hblock := rawOver_take_toList s.ut.port.rxq s.ut.raw
    have hsync := Ut.sync_locked (p := s.straps) hmode hs
    rw [← hn] at hblock hsync
    generalize rawOver (s.ut.port.rxq.take 33) s.ut.raw = block at hblock hsync
    have hweird : weird block.toList (min n 33) = true := by
      rcases lt_or_ge n 33 with hlt | hge
      · exact (weird_eq_true_iff _ _).2 (.inl (by omega))
      · have hfull : (s.ut.port.rxq.take 33).length = 33 := by rw [List.length_take]; omega
        rw [Nat.min_eq_right hge, hblock, List.drop_eq_nil_of_le (by simp; omega), List.append_nil,
          ← Bool.not_eq_false, weird_eq_false_iff_wellFormedRaw hfull]
        exact hbad
    have h30 : (30 ≤ min n 33) = (30 ≤ n) := propext (by omega)
    refine ⟨block, payloadOf block.toList (min n 33), hblock, fun k hk => payloadOf_nibbles (by omega), ?_⟩
    rw [exec_utSync_eq, s.utOp_done _ _ _ hd rfl (hsync.trans (by rw [Ut.judge_weird hweird]))]
    simp [h30]

/-- The bytes of an open chunk, as many as its count says (10_state.md R38). -/
def Ut.chunk (u : Ut) (n : Nat) : List Byte := u.raw.toList.take n ++ List.replicate (n - 33) 0

theorem Ut.chunk_length (u : Ut) (n : Nat) : (u.chunk n).length = n := by
  simp only [Ut.chunk, List.length_append, List.length_take, Vector.length_toList, List.length_replicate]
  omega

/-- An open chunk is what it has received. -/
theorem Ut.rawd_chunk {u : Ut} (h : u.rawcnt ≤ 34) : Ut.rawd (u.chunk u.rawcnt) u = u := by
  have hraw : rawOver (u.chunk u.rawcnt) u.raw = u.raw := by
    refine rawOver_self _ _ fun i hi hlen => ?_
    rw [Ut.chunk_length] at hlen
    rw [Ut.chunk, byteAt_append_left (by simp; omega), byteAt_take hlen, byteAt]
  rw [Ut.rawd, hraw, Ut.chunk_length, Nat.min_eq_left h]

/-- The block an open chunk and more bytes make. -/
theorem Ut.rawOver_chunk (u : Ut) (n : Nat) (q : List Byte) :
    (rawOver (u.chunk n ++ q) u.raw).toList =
      (u.raw.toList.take n ++ q).take 33 ++ u.raw.toList.drop (n + q.length) := by
  rw [rawOver_toList, List.length_append, Ut.chunk_length]
  congr 1
  rcases le_total n 33 with h | h
  · simp [Ut.chunk, Nat.sub_eq_zero_of_le h]
  · have hall : u.raw.toList.take n = u.raw.toList := List.take_of_length_le (by simpa using h)
    rw [Ut.chunk, hall, List.append_assoc, List.take_left' (by simp), List.take_left' (by simp)]

theorem Ut.sync_resync {p : Straps} {u : Ut} (h : u.mode = .resync) :
    u.sync p = (Ut.scan p (u.port.supply + 1) u).bind fun u =>
      if u.status = .chunk then .done u.decraw.acceptFrame else .done u := by simp only [Ut.sync, h]

/-- A scan with bytes to judge: those of the open chunk and those queued (R161, R168). -/
theorem Ut.sync_chunk {p : Straps} {u : Ut} {n : Nat} (hmode : u.mode = .resync) (hs : u.port.Silent)
    (hn : n = if u.closed = true then 0 else u.rawcnt) (h34 : n ≤ 34) (hne : n + u.port.rxq.length ≠ 0) :
    u.sync p = .done (Ut.acceptFrame (Ut.decraw { u with
      raw := rawOver (u.chunk n ++ u.port.rxq) u.raw
      rawcnt := min (n + u.port.rxq.length) 34
      idle := if u.port.rxq = [] then u.idle else 0
      hint := if u.port.rxq = [] then u.hint else false
      closed := true
      status := .chunk
      port := { u.port with
        rxq := []
        hist := u.port.hist ++ u.port.rxq.map (Event.rx .scan) ++ [.timeout .scan] } })) := by
  have hstart : u.listenStart = { u with rawcnt := n, closed := false } := by rw [Ut.listenStart_eq, hn]
  have hrawd : Ut.rawd (u.chunk n) { u with rawcnt := n, closed := false } = { u with rawcnt := n, closed := false } :=
    Ut.rawd_chunk (u := { u with rawcnt := n, closed := false }) h34
  have hscan := Ut.scan_silent p (u.port.supply + 1) (u.chunk n) u.port.rxq { u with rawcnt := n, closed := false }
    u.port hs rfl (by simp only [Port.supply]; omega) rfl (by
      intro h
      have := congrArg List.length h
      rw [List.length_append, Ut.chunk_length] at this
      exact hne this)
  rw [hrawd] at hscan
  rw [Ut.sync_resync hmode, Ut.scan_listenStart p u _ (by omega), hstart]
  refine (congrArg (fun r : Res Ut => r.bind _) hscan).trans ?_
  simp [Ut.rawd, Ut.chunk_length]

/-- A scan with nothing to judge: `Waiting`, or `Hint` (R161, R168). -/
theorem Ut.sync_empty {p : Straps} {u : Ut} (hmode : u.mode = .resync) (hs : u.port.Silent)
    (hn : (if u.closed = true then 0 else u.rawcnt) = 0) (hq : u.port.rxq = []) :
    u.sync p = .done { u with
      rawcnt := 0
      closed := false
      idle := if u.idle < p.waitLimit then u.idle + 1 else u.idle
      hint := u.hint || decide (p.waitLimit ≤ u.idle)
      status := if u.idle < p.waitLimit then .waiting else .hint
      port := { u.port with hist := u.port.hist ++ [.timeout .scan] } } := by
  have hstart : u.listenStart = { u with rawcnt := 0, closed := false } := by rw [Ut.listenStart_eq, hn]
  rw [Ut.sync_resync hmode, Ut.scan, Ut.listen_silent_nil hs hq, Res.bind_done, hstart, Ut.listenTimeout_empty _ rfl]
  rcases lt_or_ge u.idle p.waitLimit with hi | hi
  · simp [hi, not_le.2 hi, Ut.setPort]
  · simp [hi, not_lt.2 hi, Ut.setPort]

/-- Settles O41: the chunk is judged where there is one. -/
theorem syncScansToTheGap : Obligations.SyncScansToTheGap := by
  refine ⟨fun s payload frame last hd hmode hopen hs hframe hq => ?frame,
    fun s n m q hd hmode hs hn h34 hq hm => ⟨fun h0 => ?empty, fun hpos => ?chunk⟩⟩
  all_goals rw [exec_utSync_eq]
  case frame =>
    have hn : 0 = if s.ut.closed = true then 0 else s.ut.rawcnt := by
      rcases hopen with h | h <;> simp [h]
    have hlen : frame.toList.length = 33 := by simp
    have hne : frame.toList ≠ [] := by
      rw [← List.length_pos_iff, hlen]
      decide
    have hblock : rawOver (s.ut.chunk 0 ++ frame.toList) s.ut.raw = frame :=
      rawOver_full _ _ _ (by simp [Ut.chunk])
    refine s.utOp_done _ _ _ hd rfl ?_
    rw [Ut.sync_chunk hmode hs hn (by omega) (by rw [hq, hlen]; decide), hq, hblock,
      Ut.judge_frame (by rw [hlen]; rfl) hframe, hlen, if_neg hne, if_neg hne]
    rfl
  case empty =>
    refine s.utOp_done _ _ _ hd rfl (Ut.sync_empty hmode hs (by omega) ?_)
    rw [← List.length_eq_zero_iff, ← hq]
    omega
  case chunk =>
    subst hq
    have hblock := s.ut.rawOver_chunk n s.ut.port.rxq
    have hsync := Ut.sync_chunk (p := s.straps) hmode hs hn h34 (by omega)
    rw [← hm] at hsync
    generalize rawOver (s.ut.chunk n ++ s.ut.port.rxq) s.ut.raw = block at hblock hsync
    refine ⟨block, payloadOf block.toList m, weird block.toList m, hblock, ⟨fun h => ?_, ?_⟩,
      fun k hk => payloadOf_nibbles hk, s.utOp_done _ _ _ hd rfl (hsync.trans ?_)⟩
    · obtain rfl := weird_false_count _ _ h
      exact ⟨rfl, (weird_eq_false_iff_wellFormedRaw (by simp)).1 h⟩
    · rintro ⟨rfl, hwf⟩
      exact (weird_eq_false_iff_wellFormedRaw (by simp)).2 hwf
    · cases hw : weird block.toList m with
      | true => rw [Ut.judge_weird hw]; rfl
      | false =>
        obtain rfl := weird_false_count _ _ hw
        rw [Ut.judge_good hw]; rfl

end Machine

end Sys2Proof
end

section
/-! The display of `UT`: meanings, summary, reading, monitor and average (44_ut_lcd.md); the status words. -/

namespace Sys2Proof

/-! ### Meanings (30_encoding.md R91, R92) -/

/-- Settles O44: by the kind of the field; the listed bits are those the lookup knows. -/
theorem fieldMeanings : Obligations.FieldMeanings := by
  intro f p
  refine ⟨fun hk tok htok => ?_, fun hk hnone => ?_, fun hk => ?_⟩
  · simp only [FieldSpec.meaning, hk, lookupToken, htok]
  · have hl : List.lookup (p &&& f.mask) f.lookup = none :=
      List.lookup_eq_none_iff.2 fun e he => by simpa using (hnone e he).symm
    simp only [FieldSpec.meaning, hk, lookupToken, hl]
  · refine ⟨(List.range 8).filter fun j => (p &&& f.mask).getLsbD j && (List.lookup ((1 : Byte) <<< j) f.lookup).isSome,
      List.pairwise_lt_range.filter _, fun j => by simp, ?_⟩
    simp only [FieldSpec.meaning, hk, bitTokens, lookupToken, List.filterMap_filter]
    congr 2
    funext j
    cases (p &&& f.mask).getLsbD j <;> cases List.lookup ((1 : Byte) <<< j) f.lookup <;> rfl

/-! ### The summary (44_ut_lcd.md R180) -/

/-- In a map without repeated keys an entry is what its key looks up. -/
theorem lookup_of_mem_nodup {α β : Type} [DecidableEq α] {l : List (α × β)} (hn : (l.map Prod.fst).Nodup) {a : α} {b
    : β}
    (h : (a, b) ∈ l) : l.lookup a = some b := by
  induction l with
  | nil => simp at h
  | cons e l ih =>
    obtain ⟨k, v⟩ := e
    rw [List.map_cons, List.nodup_cons] at hn
    rcases List.mem_cons.1 h with h | h
    · obtain ⟨rfl, rfl⟩ := Prod.mk.inj h
      simp
    · have hne : a ≠ k := fun hae => hn.1 (List.mem_map.2 ⟨(a, b), h, hae⟩)
      rw [List.lookup_cons, beq_false_of_ne hne]
      exact ih hn.2 h

theorem map_getD_range {α : Type} (l : List (List α)) : ((List.range l.length).map fun i => l.getD i []) = l := by
  refine List.ext_getElem (by simp) fun i h _ => ?_
  have hi : i < l.length := by simpa using h
  simp [hi]

/-- The names of a summary are those of its table. -/
theorem summarize_keys {t : LcdTable} (ht : t.length = 15) (payload : List Byte) :
    (summarize t payload).map Prod.fst = t.flatten.map FieldSpec.name := by
  calc (summarize t payload).map Prod.fst
      = ((List.range 15).map fun i => t.getD i []).flatten.map FieldSpec.name := by
        simp [summarize, List.flatMap_def, Function.comp_def]
    _ = t.flatten.map FieldSpec.name := by rw [← ht, map_getD_range]

/-- The entries of a summary. -/
theorem mem_summarize {t : LcdTable} (ht : t.length = 15) (payload : List Byte) (e : FieldName × Meaning) :
    e ∈ summarize t payload ↔ ∃ (i : Nat) (fs : List FieldSpec) (f : FieldSpec), t[i]? = some fs ∧ f ∈ fs ∧
      e = (f.name, f.meaning (byteAt payload i)) := by
  simp only [summarize, List.mem_flatMap, List.mem_range, List.mem_map]
  constructor
  · rintro ⟨i, hi, f, hf, rfl⟩
    have hi' : i < t.length := ht ▸ hi
    rw [List.getD_eq_getElem _ _ hi'] at hf
    exact ⟨i, t[i], f, List.getElem?_eq_getElem hi', hf, rfl⟩
  · rintro ⟨i, fs, f, hi, hf, rfl⟩
    obtain ⟨hlt, rfl⟩ := List.getElem?_eq_some_iff.1 hi
    exact ⟨i, ht ▸ hlt, f, by rwa [List.getD_eq_getElem _ _ hlt], rfl⟩

theorem LcdTable.wf_names {t : LcdTable} (h : LcdTable.wf t = true) :
    t.length = 15 ∧ (t.flatten.map FieldSpec.name).Nodup := by
  simp only [LcdTable.wf, Bool.and_eq_true, decide_eq_true_eq] at h
  obtain ⟨⟨⟨⟨⟨⟨hlen, hnodup⟩, _⟩, _⟩, _⟩, _⟩, _⟩ := h
  exact ⟨hlen, hnodup⟩

/-! ### The reading (44_ut_lcd.md R182) -/

theorem isBlankPattern_iff (g3 g2 g1 g0 : Dg) : isBlankPattern g3 g2 g1 g0 = true ↔
    g3 = .tok .blank ∧ g2 = .tok (.digit 0) ∧ g1 = .tok .letterL ∧ g0 = .tok .blank := by
  simp [isBlankPattern, and_assoc]

section
variable {s : Summary}

theorem Summary.reading_blank
    (h : isBlankPattern (s.dg .big1000) (s.dg .big100) (s.dg .big10) (s.dg .big1) = true) :
    s.reading = some ⟨none, s.dg .unit⟩ := by rw [Summary.reading, if_pos h]

theorem Summary.reading_numeric {n3 n2 n1 n0 : Nat} (h3 : (s.dg .big1000).val = some n3)
    (h2 : (s.dg .big100).val = some n2) (h1 : (s.dg .big10).val = some n1) (h0 : (s.dg .big1).val = some n0) :
    s.reading = some ⟨some (1000 * n3 + 100 * n2 + 10 * n1 + n0, s.dexp), s.dg .unit⟩ := by
  have hb : ¬ isBlankPattern (s.dg .big1000) (s.dg .big100) (s.dg .big10) (s.dg .big1) = true := fun hb => by
    rw [((isBlankPattern_iff _ _ _ _).1 hb).2.2.1] at h1
    cases h1
  rw [Summary.reading, if_neg hb, h3, h2, h1, h0]
  rfl

theorem Dg.val_eq_none {g : Dg} (h : g = .tok .letterL ∨ g = .unmapped) : g.val = none := by
  obtain rfl | rfl := h <;> rfl

theorem Summary.reading_none
    (hb : ¬ isBlankPattern (s.dg .big1000) (s.dg .big100) (s.dg .big10) (s.dg .big1) = true)
    (h : ∃ g ∈ [s.dg .big1000, s.dg .big100, s.dg .big10, s.dg .big1], g = .tok .letterL ∨ g = .unmapped) :
    s.reading = none := by
  obtain ⟨g, hg, hval⟩ := h
  have hnone := Dg.val_eq_none hval
  have hdigits : digits4 (s.dg .big1000).val (s.dg .big100).val (s.dg .big10).val (s.dg .big1).val = none := by
    rw [digits4_eq_none_iff]
    simp only [List.mem_cons, List.not_mem_nil, or_false] at hg
    obtain rfl | rfl | rfl | rfl := hg <;> simp only [hnone, true_or, or_true]
  rw [Summary.reading, if_neg hb, hdigits]

end

namespace Machine

/-- Settles O43: the names of a well-formed table do not repeat. -/
theorem summaryMapsEveryField : Obligations.SummaryMapsEveryField := by
  intro s hd hv ht
  obtain ⟨hlen, hnodup⟩ := LcdTable.wf_names ht
  refine ⟨summarize s.straps.lcdTable s.ut.payload.toList, ?_, fun i fs f hi hf => ?_, fun e he => ?_⟩
  · rw [exec_utSummary_eq, s.utPure_done _ _ hd (by simp [hv, ht])]
    rfl
  · exact lookup_of_mem_nodup (by rwa [summarize_keys hlen]) ((mem_summarize hlen _ _).2 ⟨i, fs, f, hi, hf, rfl⟩)
  · exact (mem_summarize hlen _ e).1 he

theorem State.utOp_raised {s : State} {pre : List (Bool × Code)} {body : Ut → Res Ut} {x : Code} {u : Ut}
    (hd : s.ut.dead = false) (hp : firstFailing pre = none) (hb : body s.ut = .raised x u) :
    s.utOp pre body = .next (s.setUt (u.raise x)) := by
  simp [State.utOp, hd, hp, State.endUt, hb]

theorem Ut.lux_done {u : Ut} {r : Reading} (h : Summary.reading u.summary = some r) :
    u.lux = .done { u.setStatus .ok with reading := r } := by rw [Ut.lux, h]

theorem Ut.lux_raised {u : Ut} (h : Summary.reading u.summary = none) : u.lux = .raised .lcdNotNumeric u := by
  rw [Ut.lux, h]

/-- Settles O45: the three cases of the reading. -/
theorem luxReadsTheDigits : Obligations.LuxReadsTheDigits := by
  rintro s _ _ _ _ hd hv rfl rfl rfl rfl
  have hpre : firstFailing [(s.ut.svalid, Code.noSummary)] = none := by simp [hv]
  refine ⟨fun h => ?blank, fun n3 n2 n1 n0 h3 h2 h1 h0 => ⟨_, _, _, _, rfl, rfl, rfl, rfl, ?numeric⟩, fun h hb => ?none⟩
  case blank =>
    have hr := Summary.reading_blank ((isBlankPattern_iff _ _ _ _).2 h)
    rw [exec_utLux_eq, s.utOp_done _ _ _ hd hpre (Ut.lux_done hr)]
    rfl
  case numeric =>
    have hr := Summary.reading_numeric h3 h2 h1 h0
    rw [exec_utLux_eq, s.utOp_done _ _ _ hd hpre (Ut.lux_done hr)]
    simp [Summary.dexp, Bool.toNat, Ut.setStatus, Bool.cond_eq_ite]
  case none =>
    have hr := Summary.reading_none (fun h => hb ((isBlankPattern_iff _ _ _ _).1 h)) h
    rw [exec_utLux_eq, State.utOp_raised hd hpre (Ut.lux_raised hr)]
    rfl

/-! ### `UT.MON` (R186) -/

/-- The channel after `summary()` and the low-battery flag. -/
def Ut.monitored (p : Straps) (u : Ut) : Ut :=
  { u.summarized p with
    warn := { u.warn with lowBat := Summary.has (summarize p.lcdTable u.payload.toList) .lowbat } }

/-- `mon()` after a frame was delivered. -/
theorem Ut.mon_delivered {p : Straps} {u v : Ut} (h : u.sync p = .done v) (hok : v.status = .ok) :
    u.mon p = if Summary.has (v.monitored p).summary .menu = true then .done ((v.monitored p).setStatus .skip)
      else (v.monitored p).lux := by
  rw [Ut.mon, h, Res.bind_done, if_neg (by simp [hok])]
  rfl

/-- Settles O46: the frame is delivered, then summarized, then read. -/
theorem monReadsTheFrame : Obligations.MonReadsTheFrame := by
  rintro s payload frame last rest m u h ht rfl hu
  have hmon := Ut.mon_delivered (Ut.sync_frameWaiting s.straps h) rfl
  have hu' : (s.ut.synced payload frame rest).monitored s.straps = u := hu.symm
  have hm : u.summary = summarize s.straps.lcdTable payload.toList := by rw [hu]
  rw [hu', hm] at hmon
  have hpre : firstFailing [(LcdTable.wf s.straps.lcdTable, Code.badTable)] = none := by simp [ht]
  rw [exec_utMon_eq]
  refine ⟨fun hmenu => ?menu, fun hmenu r hr => ?reading, fun hmenu hr => ?none⟩
  case menu =>
    rw [if_pos hmenu] at hmon
    exact s.utOp_done _ _ _ h.1 hpre hmon
  case reading =>
    rw [if_neg (by simp [hmenu]), Ut.lux_done (hm ▸ hr)] at hmon
    exact s.utOp_done _ _ _ h.1 hpre hmon
  case none =>
    rw [if_neg (by simp [hmenu]), Ut.lux_raised (hm ▸ hr)] at hmon
    exact State.utOp_raised h.1 hpre hmon

/-- An operation that goes on from another only where that one ends `OK` ends as it does otherwise. -/
theorem State.endUt_bind {s t : State} {r : Res Ut} {f : Ut → Res Ut} (hf : ∀ u : Ut, u.status ≠ .ok → f u = .done u)
    (h : s.endUt r = .next t) (hok : t.ut.status ≠ .ok) : s.endUt (r.bind f) = .next t := by
  cases r with
  | done u =>
    obtain rfl : s.setUt u = t := by simpa [State.endUt] using h
    rw [Res.bind_done, hf u hok, h]
  | raised x u => exact h
  | stuck u => exact h

/-- What an operation that leaves the averaging window alone ends with. -/
theorem State.endUt_window {s t : State} {r : Res Ut} (hr : s.ut.KeepsAside r) (h : s.endUt r = .next t) :
    t.ut.wsum = s.ut.wsum ∧ t.ut.wcnt = s.ut.wcnt ∧ t.ut.avg = s.ut.avg := by
  cases r with
  | done u =>
    obtain rfl : s.setUt u = t := by simpa [State.endUt] using h
    obtain ⟨_, _, hcnt, hsum, havg⟩ := hr
    exact ⟨hsum, hcnt, havg⟩
  | raised x u =>
    obtain rfl : s.setUt (u.raise x) = t := by simpa [State.endUt] using h
    obtain ⟨_, _, hcnt, hsum, havg⟩ := hr
    rw [State.setUt_ut]
    rcases Ut.raise_cases x u with ⟨e, _⟩ | ⟨e, _⟩ <;> rw [e] <;> exact ⟨hsum, hcnt, havg⟩
  | stuck u =>
    obtain rfl : s.setUt u.hang = t := by simpa [State.endUt] using h
    obtain ⟨_, _, hcnt, hsum, havg⟩ := hr
    exact ⟨hsum, hcnt, havg⟩

/-- A live `UT` operation whose preconditions hold is the end of its body. -/
theorem State.utOp_live {s : State} {pre : List (Bool × Code)} {body : Ut → Res Ut} (hd : s.ut.dead = false)
    (hp : firstFailing pre = none) : s.utOp pre body = s.endUt (body s.ut) := by
  simp [State.utOp, hd, hp]

theorem execUtAvg_pre {s : State} (hdur : s.ut.dur ≠ 0) (ht : LcdTable.wf s.straps.lcdTable = true) :
    firstFailing [(decide (s.ut.dur ≠ 0), Code.noWindow), (LcdTable.wf s.straps.lcdTable, .badTable)] = none := by
  rw [firstFailing_cons, decide_eq_true hdur, firstFailing_cons, ht]
  rfl

/-- Settles O47: both go on only after `OK`. -/
theorem monPassesSyncThrough : Obligations.MonPassesSyncThrough := by
  intro s t hd ht hok
  have hmon : exec .utMon s = s.endUt (s.ut.mon s.straps) := State.utOp_live hd (by simp [ht])
  have hsync : exec .utSync s = s.endUt (s.ut.sync s.straps) := by
    rw [exec_utSync_eq, State.utOp_live hd rfl]
  refine ⟨fun h => ?_, fun hdur h => ?_⟩
  · rw [hmon]
    exact State.endUt_bind (fun _ h => if_pos h) (hsync ▸ h) hok
  · have havg : exec .utAvg s = s.endUt (s.ut.average s.straps) := State.utOp_live hd (execUtAvg_pre hdur ht)
    rw [havg]
    exact ⟨State.endUt_bind (fun _ h => if_pos h) (hmon ▸ h) hok, State.endUt_window (Ut.mon_aside _ _) (hmon ▸ h)⟩

/-! ### `UT.AVG` (R189 to R191) -/

/-- `UT.AVG` after a frame that is no menu frame and has a reading. -/
theorem Ut.average_reading {p : Straps} {u v : Ut} {r : Reading} (h : u.sync p = .done v) (hok : v.status = .ok)
    (hmenu : Summary.has (v.monitored p).summary .menu = false) (hr : Summary.reading (v.monitored p).summary = some
        r) :
    u.average p = .done (Ut.accumulate p { (v.monitored p).setStatus .ok with reading := r }) := by
  rw [Ut.average, Ut.mon_delivered h hok, if_neg (by simp [hmenu]), Ut.lux_done hr, Res.bind_done,
      if_neg (by simp [Ut.setStatus])]

theorem Ut.accumulate_null {p : Straps} {u : Ut} (h : u.reading.lux = none) : u.accumulate p = u.setStatus .accum := by
  rw [Ut.accumulate, h]

theorem Ut.accumulate_value {p : Straps} {u : Ut} {n : Nat} {e : Int} (h : u.reading.lux = some (n, e)) :
    u.accumulate p = u.addReading p n e := by rw [Ut.accumulate, h]

theorem Ut.addReading_last {p : Straps} {u : Ut} {n : Nat} {e : Int} (h : u.wcnt + 1 = u.window p) :
    u.addReading p n e = { u with
      status := .ok, avg := (u.wsum + n * 10 ^ (e + 6).toNat, u.window p), wsum := 0, wcnt := 0 } := if_pos h

theorem Ut.addReading_more {p : Straps} {u : Ut} {n : Nat} {e : Int} (h : u.wcnt + 1 ≠ u.window p) :
    u.addReading p n e = { u with
      status := .accum, wsum := u.wsum + n * 10 ^ (e + 6).toNat, wcnt := u.wcnt + 1 } := if_neg h

/-- Settles O48: the reading of the frame, then the window. -/
theorem avgAddsTheReading : Obligations.AvgAddsTheReading := by
  rintro s payload frame last rest m u r h ht hdur rfl hmenu hr hu
  have hrun := Ut.average_reading (Ut.sync_frameWaiting s.straps h) rfl hmenu hr
  have hu' : { ((s.ut.synced payload frame rest).monitored s.straps).setStatus .ok with reading := r } = u := hu.symm
  rw [hu'] at hrun
  have hlux : u.reading = r := by rw [hu]
  rw [exec_utAvg_eq, s.utOp_done _ _ _ h.1 (execUtAvg_pre hdur ht) hrun]
  refine ⟨fun hnull => ?_, fun n e sum hval hsum => ?_⟩
  · rw [Ut.accumulate_null (hlux ▸ hnull)]
    rfl
  · have hcnt : u.wcnt = s.ut.wcnt := by rw [hu]; rfl
    have hwsum : u.wsum = s.ut.wsum := by rw [hu]; rfl
    have hwin : u.window s.straps = s.ut.dur.toNat * s.straps.utRateHz := by rw [hu]; rfl
    rw [Ut.accumulate_value (hlux ▸ hval), hsum, ← hwin, ← hcnt, ← hwsum]
    exact ⟨fun hmore => by rw [Ut.addReading_more hmore], fun hlast => by rw [Ut.addReading_last hlast]⟩

/-- `UT` locked on a silent line, with a window of `w` readings of which it has some (R190). -/
def Ut.Averaging (p : Straps) (w : Nat) (u : Ut) : Prop :=
  u.dead = false ∧ u.mode = .steady ∧ u.port.Silent ∧ u.dur ≠ 0 ∧ u.window p = w

/-- A payload with a reading that counts `v` in the window (R189). -/
def Payload.Counts (p : Straps) (f : Vector Byte 15) (v : Nat) : Prop :=
  Summary.has (summarize p.lcdTable f.toList) .menu = false ∧
    ∃ n e unit, Summary.reading (summarize p.lcdTable f.toList) = some ⟨some (n, e), unit⟩ ∧ v = n * 10 ^ (e + 6).toNat

theorem rawFrameOf_vector (f : Vector Byte 15) (last : Byte) : ∃ frame : Vector Byte 33,
    frame.toList = rawFrameOf f.toList last :=
  ⟨⟨(rawFrameOf f.toList last).toArray, by simpa using rawFrameOf_length (by simp)⟩, rfl⟩

/-- One `UT.AVG` over a frame with a reading: the state it leaves, and what of it the next one depends on. -/
theorem exec_utAvg_frame {s : State} {f : Vector Byte 15} {v w : Nat} {last : Byte} {rest : List Byte}
    (h : s.ut.Averaging s.straps w) (ht : LcdTable.wf s.straps.lcdTable = true)
    (hq : s.ut.port.rxq = rawFrameOf f.toList last ++ rest) (hv : Payload.Counts s.straps f v) :
    ∃ t, exec .utAvg s = .next t ∧ t.straps = s.straps ∧ t.ut.Averaging s.straps w ∧ t.ut.port.rxq = rest ∧
      (s.ut.wcnt + 1 ≠ w → t.ut.status = .accum ∧ t.ut.wsum = s.ut.wsum + v ∧ t.ut.wcnt = s.ut.wcnt + 1) ∧
      (s.ut.wcnt + 1 = w → t.ut.status = .ok ∧ t.ut.avg = (s.ut.wsum + v, w) ∧ t.ut.wsum = 0 ∧ t.ut.wcnt = 0) := by
  obtain ⟨hdead, hmode, hs, hdur, rfl⟩ := h
  obtain ⟨hmenu, n, e, unit, hr, rfl⟩ := hv
  obtain ⟨frame, hframe⟩ := rawFrameOf_vector f last
  have hwait : s.ut.FrameWaiting f frame last rest := ⟨hdead, hmode, hs, hframe, by rw [hq, hframe]⟩
  obtain ⟨_, hval⟩ := avgAddsTheReading s f frame last rest _ _ _ hwait ht hdur rfl hmenu hr rfl
  obtain ⟨hmore, hlast⟩ := hval n e _ rfl rfl
  by_cases hw : s.ut.wcnt + 1 = s.ut.window s.straps
  · exact ⟨_, hlast hw, rfl, ⟨hdead, hmode, hs, hdur, rfl⟩, rfl, fun h => absurd hw h, fun _ => ⟨rfl, rfl, rfl, rfl⟩⟩
  · exact ⟨_, hmore hw, rfl, ⟨hdead, hmode, hs, hdur, rfl⟩, rfl, fun _ => ⟨rfl, rfl, rfl⟩, fun h => absurd h hw⟩

/-- The states of a run: the first, then those of the run after it. -/
def Window.run (s : State) (next : Nat → State) : Nat → State
  | 0 => s
  | j + 1 => next j

/-- The rest of a window: as many `UT.AVG` as it lacks, over as many frames with readings. -/
theorem exec_utAvg_window {w : Nat} {last : Byte} {rest : List Byte} {frames : List (Vector Byte 15)} {values : List
    Nat}
    {s : State} (hv : List.Forall₂ (Payload.Counts s.straps) frames values) (h : s.ut.Averaging s.straps w)
    (ht : LcdTable.wf s.straps.lcdTable = true) (hne : frames ≠ []) (hw : s.ut.wcnt + frames.length = w)
    (hq : s.ut.port.rxq = (frames.map fun f => rawFrameOf f.toList last).flatten ++ rest) :
    ∃ run : Nat → State, run 0 = s ∧
      (∀ j, j < frames.length → exec .utAvg (run j) = .next (run (j + 1)) ∧
        (run (j + 1)).ut.status = if j + 1 = frames.length then .ok else .accum) ∧
      (run frames.length).ut.avg = (s.ut.wsum + values.sum, w) ∧ (run frames.length).ut.wsum = 0 ∧
      (run frames.length).ut.wcnt = 0 ∧ (run frames.length).ut.port.rxq = rest := by
  induction frames generalizing s values with
  | nil => exact absurd rfl hne
  | cons f frames ih =>
    obtain ⟨v, values, hvf, hvs, rfl⟩ := List.forall₂_cons_left_iff.1 hv
    rw [List.map_cons, List.flatten_cons, List.append_assoc] at hq
    obtain ⟨t, hexec, hstraps, havg, hrest, hmore, hlast⟩ := exec_utAvg_frame h ht hq hvf
    rw [List.length_cons] at hw
    by_cases hnil : frames = []
    · subst hnil
      obtain rfl := List.forall₂_nil_left_iff.1 hvs
      obtain ⟨hstatus, hmean, hwsum, hwcnt⟩ := hlast hw
      refine ⟨Window.run s fun _ => t, rfl, fun j hj => ?_, by rw [List.sum_singleton]; exact hmean, hwsum, hwcnt,
          hrest⟩
      obtain rfl : j = 0 := by simpa using hj
      exact ⟨hexec, hstatus⟩
    · have hpos := List.length_pos_of_ne_nil hnil
      obtain ⟨hstatus, hsum, hcnt⟩ := hmore (by omega)
      obtain ⟨run, h0, hrun, hmean, hwsum, hwcnt, hend⟩ := ih (s := t) (hstraps ▸ hvs) (hstraps ▸ havg) (hstraps ▸
          ht) hnil
        (by omega) hrest
      refine ⟨Window.run s run, rfl, fun j hj => ?_, ?_, hwsum, hwcnt, hend⟩
      · cases j with
        | zero =>
          have hfst : Window.run s run 1 = t := h0
          rw [hfst, if_neg (by simpa using hnil)]
          exact ⟨hexec, hstatus⟩
        | succ j => simpa [Window.run] using hrun j (by simpa using hj)
      · rw [List.sum_cons, ← Nat.add_assoc, ← hsum]
        exact hmean

/-- Settles O49. -/
theorem avgEmitsTheMeanOfTheWindow : Obligations.AvgEmitsTheMeanOfTheWindow := by
  rintro s frames values last rest w hd hmode hs hcnt hsum hdur hrate ht hw hlen hq hv
  have hdur' : 0 < s.ut.dur.toNat := Nat.pos_of_ne_zero fun h => hdur (BitVec.eq_of_toNat_eq (by simpa using h))
  have hpos : 0 < w := hw ▸ Nat.mul_pos hdur' hrate
  obtain ⟨run, h0, hrun, havg, hwsum, hwcnt, hrest⟩ := exec_utAvg_window (w := w) hv ⟨hd, hmode, hs, hdur, hw.symm⟩ ht
    (List.ne_nil_of_length_pos (by omega)) (by omega) hq
  rw [hlen] at hrun havg hwsum hwcnt hrest
  exact ⟨run, h0, hrun, by rw [havg, hsum, Nat.zero_add], hwsum, hwcnt, hrest⟩

/-! ### `UT.START` and the status words (R192, R193; 42_cl_sequencer.md R152) -/

/-- Settles O50. -/
theorem startEmptiesTheWindow : Obligations.StartEmptiesTheWindow := by
  intro s d hd
  rw [exec_utStart_eq, s.utPure_done _ _ hd rfl]
  rfl

/-- A bit above the last part of a word. -/
theorem getLsbD_append_of_le {n m i : Nat} {x : BitVec n} {y : BitVec m} (h : m ≤ i) :
    (x ++ y).getLsbD i = x.getLsbD (i - m) := by
  rw [BitVec.getLsbD_append, if_neg (Nat.not_lt.2 h)]

/-- A bit within the last part of a word. -/
theorem getLsbD_append_of_lt {n m i : Nat} {x : BitVec n} {y : BitVec m} (h : i < m) :
    (x ++ y).getLsbD i = y.getLsbD i := by
  rw [BitVec.getLsbD_append, if_pos h]

theorem getLsbD_append_bit {n : Nat} (x : BitVec n) (b : Bool) : (x ++ bit b).getLsbD 0 = b := by
  rw [getLsbD_append_of_lt Nat.one_pos]
  cases b <;> rfl

theorem ClWarn.bits_getLsbD (w : ClWarn) : w.bits.getLsbD 0 = w.range ∧ w.bits.getLsbD 1 = w.lowLum ∧
    w.bits.getLsbD 2 = w.hsLenient ∧ w.bits.getLsbD 3 = w.overrun := by
  obtain ⟨a, b, c, d⟩ := w
  revert a b c d
  decide

theorem UtWarn.bits_getLsbD (w : UtWarn) : w.bits.getLsbD 0 = w.lowBat ∧ w.bits.getLsbD 1 = w.malformed := by
  obtain ⟨a, b⟩ := w
  revert a b
  decide

/-- The fields of the word of `CL`, from bit 0 up (42_cl_sequencer.md R152). -/
theorem Cl.statusWord_fields (c : Cl) :
    c.statusWord.extractLsb' 0 3 = c.hs.code ∧ c.statusWord.getLsbD 3 = c.alive ∧
      c.statusWord.getLsbD 4 = c.warn.range ∧ c.statusWord.getLsbD 5 = c.warn.lowLum ∧
      c.statusWord.getLsbD 6 = c.warn.hsLenient ∧ c.statusWord.getLsbD 7 = c.warn.overrun ∧
      c.statusWord.extractLsb' 8 8 = c.fault.byte ∧ c.statusWord.extractLsb' 16 2 = BitVec.ofNat 2 c.pcTry ∧
      c.statusWord.extractLsb' 18 2 = BitVec.ofNat 2 c.extTry ∧ c.statusWord.extractLsb' 20 4 = 0 ∧
      c.statusWord.extractLsb' 24 8 = c.status.byte := by
  obtain ⟨hrange, hlow, hlenient, hover⟩ := c.warn.bits_getLsbD
  rw [Cl.statusWord]
  refine ⟨BitVec.extractLsb'_append_eq_right, ?alive, ?range, ?low, ?lenient, ?overrun, ?fault, ?pc, ?ext, ?zero,
      ?status⟩
  case alive =>
    rw [getLsbD_append_of_le (by decide)]
    exact getLsbD_append_bit _ _
  case range =>
    rw [getLsbD_append_of_le (by decide), getLsbD_append_of_le (by decide), getLsbD_append_of_lt (by decide)]
    exact hrange
  case low =>
    rw [getLsbD_append_of_le (by decide), getLsbD_append_of_le (by decide), getLsbD_append_of_lt (by decide)]
    exact hlow
  case lenient =>
    rw [getLsbD_append_of_le (by decide), getLsbD_append_of_le (by decide), getLsbD_append_of_lt (by decide)]
    exact hlenient
  case overrun =>
    rw [getLsbD_append_of_le (by decide), getLsbD_append_of_le (by decide), getLsbD_append_of_lt (by decide)]
    exact hover
  case status =>
    repeat rw [BitVec.extractLsb'_append_eq_of_le (by decide)]
    exact BitVec.extractLsb'_eq_self
  all_goals
    repeat rw [BitVec.extractLsb'_append_eq_of_le (by decide)]
    exact BitVec.extractLsb'_append_eq_right

/-- The fields of the word of `UT`, from bit 0 up (44_ut_lcd.md R193). -/
theorem Ut.statusWord_fields (u : Ut) :
    u.statusWord.getLsbD 0 = decide (u.mode = .steady) ∧ u.statusWord.getLsbD 1 = u.dead ∧
      u.statusWord.getLsbD 2 = u.hint ∧ u.statusWord.getLsbD 3 = u.malformed ∧
      u.statusWord.getLsbD 4 = u.warn.lowBat ∧ u.statusWord.getLsbD 5 = u.warn.malformed ∧
      u.statusWord.getLsbD 6 = u.pvalid ∧ u.statusWord.getLsbD 7 = u.svalid ∧
      u.statusWord.extractLsb' 8 8 = u.fault.byte ∧ u.statusWord.extractLsb' 16 4 = BitVec.ofNat 4 u.idle ∧
      u.statusWord.extractLsb' 20 4 = 0 ∧ u.statusWord.extractLsb' 24 8 = u.status.byte := by
  obtain ⟨hlow, hmal⟩ := u.warn.bits_getLsbD
  rw [Ut.statusWord]
  refine ⟨?mode, ?dead, ?hint, ?bad, ?low, ?mal, ?pv, ?sv, ?fault, ?idle, ?zero, ?status⟩
  case mode =>
    rw [getLsbD_append_of_lt (by decide)]
    cases u.mode <;> rfl
  case low =>
    repeat rw [getLsbD_append_of_le (by decide)]
    exact (getLsbD_append_of_lt (by decide)).trans hlow
  case mal =>
    repeat rw [getLsbD_append_of_le (by decide)]
    exact (getLsbD_append_of_lt (by decide)).trans hmal
  case status =>
    repeat rw [BitVec.extractLsb'_append_eq_of_le (by decide)]
    exact BitVec.extractLsb'_eq_self
  case' fault | idle | zero =>
    repeat rw [BitVec.extractLsb'_append_eq_of_le (by decide)]
    exact BitVec.extractLsb'_append_eq_right
  all_goals
    repeat rw [getLsbD_append_of_le (by decide)]
    exact getLsbD_append_bit _ _

/-- Settles O52: the words are delivered, with these fields. -/
theorem statusWordFields : Obligations.StatusWordFields := fun s =>
  ⟨⟨s.cl.statusWord, rfl, s.cl.statusWord_fields⟩, s.ut.statusWord, rfl, s.ut.statusWord_fields⟩

end Machine

end Sys2Proof
end
